-- ==== Sys2Proof/Word.lean ====
section
/-! DEFINITION. The word and the byte of the hardware (00_scope.md R5, R7): a word is 16 bits, bit 0 the least
significant; a byte is what the host's input and output carry (R13). -/

namespace Sys2Proof

/-- The architecture's only datum size (R5): 16 bits, unsigned storage, arithmetic modulo 2^16 (R10). -/
abbrev Word := BitVec 16

/-- One byte of the host's input or output stream (R13). -/
abbrev Byte := BitVec 8

end Sys2Proof
end

