-- ==== Sys2Proof/Syntax.lean ====
section
/-! DEFINITION. The instructions as decoded (30_encoding.md R65, R71), one constructor for each row of
spec/opcode_table.json; the errors a run can end with (60_exceptions.md R170); the assembler's names for instructions
(R74). -/

namespace Sys2Proof

/-- A general register, by the 3-bit number of an instruction's register field (10_state.md R21, R62). -/
inductive Reg where
  | r0 | r1 | r2 | r3 | r4 | r5 | r6 | r7
  deriving DecidableEq, Repr

/-- The decoded instruction. Offsets and immediates are the 16-bit words that sign extension at decode makes of the
fields (R63: "the decoded instruction holds 16-bit offsets"). -/
inductive Instr where
  /-- BR (R110): the mask's bits 2, 1, 0 are n, z, p (R66). -/
  | br (mask : BitVec 3) (off : Word)
  /-- ADD, register mode (R100). -/
  | addReg (dr sr1 sr2 : Reg)
  /-- ADD, immediate mode (R101). -/
  | addImm (dr sr1 : Reg) (imm : Word)
  /-- LD (R120). -/
  | ld (dr : Reg) (off : Word)
  /-- ST (R124). -/
  | st (sr : Reg) (off : Word)
  /-- JSRR (R115). -/
  | jsrr (base : Reg)
  /-- JSR (R114). -/
  | jsr (off : Word)
  /-- AND, register mode (R102). -/
  | andReg (dr sr1 sr2 : Reg)
  /-- AND, immediate mode (R103). -/
  | andImm (dr sr1 : Reg) (imm : Word)
  /-- LDR (R122). -/
  | ldr (dr base : Reg) (off : Word)
  /-- STR (R126). -/
  | str (sr base : Reg) (off : Word)
  /-- RTI, reserved (R160); `low` is w[11:0], which the decoder ignores and the error records. -/
  | rti (low : BitVec 12)
  /-- NOT (R104). -/
  | not (dr sr1 : Reg)
  /-- LDI (R121). -/
  | ldi (dr : Reg) (off : Word)
  /-- STI (R125). -/
  | sti (sr : Reg) (off : Word)
  /-- JMP (R111) with a base other than R7; with R7 the table's own row is RET. -/
  | jmp (base : Reg)
  /-- RET (R112): the words of JMP with BaseR = 7. -/
  | ret
  /-- RES, reserved (R161); `low` is w[11:0], which the decoder ignores and the error records. -/
  | res (low : BitVec 12)
  /-- LEA (R123). -/
  | lea (dr : Reg) (off : Word)
  /-- TRAP x20 (R141). -/
  | trapGetc
  /-- TRAP x21 (R142). -/
  | trapOut
  /-- TRAP x22 (R143). -/
  | trapPuts
  /-- TRAP x23 (R144). -/
  | trapIn
  /-- TRAP x24 (R145). -/
  | trapPutsp
  /-- TRAP x25 (R146). -/
  | trapHalt
  /-- The table's last row (R147): a TRAP word whose vector names no routine, the decoder's rejection by name. -/
  | trapUndefinedVector (vector : Byte)
  deriving DecidableEq, Repr

/-- What failed in an input or output interaction with the host (R173). -/
inductive IoCause where
  | eof | read | poll | write | flush
  deriving DecidableEq, Repr

/-- The error a run can end with (R14, R170). `unknownRegister` and `unknownInstruction` are kept though no word produces
them (R71, R171, R172). -/
inductive RunError where
  | unknownRegister (raw : Word)
  | unknownInstruction (raw : Word)
  | unknownTrapRoutine (vector : Byte)
  | reservedOpcode (word : Word)
  | ioError (cause : IoCause)
  deriving DecidableEq, Repr

/-- The spec's cause code of an error (R170). -/
def RunError.code : RunError → Nat
  | .unknownRegister _ => 1
  | .unknownInstruction _ => 2
  | .unknownTrapRoutine _ => 3
  | .reservedOpcode _ => 4
  | .ioError _ => 5

/-- The assembler's pseudo-instructions and aliases (R74). -/
inductive Pseudo where
  | ret | getc | out | puts | in_ | putsp | halt | nop
  deriving DecidableEq, Repr

/-- The instruction a pseudo-instruction stands for (R74). -/
def Pseudo.expand : Pseudo → Instr
  | .ret => .ret
  | .getc => .trapGetc
  | .out => .trapOut
  | .puts => .trapPuts
  | .in_ => .trapIn
  | .putsp => .trapPutsp
  | .halt => .trapHalt
  | .nop => .br 0#3 0#16

/-- A row of the opcode table: the words of the row are those with `word &&& mask = pattern`. -/
structure Row where
  mnemonic : String
  pattern : Word
  mask : Word
  deriving DecidableEq, Repr

/-- The row of spec/opcode_table.json that each constructor stands for. -/
def Instr.row : Instr → Row
  | .br _ _ => ⟨"BR", 0x0000#16, 0xF000#16⟩
  | .addReg _ _ _ => ⟨"ADD", 0x1000#16, 0xF020#16⟩
  | .addImm _ _ _ => ⟨"ADD", 0x1020#16, 0xF020#16⟩
  | .ld _ _ => ⟨"LD", 0x2000#16, 0xF000#16⟩
  | .st _ _ => ⟨"ST", 0x3000#16, 0xF000#16⟩
  | .jsrr _ => ⟨"JSRR", 0x4000#16, 0xF800#16⟩
  | .jsr _ => ⟨"JSR", 0x4800#16, 0xF800#16⟩
  | .andReg _ _ _ => ⟨"AND", 0x5000#16, 0xF020#16⟩
  | .andImm _ _ _ => ⟨"AND", 0x5020#16, 0xF020#16⟩
  | .ldr _ _ _ => ⟨"LDR", 0x6000#16, 0xF000#16⟩
  | .str _ _ _ => ⟨"STR", 0x7000#16, 0xF000#16⟩
  | .rti _ => ⟨"RTI", 0x8000#16, 0xF000#16⟩
  | .not _ _ => ⟨"NOT", 0x9000#16, 0xF000#16⟩
  | .ldi _ _ => ⟨"LDI", 0xA000#16, 0xF000#16⟩
  | .sti _ _ => ⟨"STI", 0xB000#16, 0xF000#16⟩
  | .jmp _ => ⟨"JMP", 0xC000#16, 0xF000#16⟩
  | .ret => ⟨"RET", 0xC1C0#16, 0xF1C0#16⟩
  | .res _ => ⟨"RES", 0xD000#16, 0xF000#16⟩
  | .lea _ _ => ⟨"LEA", 0xE000#16, 0xF000#16⟩
  | .trapGetc => ⟨"TRAP_GETC", 0xF020#16, 0xF0FF#16⟩
  | .trapOut => ⟨"TRAP_OUT", 0xF021#16, 0xF0FF#16⟩
  | .trapPuts => ⟨"TRAP_PUTS", 0xF022#16, 0xF0FF#16⟩
  | .trapIn => ⟨"TRAP_IN", 0xF023#16, 0xF0FF#16⟩
  | .trapPutsp => ⟨"TRAP_PUTSP", 0xF024#16, 0xF0FF#16⟩
  | .trapHalt => ⟨"TRAP_HALT", 0xF025#16, 0xF0FF#16⟩
  | .trapUndefinedVector _ => ⟨"TRAP_undefined_vector", 0xF000#16, 0xF000#16⟩

end Sys2Proof
end

