-- ==== Sys2Proof/WellFormed.lean ====
section
/-! DEFINITION. Which instructions the encoding can hold: the ranges of the sign-extended fields (30_encoding.md R63),
the vectors that name no routine (R68), and the one name for the words of RET (R74). -/

namespace Sys2Proof

/-- The word, read in two's complement, lies in the range of a sign-extended field of `n` bits (R63). -/
def fitsSigned (n : Nat) (v : Word) : Bool :=
  decide (-(2 ^ (n - 1) : Int) ≤ v.toInt) && decide (v.toInt < (2 ^ (n - 1) : Int))

/-- The vector names one of the six routines (R68). -/
def definedVector (v : Byte) : Bool :=
  decide (0x20 ≤ v.toNat) && decide (v.toNat ≤ 0x25)

/-- The instruction has an encoding (R63, R65) and is the decoder's name for it (RET is not written JMP R7). -/
def Instr.wellFormed : Instr → Bool
  | .br _ off => fitsSigned 9 off
  | .addReg _ _ _ => true
  | .addImm _ _ imm => fitsSigned 5 imm
  | .ld _ off => fitsSigned 9 off
  | .st _ off => fitsSigned 9 off
  | .jsrr _ => true
  | .jsr off => fitsSigned 11 off
  | .andReg _ _ _ => true
  | .andImm _ _ imm => fitsSigned 5 imm
  | .ldr _ _ off => fitsSigned 6 off
  | .str _ _ off => fitsSigned 6 off
  | .rti _ => true
  | .not _ _ => true
  | .ldi _ off => fitsSigned 9 off
  | .sti _ off => fitsSigned 9 off
  | .jmp base => decide (base ≠ .r7)
  | .ret => true
  | .res _ => true
  | .lea _ off => fitsSigned 9 off
  | .trapGetc => true
  | .trapOut => true
  | .trapPuts => true
  | .trapIn => true
  | .trapPutsp => true
  | .trapHalt => true
  | .trapUndefinedVector v => !definedVector v

end Sys2Proof
end

