-- ==== Sys2Proof/Decode.lean ====
section
/-! DEFINITION. The decoder and the encoder (30_encoding.md R60-R72). The layout is the LC-3's, which the spec takes from
general knowledge where its source is silent (D1); it stands in `decodeWord` and `encode` alone. -/

namespace Sys2Proof

/-- Sign extension of an n-bit field to a word (00_scope.md R8). -/
def sext {n : Nat} (f : BitVec n) : Word := f.signExtend 16

/-- The register that a 3-bit field names (R62). -/
def Reg.ofBits (b : BitVec 3) : Reg :=
  match b.toNat with
  | 0 => .r0
  | 1 => .r1
  | 2 => .r2
  | 3 => .r3
  | 4 => .r4
  | 5 => .r5
  | 6 => .r6
  | _ => .r7

/-- The 3-bit number of a register (R62). -/
def Reg.toBits : Reg → BitVec 3
  | .r0 => 0#3
  | .r1 => 1#3
  | .r2 => 2#3
  | .r3 => 3#3
  | .r4 => 4#3
  | .r5 => 5#3
  | .r6 => 6#3
  | .r7 => 7#3

/-- The opcode, w[15:12] (R61). -/
def opcodeOf (w : Word) : BitVec 4 := w.extractLsb' 12 4

/-- DR or SR, w[11:9] (R62). -/
def fieldDR (w : Word) : Reg := .ofBits (w.extractLsb' 9 3)

/-- SR1 or BaseR, w[8:6] (R62). -/
def fieldSR1 (w : Word) : Reg := .ofBits (w.extractLsb' 6 3)

/-- SR2, w[2:0] (R62). -/
def fieldSR2 (w : Word) : Reg := .ofBits (w.extractLsb' 0 3)

/-- The branch mask, w[11:9] (R66). -/
def fieldMask (w : Word) : BitVec 3 := w.extractLsb' 9 3

/-- imm5, sign-extended (R63). -/
def fieldImm5 (w : Word) : Word := sext (w.extractLsb' 0 5)

/-- offset6, sign-extended (R63). -/
def fieldOffset6 (w : Word) : Word := sext (w.extractLsb' 0 6)

/-- PCoffset9, sign-extended (R63). -/
def fieldPCoffset9 (w : Word) : Word := sext (w.extractLsb' 0 9)

/-- PCoffset11, sign-extended (R63). -/
def fieldPCoffset11 (w : Word) : Word := sext (w.extractLsb' 0 11)

/-- trapvect8, w[7:0], not extended (R63). -/
def fieldVector (w : Word) : Byte := w.extractLsb' 0 8

/-- The mode bit of ADD and AND, w[5] (R64). -/
def immediateMode (w : Word) : Bool := w.getLsbD 5

/-- The form bit of opcode 4, w[11] (R64). -/
def longForm (w : Word) : Bool := w.getLsbD 11

/-- The routine a TRAP vector names (R68); a vector outside 0x20..0x25 names none. -/
def decodeTrap (v : Byte) : Instr :=
  match v.toNat with
  | 0x20 => .trapGetc
  | 0x21 => .trapOut
  | 0x22 => .trapPuts
  | 0x23 => .trapIn
  | 0x24 => .trapPutsp
  | 0x25 => .trapHalt
  | _ => .trapUndefinedVector v

/-- JMP by its base; BaseR = 7 is the table's row RET (R74, R112). -/
def decodeJmp (base : Reg) : Instr :=
  if base = .r7 then .ret else .jmp base

/-- The row of the opcode table that a word belongs to, with its operands (R65, R71): total on words. -/
def decodeWord (w : Word) : Instr :=
  match (opcodeOf w).toNat with
  | 0x0 => .br (fieldMask w) (fieldPCoffset9 w)
  | 0x1 => if immediateMode w then .addImm (fieldDR w) (fieldSR1 w) (fieldImm5 w)
      else .addReg (fieldDR w) (fieldSR1 w) (fieldSR2 w)
  | 0x2 => .ld (fieldDR w) (fieldPCoffset9 w)
  | 0x3 => .st (fieldDR w) (fieldPCoffset9 w)
  | 0x4 => if longForm w then .jsr (fieldPCoffset11 w) else .jsrr (fieldSR1 w)
  | 0x5 => if immediateMode w then .andImm (fieldDR w) (fieldSR1 w) (fieldImm5 w)
      else .andReg (fieldDR w) (fieldSR1 w) (fieldSR2 w)
  | 0x6 => .ldr (fieldDR w) (fieldSR1 w) (fieldOffset6 w)
  | 0x7 => .str (fieldDR w) (fieldSR1 w) (fieldOffset6 w)
  | 0x8 => .rti (w.extractLsb' 0 12)
  | 0x9 => .not (fieldDR w) (fieldSR1 w)
  | 0xA => .ldi (fieldDR w) (fieldPCoffset9 w)
  | 0xB => .sti (fieldDR w) (fieldPCoffset9 w)
  | 0xC => decodeJmp (fieldSR1 w)
  | 0xD => .res (w.extractLsb' 0 12)
  | 0xE => .lea (fieldDR w) (fieldPCoffset9 w)
  | _ => decodeTrap (fieldVector w)

/-- The decoder's answer (R71): an instruction, or `UnknownTrapRoutine` for a vector that names no routine (R68, R147),
the only decode error a word can produce. -/
def decode (w : Word) : Except RunError Instr :=
  match decodeWord w with
  | .trapUndefinedVector v => .error (.unknownTrapRoutine v)
  | i => .ok i

/-- The word of an instruction, its don't-care bits 0 (R65, R72). -/
def encode : Instr → Word
  | .br mask off => 0x0#4 ++ mask ++ off.setWidth 9
  | .addReg dr sr1 sr2 => 0x1#4 ++ dr.toBits ++ sr1.toBits ++ 0#1 ++ 0#2 ++ sr2.toBits
  | .addImm dr sr1 imm => 0x1#4 ++ dr.toBits ++ sr1.toBits ++ 1#1 ++ imm.setWidth 5
  | .ld dr off => 0x2#4 ++ dr.toBits ++ off.setWidth 9
  | .st sr off => 0x3#4 ++ sr.toBits ++ off.setWidth 9
  | .jsrr base => 0x4#4 ++ 0#1 ++ 0#2 ++ base.toBits ++ 0#6
  | .jsr off => 0x4#4 ++ 1#1 ++ off.setWidth 11
  | .andReg dr sr1 sr2 => 0x5#4 ++ dr.toBits ++ sr1.toBits ++ 0#1 ++ 0#2 ++ sr2.toBits
  | .andImm dr sr1 imm => 0x5#4 ++ dr.toBits ++ sr1.toBits ++ 1#1 ++ imm.setWidth 5
  | .ldr dr base off => 0x6#4 ++ dr.toBits ++ base.toBits ++ off.setWidth 6
  | .str sr base off => 0x7#4 ++ sr.toBits ++ base.toBits ++ off.setWidth 6
  | .rti low => 0x8#4 ++ low
  | .not dr sr1 => 0x9#4 ++ dr.toBits ++ sr1.toBits ++ 0#6
  | .ldi dr off => 0xA#4 ++ dr.toBits ++ off.setWidth 9
  | .sti sr off => 0xB#4 ++ sr.toBits ++ off.setWidth 9
  | .jmp base => 0xC#4 ++ 0#3 ++ base.toBits ++ 0#6
  | .ret => 0xC#4 ++ 0#3 ++ 7#3 ++ 0#6
  | .res low => 0xD#4 ++ low
  | .lea dr off => 0xE#4 ++ dr.toBits ++ off.setWidth 9
  | .trapGetc => 0xF#4 ++ 0#4 ++ 0x20#8
  | .trapOut => 0xF#4 ++ 0#4 ++ 0x21#8
  | .trapPuts => 0xF#4 ++ 0#4 ++ 0x22#8
  | .trapIn => 0xF#4 ++ 0#4 ++ 0x23#8
  | .trapPutsp => 0xF#4 ++ 0#4 ++ 0x24#8
  | .trapHalt => 0xF#4 ++ 0#4 ++ 0x25#8
  | .trapUndefinedVector v => 0xF#4 ++ 0#4 ++ v

/-- The bits of a word that the decoder reads into its answer (R67: the others are don't-care bits). The reserved rows
keep every bit, since the error records the whole word (R160, R161). -/
def careMask (w : Word) : Word :=
  match (opcodeOf w).toNat with
  | 0x1 => if immediateMode w then 0xFFFF#16 else 0xFFE7#16
  | 0x4 => if longForm w then 0xFFFF#16 else 0xF9C0#16
  | 0x5 => if immediateMode w then 0xFFFF#16 else 0xFFE7#16
  | 0x9 => 0xFFC0#16
  | 0xC => 0xF1C0#16
  | 0xF => 0xF0FF#16
  | _ => 0xFFFF#16

/-- The word a table row's number stands for: `nbits` bits of `w`, the rest 0. -/
def tableWord (nbits w : Nat) : Word := BitVec.ofNat 16 (w % 2 ^ nbits)

/-- The opcode-table row that the decoder reads from a word given as the table numbers its bits (one 16-bit word, R60).
Every word belongs to a row; the row of an undefined vector is the decoder's rejection (`decode` answers its error). -/
def decodeTableWord (nbits w : Nat) : Option Instr := some (decodeWord (tableWord nbits w))

end Sys2Proof
end

