-- ==== Sys2Proof/Config.lean ====
section
/-! DEFINITION. What is fixed for one machine: the fixed parameters (00_scope.md R5), the named parameters the spec
leaves open (R6) and the free values. -/

namespace Sys2Proof.Config

/-- The reset program counter, the fixed entry point (R5, R35, R191). -/
def resetPC : Word := 0x3000#16

/-- KBSR, the keyboard status register's address (R5, R43). -/
def kbsr : Word := 0xFE00#16

/-- KBDR, the keyboard data register's address (R5, R43). -/
def kbdr : Word := 0xFE02#16

/-- The maximum address: the run ends when the program counter holds it at a fetch (R5, R91). -/
def maxAddress : Word := 0xFFFF#16

/-- The number of memory words (R5, R40). -/
def memorySize : Nat := 65536

/-- What an address that memory does not list reads as. DESIGN CHOICE (unsafe), log entry 1: the spec leaves the words
the loader does not write open (`MEM_INIT`, R35, D12). Any other `MEM_INIT` is a memory listing its words. -/
def unlistedWord : Word := 0#16

/-- The values of `KBSR_POLL_BYTES` (R6, R48): how many input bytes a ready keyboard poll consumes. -/
inductive PollBytes where
  | one
  | two
  deriving DecidableEq, Repr

/-- The spec's named parameters (R6) other than `MEM_INIT`; they are plain data in the state, fixed for a run, so a
statement about every state holds for every value of each. -/
structure Params where
  /-- `KBSR_POLL_BYTES` (D7), the spec's default 1. -/
  kbsrPollBytes : PollBytes := .one
  /-- `PUTSP_SKIP_ZERO_HIGH` (D18), OPEN in the spec; the value here is the model's DESIGN CHOICE, log entry 2. -/
  putspSkipZeroHigh : Bool := false
  /-- `TRAP_READ_SETS_CC` (D16), the spec's default false. -/
  trapReadSetsCC : Bool := false
  /-- `JSRR_READ_BEFORE_LINK` (D17), the spec's default false. -/
  jsrrReadBeforeLink : Bool := false
  deriving DecidableEq, Repr

/-- A FREE VALUE (R48, 93_implementation_defined.md: "any value (one of the two bytes)"), log entry 3: with
`KBSR_POLL_BYTES = 2`, whether the poll made at input position `n` keeps the second of its two bytes in KBDR. -/
opaque pollKeepsSecond (n : Nat) : Bool

/-- A FREE VALUE (00_scope.md R13: the host's draws), log entry 5: the byte at position `n` of an input stream that never
ends. -/
opaque inputByte (n : Nat) : Byte

/-- A FREE VALUE (R13, 20_memory.md R44), log entry 5: whether the `n`-th poll of a host that goes on drawing finds data. -/
opaque pollReady (n : Nat) : Bool

end Sys2Proof.Config
end

