-- ==== Sys2Proof/Machine/State.lean ====
section
/-! DEFINITION. The machine's state (10_state.md R20-R35) as plain data, the reasons a step can stop, and reset. -/

namespace Sys2Proof.Machine

/-- The eight general registers (R20, R21). `PC` and `COND`, the other two slots of the register file, are fields of
`State`. -/
structure Regs where
  r0 : Word
  r1 : Word
  r2 : Word
  r3 : Word
  r4 : Word
  r5 : Word
  r6 : Word
  r7 : Word
  deriving DecidableEq, Repr

/-- Memory (R32, R40): the words that differ from `Config.unlistedWord`, by word address, addresses rising. The cell is
the 16-bit word, the only datum size there is (R49, R51); log entry 4. -/
abbrev Memory := List (Nat × Word)

/-- The run status (R31). -/
inductive RunStatus where
  | running
  | halted
  | limitReached
  | aborted (e : RunError)
  deriving DecidableEq, Repr

/-- The trap unit's progress inside one TRAP instruction (R33, R148): `none` between instructions. -/
inductive TrapProgress where
  /-- PUTS, with the address of the next string word. -/
  | puts (next : Word)
  /-- PUTSP, with the address of the next string word. -/
  | putsp (next : Word)
  /-- IN has flushed and waits for the host's byte (R58, R97, R144). -/
  | reading
  deriving DecidableEq, Repr

/-- An event of the output log (R33, R34). -/
inductive OutEvent where
  | write (b : Byte)
  | flush
  deriving DecidableEq, Repr

/-- What a read meets after the listed bytes of the input stream (R13, R97): no answer, the end, a failure, or a stream that
never ends, whose bytes are the free values `Config.inputByte`. -/
inductive InputEnd where
  | waiting
  | eof
  | fail
  | free
  deriving DecidableEq, Repr

/-- Whether a keyboard poll finds data, or fails (R13), or has no answer (R97). -/
inductive PollSignal where
  | ready
  | notReady
  | fail
  | waiting
  deriving DecidableEq, Repr

/-- What the polls after the listed signals find: data exactly when the stream has a byte, or the free values
`Config.pollReady`. -/
inductive PollsEnd where
  | whenByte
  | free
  deriving DecidableEq, Repr

/-- The host's answer to a write or a flush (R13). -/
inductive OutAnswer where
  | ok
  | fail
  deriving DecidableEq, Repr

/-- The host's answers to come (R13: "draws chosen by the host"), as plain data that the step consumes; log entry 5. Any
answers of a host, without end too, are those of some script: a list, and after it what its end says. A statement about
every state holds for every choice of them. -/
structure HostScript where
  /-- The listed bytes of the input stream that are not consumed yet, one stream for GETC, IN and the poll (R44). -/
  input : List Byte := []
  /-- What a read meets after them. -/
  inputEnd : InputEnd := .free
  /-- The next polls' signals. -/
  polls : List PollSignal := []
  /-- What the polls after them find. -/
  pollsEnd : PollsEnd := .free
  /-- How many polls have been answered, the counter that `Config.pollReady` is applied to. -/
  pollCount : Nat := 0
  /-- The next writes' answers; after them a write succeeds. -/
  writes : List OutAnswer := []
  /-- The next flushes' answers; after them a flush succeeds. -/
  flushes : List OutAnswer := []
  deriving DecidableEq, Repr

/-- Everything the machine holds. -/
structure State where
  /-- `R0`..`R7` (R21). -/
  regs : Regs
  /-- `PC` (R23). -/
  pc : Word
  /-- `COND`, the condition flags in a 16-bit word (R25). -/
  cond : Word
  /-- `M` (R32), KBSR and KBDR among its words (R43). -/
  mem : Memory
  /-- The sequencer's run status (R31). -/
  status : RunStatus
  /-- The trap unit's progress (R33). -/
  trap : Option TrapProgress
  /-- The input position: how many input bytes the core has consumed (R33). -/
  inputPos : Nat
  /-- The output log, oldest event first (R33, R34). -/
  output : List OutEvent
  /-- The model's own: the host's answers to come (R13). -/
  host : HostScript
  /-- The model's own: the machine's parameters (R6), which no step changes. -/
  params : Config.Params
  deriving DecidableEq, Repr

/-- Why a machine has no next step: its run has ended (R31: final; R174: "no further step"), or it waits for the host (R97).
Safe: nothing can be proved of a step the hardware does not take. -/
inductive Fault where
  /-- The status is `Halted` (R95, R184). Raised by `step`; safe. -/
  | halted
  /-- The status is `LimitReached` (R91). Raised by `step`; safe. -/
  | limitReached
  /-- The status is `Aborted(e)` (R174, R175). Raised by `step`; safe. -/
  | aborted (e : RunError)
  /-- Stuck (R97): the host has not answered a read or a poll, so this step has no successor. No error: the status stays
  `Running`. Raised by GETC, IN after its flush, and every instruction, fetch or micro-step that reads KBSR; safe. -/
  | waiting
  deriving DecidableEq, Repr

/-- Why an instruction has no meaning. -/
inductive Refusal where
  /-- The arm of `exec` is not written yet. Raised by `exec`'s refused arms, of which there are none; safe. -/
  | notModelled (mnemonic : String)
  deriving DecidableEq, Repr

/-- What an instruction or a step answers. -/
abbrev Result := Host.Outcome State Fault Refusal

/-- Machine creation (R35, R190) for any parameters, any `MEM_INIT` and any host. -/
def State.create (params : Config.Params) (memInit : Memory) (host : HostScript) : State where
  regs := ⟨0#16, 0#16, 0#16, 0#16, 0#16, 0#16, 0#16, 0#16⟩
  pc := Config.resetPC
  cond := 0#16
  mem := memInit
  status := .running
  trap := none
  inputPos := 0
  output := []
  host := host
  params := params

/-- The machine right after reset (R35): creation with the spec's default parameters (R6). What the spec leaves open is
the model's DESIGN CHOICE here: no memory word listed (log entry 1), `PUTSP_SKIP_ZERO_HIGH` false (log entry 2), and a host
whose input bytes and polls are free values and that lets every output succeed (log entry 5). -/
def State.reset : State := State.create {} [] {}

end Sys2Proof.Machine
end

