-- ==== Sys2Proof/Machine/Ops.lean ====
section
/-! DEFINITION. The named operations over registers, memory, the keyboard and the host (00_scope.md R11-R14, 20_memory.md
R41-R48), and ending the run with an error (60_exceptions.md R174), the hardware's only exception. There is no return from
one (R175) and no trap return (R178). -/

namespace Sys2Proof.Machine

/-! ### Bytes and words -/

/-- `zext16(b)`: an input byte as a word (R9). -/
def zext16 (b : Byte) : Word := b.setWidth 16

/-- `lo8(w)`, w[7:0] (R9). -/
def lo8 (w : Word) : Byte := w.extractLsb' 0 8

/-- `hi8(w)`, w[15:8] (R9). -/
def hi8 (w : Word) : Byte := w.extractLsb' 8 8

/-! ### Registers -/

/-- Reads general register `r` (R11, R21). -/
def Regs.get (g : Regs) : Reg → Word
  | .r0 => g.r0
  | .r1 => g.r1
  | .r2 => g.r2
  | .r3 => g.r3
  | .r4 => g.r4
  | .r5 => g.r5
  | .r6 => g.r6
  | .r7 => g.r7

/-- Writes general register `r` (R11, R21). -/
def Regs.set (g : Regs) (r : Reg) (v : Word) : Regs :=
  match r with
  | .r0 => { g with r0 := v }
  | .r1 => { g with r1 := v }
  | .r2 => { g with r2 := v }
  | .r3 => { g with r3 := v }
  | .r4 => { g with r4 := v }
  | .r5 => { g with r5 := v }
  | .r6 => { g with r6 := v }
  | .r7 => { g with r7 := v }

/-- `R[r]` (R11). -/
def State.reg (s : State) (r : Reg) : Word := s.regs.get r

/-- `R[r] <- v` (R11). -/
def State.setReg (s : State) (r : Reg) (v : Word) : State := { s with regs := s.regs.set r v }

/-- `pc <- t` (R11). -/
def State.setPC (s : State) (t : Word) : State := { s with pc := t }

/-! ### Memory -/

/-- The stored word at an address: the listed word, or what an unlisted address reads as. -/
def Memory.read : Memory → Nat → Word
  | [], _ => Config.unlistedWord
  | (k, v) :: rest, a => if k = a then v else Memory.read rest a

/-- Memory without the entry of an address. -/
def Memory.erase (m : Memory) (a : Nat) : Memory := m.filter (fun c => c.1 != a)

/-- Memory with an entry put before the first one of a greater address. -/
def Memory.insert : Memory → Nat → Word → Memory
  | [], a, v => [(a, v)]
  | (k, x) :: rest, a, v => if a < k then (a, v) :: (k, x) :: rest else (k, x) :: Memory.insert rest a v

/-- Stores a word (R42), keeping the canonical form. -/
def Memory.write (m : Memory) (a : Nat) (v : Word) : Memory :=
  if v = Config.unlistedWord then m.erase a else (m.erase a).insert a v

/-- The canonical form: addresses strictly rising and within the address space (R40), no entry equal to what an unlisted
address reads as. -/
abbrev Memory.wf (m : Memory) : Prop :=
  m.Pairwise (fun c d => c.1 < d.1) ∧ ∀ c ∈ m, c.1 < Config.memorySize ∧ c.2 ≠ Config.unlistedWord

/-- `M[a]`: the stored word, without any side effect (R12). -/
def State.cell (s : State) (a : Word) : Word := s.mem.read a.toNat

/-- `MemWrite(a, v)` (R42, R46): a plain store at every address, KBSR and KBDR among them. -/
def State.memWrite (s : State) (a v : Word) : State := { s with mem := s.mem.write a.toNat v }

/-! ### Errors -/

/-- `raise Abort(e)` (R14, R174, R175): the run ends with the state as it is; no register, flag, memory word or log event
changes and control goes to no handler. A trap routine that was running is over. -/
def raiseAbort (e : RunError) (s : State) : Result :=
  .next { s with status := .aborted e, trap := none }

/-- Why an operation does not go on: an error (R14), or the host has not answered (R97). -/
inductive Stop where
  | abort (e : RunError)
  | wait
  deriving DecidableEq, Repr

/-- The outcome of a step whose operation does not go on: the end of the run, or no successor. -/
def stopWith (x : Stop) (s : State) : Result :=
  match x with
  | .abort e => raiseAbort e s
  | .wait => .fault .waiting

/-- Goes on with what an operation gives, or stops in state `s` (R97, R174, R176). -/
def orStop {α : Type} (s : State) (r : Except Stop α) (k : α → Result) : Result :=
  match r with
  | .error x => stopWith x s
  | .ok a => k a

/-! ### The host's input (R13) -/

/-- The answers of `HostReadByte` (R13); `waiting` is no answer (R97). -/
inductive ReadAnswer where
  | byte (b : Byte)
  | eof
  | fail
  | waiting
  deriving DecidableEq, Repr

/-- What the input stream holds `k` bytes ahead: a listed byte, or what its end says. -/
def State.byteAt (s : State) (k : Nat) : ReadAnswer :=
  match s.host.input[k]?, s.host.inputEnd with
  | some b, _ => .byte b
  | none, .waiting => .waiting
  | none, .eof => .eof
  | none, .fail => .fail
  | none, .free => .byte (Config.inputByte (s.inputPos + k))

/-- The input stream after `n` of its bytes are consumed. -/
def State.consume (s : State) (n : Nat) : State :=
  { s with host := { s.host with input := s.host.input.drop n }, inputPos := s.inputPos + n }

/-- `HostReadByte()` (R13): the next byte of the stream and the state with it consumed, or the stream's end. -/
def hostReadByte (s : State) : ReadAnswer × State :=
  match s.byteAt 0 with
  | .byte b => (.byte b, s.consume 1)
  | .eof => (.eof, s)
  | .fail => (.fail, s)
  | .waiting => (.waiting, s)

/-- The answers of `HostPoll` (R13); `waiting` is no answer (R97). -/
inductive PollAnswer where
  | ready (b : Byte)
  | notReady
  | fail
  | waiting
  deriving DecidableEq, Repr

/-- The host's signal for the next poll. -/
def State.pollSignal (s : State) : PollSignal :=
  match s.host.polls, s.host.pollsEnd with
  | p :: _, _ => p
  | [], .whenByte => .ready
  | [], .free => if Config.pollReady s.host.pollCount then .ready else .notReady

/-- The state with the next poll's signal used up. -/
def State.dropPoll (s : State) : State :=
  { s with host := { s.host with polls := s.host.polls.tail, pollCount := s.host.pollCount + 1 } }

/-- Which of the two bytes of a two-byte poll reaches KBDR: a free value limited to the two (R48), log entry 3. -/
def keptByte (n : Nat) (b1 b2 : Byte) : Byte := if Config.pollKeepsSecond n then b2 else b1

/-- `HostPoll()` (R13, R44, R48): ready takes its one or two bytes from the input stream. A ready signal with no byte in the
stream is not ready (log entry 5). In the two-byte form the second byte is a read of the stream: it waits while the host has
not answered, and fails (a short read, R173) when the stream has ended (log entry 6). -/
def hostPoll (s : State) : PollAnswer × State :=
  match s.pollSignal with
  | .fail => (.fail, s)
  | .waiting => (.waiting, s)
  | .notReady => (.notReady, s.dropPoll)
  | .ready =>
    match s.byteAt 0, s.params.kbsrPollBytes with
    | .byte b, .one => (.ready b, s.dropPoll.consume 1)
    | .byte b1, .two =>
      match s.byteAt 1 with
      | .byte b2 => (.ready (keptByte s.inputPos b1 b2), s.dropPoll.consume 2)
      | .waiting => (.waiting, s)
      | .eof => (.fail, s)
      | .fail => (.fail, s)
    | .eof, _ => (.notReady, s.dropPoll)
    | .fail, _ => (.notReady, s.dropPoll)
    | .waiting, _ => (.notReady, s.dropPoll)

/-! ### Reading memory (R41) and the keyboard (R44) -/

/-- `KeyboardPoll()` (R44): KBSR gets 0x8000 and KBDR the byte, or KBSR gets 0, or the poll fails; a poll may also
have no answer (R97). -/
def keyboardPoll (s : State) : Except Stop State :=
  match hostPoll s with
  | (.ready b, s1) => .ok ((s1.memWrite Config.kbsr 0x8000#16).memWrite Config.kbdr (zext16 b))
  | (.notReady, s1) => .ok (s1.memWrite Config.kbsr 0#16)
  | (.fail, _) => .error (.abort (.ioError .poll))
  | (.waiting, _) => .error .wait

/-- `MemRead(a)` (R41, R47): a read of exactly 0xFE00 polls the keyboard first, whoever reads. -/
def memRead (a : Word) (s : State) : Except Stop (Word × State) :=
  if a = Config.kbsr then
    match keyboardPoll s with
    | .error x => .error x
    | .ok s1 => .ok (s1.cell a, s1)
  else .ok (s.cell a, s)

/-! ### The host's output (R13, R34) -/

/-- The state after a write that succeeds: the log gains `Write(b)` and the host's answer is used up. -/
def State.afterWrite (s : State) (b : Byte) : State :=
  { s with output := s.output ++ [.write b], host := { s.host with writes := s.host.writes.tail } }

/-- The state after a flush that succeeds: the log gains `Flush` and the host's answer is used up. -/
def State.afterFlush (s : State) : State :=
  { s with output := s.output ++ [.flush], host := { s.host with flushes := s.host.flushes.tail } }

/-- `HostWrite(b)` (R13). A failed write logs nothing. -/
def hostWrite (b : Byte) (s : State) : Except Stop State :=
  match s.host.writes.headD .ok with
  | .fail => .error (.abort (.ioError .write))
  | .ok => .ok (s.afterWrite b)

/-- `HostFlush()` (R13). A failed flush logs nothing. -/
def hostFlush (s : State) : Except Stop State :=
  match s.host.flushes.headD .ok with
  | .fail => .error (.abort (.ioError .flush))
  | .ok => .ok s.afterFlush

end Sys2Proof.Machine
end

