-- ==== Sys2Proof/Machine/Operands.lean ====
section
/-! DEFINITION. The operand forms: the three addressing modes (43_load_store.md: PC-relative, indirect, base+offset).
Every address wraps modulo 2^16 (00_scope.md R10). -/

namespace Sys2Proof.Machine

/-- The PC-relative address, from the incremented program counter (R15). -/
def pcRelative (off : Word) (s : State) : Word := s.pc + off

/-- The base+offset address; no mode changes the base register. -/
def baseOffset (base : Reg) (off : Word) (s : State) : Word := s.reg base + off

/-- The indirect address: the word read at the PC-relative address, and the state after that read, which polls when the
pointer cell is KBSR (R47). -/
def indirect (off : Word) (s : State) : Except Stop (Word × State) := memRead (pcRelative off s) s

end Sys2Proof.Machine
end

