-- ==== Sys2Proof/Machine/Flags.lean ====
section
/-! DEFINITION. The condition flags (10_state.md R25-R29): one computation, run on the destination register after it is
written. -/

namespace Sys2Proof.Machine

/-- Positive (R25). -/
def condP : Word := 0x0001#16

/-- Zero (R25, D2). -/
def condZ : Word := 0x0002#16

/-- Negative (R25, D2). -/
def condN : Word := 0x0004#16

/-- The flags of a value (R26). -/
def condOf (v : Word) : Word :=
  if v = 0#16 then condZ else if v.getLsbD 15 then condN else condP

/-- `SetCC(R[r])`, the source's `update_flags(register)` (R26): it inspects the register's current value. -/
def updateFlags (r : Reg) (s : State) : State := { s with cond := condOf (s.reg r) }

/-- `R[dr] <- v`, then `SetCC(R[dr])`: the end of every instruction that defines a result register (R27). -/
def writeResult (dr : Reg) (v : Word) (s : State) : State := updateFlags dr (s.setReg dr v)

/-- Whether a branch mask selects a flag that is set (R66, R110). -/
def maskMatches (mask : BitVec 3) (s : State) : Bool := (mask.setWidth 16 &&& s.cond) != 0#16

end Sys2Proof.Machine
end

