-- ==== Sys2Proof/Machine/Control.lean ====
section
/-! DEFINITION. BR, JMP, RET, JSR, JSRR (42_control.md R110-R115). The program counter is the incremented one (R15), and
none of them writes the flags. -/

namespace Sys2Proof.Machine

/-- BR (R110). -/
def execBr (mask : BitVec 3) (off : Word) (s : State) : Result :=
  .next (if maskMatches mask s then s.setPC (pcRelative off s) else s)

/-- `pc <- R[base]` (R111). -/
def jumpTo (base : Reg) (s : State) : State := s.setPC (s.reg base)

/-- JMP (R111). -/
def execJmp (base : Reg) (s : State) : Result := .next (jumpTo base s)

/-- RET (R112): JMP with BaseR = 7. -/
def execRet (s : State) : Result := .next (jumpTo .r7 s)

/-- `R[7] <- PC`, without the flags (R113). -/
def link (s : State) : State := s.setReg .r7 s.pc

/-- JSR (R114). -/
def execJsr (off : Word) (s : State) : Result := .next ((link s).setPC (pcRelative off s))

/-- JSRR (R115): the base is read after the link is written, or before it under `JSRR_READ_BEFORE_LINK`. -/
def execJsrr (base : Reg) (s : State) : Result :=
  .next (if s.params.jsrrReadBeforeLink then (link s).setPC (s.reg base) else jumpTo base (link s))

end Sys2Proof.Machine
end

