-- ==== Sys2Proof/Machine/LoadStore.lean ====
section
/-! DEFINITION. LD, LDI, LDR, LEA, ST, STI, STR (43_load_store.md R120-R126). A failed poll ends the run with the
destination and the flags unwritten (R174), and a poll without an answer leaves the step without a successor (R97). -/

namespace Sys2Proof.Machine

/-- `R[dr] <- MemRead(ea)` and the flags: the end of every load (R120-R122). -/
def loadResult (dr : Reg) (ea : Word) (s : State) : Result :=
  orStop s (memRead ea s) fun x => .next (writeResult dr x.1 x.2)

/-- LD (R120). -/
def execLd (dr : Reg) (off : Word) (s : State) : Result := loadResult dr (pcRelative off s) s

/-- LDI (R121): the pointer read, then the data read, either of which may poll. -/
def execLdi (dr : Reg) (off : Word) (s : State) : Result :=
  orStop s (indirect off s) fun x => loadResult dr x.1 x.2

/-- LDR (R122). -/
def execLdr (dr base : Reg) (off : Word) (s : State) : Result := loadResult dr (baseOffset base off s) s

/-- LEA (R123): no memory access. -/
def execLea (dr : Reg) (off : Word) (s : State) : Result := .next (writeResult dr (pcRelative off s) s)

/-- ST (R124). -/
def execSt (sr : Reg) (off : Word) (s : State) : Result := .next (s.memWrite (pcRelative off s) (s.reg sr))

/-- STI (R125): the pointer read may poll, the store never does. -/
def execSti (sr : Reg) (off : Word) (s : State) : Result :=
  orStop s (indirect off s) fun x => .next (x.2.memWrite x.1 (x.2.reg sr))

/-- STR (R126). -/
def execStr (sr base : Reg) (off : Word) (s : State) : Result :=
  .next (s.memWrite (baseOffset base off s) (s.reg sr))

end Sys2Proof.Machine
end

