-- ==== Sys2Proof/Machine/Operate.lean ====
section
/-! DEFINITION. ADD, AND, NOT (41_operate.md R100-R104). -/

namespace Sys2Proof.Machine

/-- ADD, register mode (R100). -/
def execAddReg (dr sr1 sr2 : Reg) (s : State) : Result :=
  .next (writeResult dr (s.reg sr1 + s.reg sr2) s)

/-- ADD, immediate mode (R101). -/
def execAddImm (dr sr1 : Reg) (imm : Word) (s : State) : Result :=
  .next (writeResult dr (s.reg sr1 + imm) s)

/-- AND, register mode (R102). -/
def execAndReg (dr sr1 sr2 : Reg) (s : State) : Result :=
  .next (writeResult dr (s.reg sr1 &&& s.reg sr2) s)

/-- AND, immediate mode (R103). -/
def execAndImm (dr sr1 : Reg) (imm : Word) (s : State) : Result :=
  .next (writeResult dr (s.reg sr1 &&& imm) s)

/-- NOT (R104). -/
def execNot (dr sr1 : Reg) (s : State) : Result :=
  .next (writeResult dr (~~~ s.reg sr1) s)

end Sys2Proof.Machine
end

