-- ==== Sys2Proof/Machine/Reserved.lean ====
section
/-! DEFINITION. The reserved opcodes (45_reserved.md R160, R161): they decode, and executing one ends the run with the
whole fetched word recorded. -/

namespace Sys2Proof.Machine

/-- RTI (R160). -/
def execRti (low : BitVec 12) (s : State) : Result := raiseAbort (.reservedOpcode (0x8#4 ++ low)) s

/-- RES (R161). -/
def execRes (low : BitVec 12) (s : State) : Result := raiseAbort (.reservedOpcode (0xD#4 ++ low)) s

end Sys2Proof.Machine
end

