-- ==== Sys2Proof/Machine/Trap.lean ====
section
/-! DEFINITION. TRAP and its six routines (44_trap.md R140-R148). They run inside the core: no vector table, no link, and
`PC` stays the incremented one (R140, R178). -/

namespace Sys2Proof.Machine

/-- The state after an input byte arrives in `R0` (R141, R144), with the flags under `TRAP_READ_SETS_CC`. -/
def takeByte (b : Byte) (s : State) : State :=
  let s1 := State.setReg { s with trap := none } .r0 (zext16 b)
  if s.params.trapReadSetsCC then updateFlags .r0 s1 else s1

/-- The blocking read of GETC and IN (R141, R144). While the host has not answered, the step has no successor (R97). -/
def readStep (s : State) : Result :=
  match hostReadByte s with
  | (.byte b, s1) => .next (takeByte b s1)
  | (.eof, _) => raiseAbort (.ioError .eof) s
  | (.fail, _) => raiseAbort (.ioError .read) s
  | (.waiting, _) => .fault .waiting

/-- GETC (R141). -/
def execTrapGetc (s : State) : Result := readStep s

/-- OUT (R142). -/
def execTrapOut (s : State) : Result := orStop s (hostWrite (lo8 (s.reg .r0)) s) fun s1 => .next s1

/-- The end of PUTS and PUTSP, at the zero word: the flush, and the routine is over (R143, R145). -/
def finishString (s : State) : Result := orStop s (hostFlush s) fun s1 => .next { s1 with trap := none }

/-- One micro-step of PUTS at address `a` (R143, R148): read a word, write its low byte, go on at the next address. -/
def putsStep (a : Word) (s : State) : Result :=
  orStop s (memRead a s) fun x =>
    if x.1 = 0#16 then finishString x.2
    else orStop x.2 (hostWrite (lo8 x.1) x.2) fun s2 => .next { s2 with trap := some (.puts (a + 1#16)) }

/-- PUTS (R143): its first micro-step; the routine goes on from the trap unit's progress. -/
def execTrapPuts (s : State) : Result := putsStep (s.reg .r0) s

/-- IN (R144): the flush, then the read. If the read has to wait, the flush is done, so that every byte written before is
observable (R58), and the machine is inside the instruction. -/
def execTrapIn (s : State) : Result :=
  orStop s (hostFlush s) fun s1 =>
    match s1.byteAt 0 with
    | .waiting => .next { s1 with trap := some .reading }
    | .byte _ => readStep s1
    | .eof => readStep s1
    | .fail => readStep s1

/-- The high byte of a PUTSP word is left out: it is 0 and `PUTSP_SKIP_ZERO_HIGH` holds (R145). -/
def skipsHigh (c : Word) (s : State) : Bool := s.params.putspSkipZeroHigh && hi8 c == 0#8

/-- One micro-step of PUTSP at address `a` (R145, R148): read a word, write its low byte, then its high byte. -/
def putspStep (a : Word) (s : State) : Result :=
  orStop s (memRead a s) fun x =>
    if x.1 = 0#16 then finishString x.2
    else orStop x.2 (hostWrite (lo8 x.1) x.2) fun s2 =>
      orStop s2 (if skipsHigh x.1 s2 then .ok s2 else hostWrite (hi8 x.1) s2) fun s3 =>
        .next { s3 with trap := some (.putsp (a + 1#16)) }

/-- PUTSP (R145): its first micro-step. -/
def execTrapPutsp (s : State) : Result := putspStep (s.reg .r0) s

/-- HALT (R146). -/
def execTrapHalt (s : State) : Result := orStop s (hostFlush s) fun s1 => .next { s1 with status := .halted }

/-- A TRAP word whose vector names no routine (R147): the run ends with the decoder's error. -/
def execTrapUndefinedVector (v : Byte) (s : State) : Result := raiseAbort (.unknownTrapRoutine v) s

/-- The next micro-step of a routine in progress (R148, R97); nothing is fetched. -/
def resumeTrap (p : TrapProgress) (s : State) : Result :=
  match p with
  | .puts a => putsStep a s
  | .putsp a => putspStep a s
  | .reading => readStep s

end Sys2Proof.Machine
end

