-- ==== Sys2Proof/Machine/Cycle.lean ====
section
/-! DEFINITION. The sequencer's step (40_cycle.md R90-R97) and the placing of a word where the next step fetches. -/

namespace Sys2Proof.Machine

/-- The fetch (R92): the word at `PC` through `MemRead`, then `PC + 1`. A poll that does not go on leaves `PC` as it is. -/
def fetch (s : State) : Except Stop (Word × State) :=
  match memRead s.pc s with
  | .error x => .error x
  | .ok (w, s1) => .ok (w, s1.setPC (s1.pc + 1#16))

/-- Decode and execute (R93, R94): a decode error ends the run after the fetch increment. -/
def runWord (w : Word) (s : State) : Result :=
  match decode w with
  | .error e => raiseAbort e s
  | .ok i => exec i s

/-- Fetch, decode and execute one instruction, after the check of the PC limit (R90, R91). -/
def instructionStep (s : State) : Result :=
  if s.pc = Config.maxAddress then .next { s with status := .limitReached }
  else orStop s (fetch s) fun x => runWord x.1 x.2

/-- `Step()` (R90), or the next micro-step of a trap routine in progress (R148); a run that has ended has no step (R96). -/
def cycle (s : State) : Result :=
  match s.status with
  | .halted => .fault .halted
  | .limitReached => .fault .limitReached
  | .aborted e => .fault (.aborted e)
  | .running =>
    match s.trap with
    | some p => resumeTrap p s
    | none => instructionStep s

/-- Where a word can be placed so that the next fetch takes it: `PC`, or the entry point when `PC` is the address that is
never fetched (R91) or the one whose word a poll replaces (R47). -/
def fetchAddress (s : State) : Word :=
  if s.pc = Config.maxAddress ∨ s.pc = Config.kbsr then Config.resetPC else s.pc

/-- The state with a word stored where its next step fetches, between instructions of a run (log entry 7). -/
def placeWord (s : State) (w : Word) : State :=
  State.memWrite { s with pc := fetchAddress s, status := .running, trap := none } (fetchAddress s) w

end Sys2Proof.Machine
end

