-- ==== Sys2Proof/Machine/Step.lean ====
section
/-! DEFINITION. The step of the machine and the placing of an instruction at its fetch. -/

namespace Sys2Proof.Machine

/-- One step of the core (40_cycle.md R90). -/
def step (s : State) : Host.Outcome State Fault Refusal := cycle s

/-- The state with the opcode table's word `w` of `nbits` bits stored where `step` fetches its next instruction. -/
def State.withFetchWord (s : State) (nbits w : Nat) : State := placeWord s (tableWord nbits w)

end Sys2Proof.Machine
end

