-- ==== Sys2Proof/Machine/Assembler.lean ====
section
/-! DEFINITION. The assembler syntax the spec writes instructions in (30_encoding.md R73, the LC-3's). It names
instructions; the machine does not use it. -/

namespace Sys2Proof.Machine

/-- A register's name. -/
def asmReg : Reg → String
  | .r0 => "R0"
  | .r1 => "R1"
  | .r2 => "R2"
  | .r3 => "R3"
  | .r4 => "R4"
  | .r5 => "R5"
  | .r6 => "R6"
  | .r7 => "R7"

/-- A number: `#` and its signed decimal value (R73: offsets are written as field values). -/
def asmNum (v : Word) : String := "#" ++ toString v.toInt

/-- BR with the suffix letters of its mask; mask 0 is written `BR(none)` (R73). -/
def asmBr (mask : BitVec 3) : String :=
  if mask = 0#3 then "BR(none)"
  else "BR" ++ (if mask.getLsbD 2 then "n" else "") ++ (if mask.getLsbD 1 then "z" else "")
    ++ (if mask.getLsbD 0 then "p" else "")

/-- An instruction in assembler syntax (R73). The reserved RES and the undefined vectors have no syntax there; their words
are written as `.FILL` data. -/
def asm : Instr → String
  | .br mask off => asmBr mask ++ " " ++ asmNum off
  | .addReg dr sr1 sr2 => "ADD " ++ asmReg dr ++ ", " ++ asmReg sr1 ++ ", " ++ asmReg sr2
  | .addImm dr sr1 imm => "ADD " ++ asmReg dr ++ ", " ++ asmReg sr1 ++ ", " ++ asmNum imm
  | .ld dr off => "LD " ++ asmReg dr ++ ", " ++ asmNum off
  | .st sr off => "ST " ++ asmReg sr ++ ", " ++ asmNum off
  | .jsrr base => "JSRR " ++ asmReg base
  | .jsr off => "JSR " ++ asmNum off
  | .andReg dr sr1 sr2 => "AND " ++ asmReg dr ++ ", " ++ asmReg sr1 ++ ", " ++ asmReg sr2
  | .andImm dr sr1 imm => "AND " ++ asmReg dr ++ ", " ++ asmReg sr1 ++ ", " ++ asmNum imm
  | .ldr dr base off => "LDR " ++ asmReg dr ++ ", " ++ asmReg base ++ ", " ++ asmNum off
  | .str sr base off => "STR " ++ asmReg sr ++ ", " ++ asmReg base ++ ", " ++ asmNum off
  | .rti _ => "RTI"
  | .not dr sr1 => "NOT " ++ asmReg dr ++ ", " ++ asmReg sr1
  | .ldi dr off => "LDI " ++ asmReg dr ++ ", " ++ asmNum off
  | .sti sr off => "STI " ++ asmReg sr ++ ", " ++ asmNum off
  | .jmp base => "JMP " ++ asmReg base
  | .ret => "RET"
  | .res low => ".FILL " ++ toString (0xD000 + low.toNat)
  | .lea dr off => "LEA " ++ asmReg dr ++ ", " ++ asmNum off
  | .trapGetc => "TRAP x20"
  | .trapOut => "TRAP x21"
  | .trapPuts => "TRAP x22"
  | .trapIn => "TRAP x23"
  | .trapPutsp => "TRAP x24"
  | .trapHalt => "TRAP x25"
  | .trapUndefinedVector v => ".FILL " ++ toString (0xF000 + v.toNat)

end Sys2Proof.Machine
end

