-- ==== Sys2Proof/Machine/Loader.lean ====
section
/-! DEFINITION. The program image and the loader (70_reset_and_hazards.md R190-R195), which runs once, before the run. -/

namespace Sys2Proof.Machine

/-- The source of a program image: its bytes, and whether reading it fails (R195). -/
structure ImageSource where
  bytes : List Byte
  readFails : Bool := false
  deriving DecidableEq, Repr

/-- Why a load fails; no run starts then (R195). -/
inductive LoadError where
  | short
  | odd
  | overflow
  | io
  deriving DecidableEq, Repr

/-- The word of a big-endian byte pair, `b0 * 256 + b1` (R193). -/
def wordOfBytes (b0 b1 : Byte) : Word := b0 ++ b1

/-- The big-endian words of a byte sequence; none if a byte is left over (R193, R194). -/
def wordsOf : List Byte → Option (List Word)
  | [] => some []
  | [_] => none
  | b0 :: b1 :: rest => (wordsOf rest).map (wordOfBytes b0 b1 :: ·)

/-- Words stored at consecutive addresses; the loader writes memory directly and never polls (R194). -/
def placeWords : Memory → Nat → List Word → Memory
  | m, _, [] => m
  | m, a, w :: ws => placeWords (m.write a w) (a + 1) ws

/-- `Load(bytes)` (R194, R195). -/
def load (src : ImageSource) (m : Memory) : Except LoadError Memory :=
  if src.readFails then .error .io
  else
    match src.bytes with
    | b0 :: b1 :: rest =>
      match wordsOf rest with
      | none => .error .odd
      | some ws =>
        let origin := (wordOfBytes b0 b1).toNat
        if Config.memorySize < origin + ws.length then .error .overflow
        else .ok (placeWords m origin ws)
    | _ => .error .short

/-- A created machine with an image loaded (R190): the load changes memory only, so the run starts at the fixed entry
point whatever the image's origin (R191). -/
def State.loadImage (s : State) (src : ImageSource) : Except LoadError State :=
  match load src s.mem with
  | .error e => .error e
  | .ok m => .ok { s with mem := m }

/-- Steps 1 and 2 of a run (R190): create the machine, load one image. If the load fails, no run starts. -/
def boot (params : Config.Params) (memInit : Memory) (host : HostScript) (src : ImageSource) : Except LoadError State :=
  (State.create params memInit host).loadImage src

end Sys2Proof.Machine
end

