-- ==== Sys2Proof/Safety.lean ====
section
/-! DEFINITION. What counts as a safe run, and the terms the statements are written in. -/

namespace Sys2Proof

/-- The decoded instruction without the don't-care bits that RTI and RES carry for their error (log entry 14). -/
def Instr.withoutLow : Instr → Instr
  | .rti _ => .rti 0#12
  | .res _ => .res 0#12
  | .br mask off => .br mask off
  | .addReg dr a b => .addReg dr a b
  | .addImm dr a v => .addImm dr a v
  | .ld dr off => .ld dr off
  | .st sr off => .st sr off
  | .jsrr b => .jsrr b
  | .jsr off => .jsr off
  | .andReg dr a b => .andReg dr a b
  | .andImm dr a v => .andImm dr a v
  | .ldr dr b off => .ldr dr b off
  | .str sr b off => .str sr b off
  | .not dr a => .not dr a
  | .ldi dr off => .ldi dr off
  | .sti sr off => .sti sr off
  | .jmp b => .jmp b
  | .ret => .ret
  | .lea dr off => .lea dr off
  | .trapGetc => .trapGetc
  | .trapOut => .trapOut
  | .trapPuts => .trapPuts
  | .trapIn => .trapIn
  | .trapPutsp => .trapPutsp
  | .trapHalt => .trapHalt
  | .trapUndefinedVector v => .trapUndefinedVector v

end Sys2Proof

namespace Sys2Proof.Machine

/-! ### Ends of a run -/

/-- A normal end (40_cycle.md R96): `Halted` or `LimitReached`. -/
def RunStatus.normalEnd : RunStatus → Bool
  | .running => false
  | .halted => true
  | .limitReached => true
  | .aborted _ => false

/-- A safe state: no error has ended the run (10_state.md R31: an aborted run is a fault for a claim). -/
def State.safe (s : State) : Prop := ∀ e, s.status ≠ .aborted e

/-- The machine is between two instructions of a run: the next step fetches or ends the run at the PC limit. -/
def State.ready (s : State) : Prop := s.status = .running ∧ s.trap = none

/-- The state after `n` steps, if every one of them is taken. -/
def after : Nat → State → Option State
  | 0, s => some s
  | n + 1, s =>
    match step s with
    | .next t => after n t
    | .fault _ => none
    | .refused _ => none

/-! ### Output (10_state.md R34) -/

/-- The bytes written by a log. -/
def bytesOf : List OutEvent → List Byte
  | [] => []
  | .write b :: es => b :: bytesOf es
  | .flush :: es => bytesOf es

/-- The log up to and with its last `Flush`, the part that is known to be observable. -/
def upToLastFlush (log : List OutEvent) : List OutEvent :=
  (log.reverse.dropWhile (fun e => e != .flush)).reverse

/-- The bytes that PUTSP writes for a string (44_trap.md R145): of each word the low byte and then the high byte, which is
left out when it is 0 and `skip` holds. -/
def putspBytes (skip : Bool) (cs : List Word) : List Byte :=
  (cs.map fun c =>
    if skip = true ∧ c.toNat < 256 then [BitVec.ofNat 8 c.toNat]
    else [BitVec.ofNat 8 c.toNat, BitVec.ofNat 8 (c.toNat / 256)]).flatten

/-! ### The condition flags (10_state.md R25, R26, R29) -/

/-- Exactly one of N, Z, P is set. -/
def oneHot (c : Word) : Prop := c = 0x0001#16 ∨ c = 0x0002#16 ∨ c = 0x0004#16

/-- `c` is what SetCC makes of the value `v` (R26; the values of Z and N are the spec's decision D2). -/
def flagsOf (v c : Word) : Prop :=
  (v = 0x0000#16 → c = 0x0002#16) ∧
  (v ≠ 0x0000#16 → v.getLsbD 15 = true → c = 0x0004#16) ∧
  (v ≠ 0x0000#16 → v.getLsbD 15 = false → c = 0x0001#16)

/-- The instructions that run SetCC on a destination register (R27). -/
def setsFlags : Instr → Bool
  | .addReg _ _ _ => true
  | .addImm _ _ _ => true
  | .andReg _ _ _ => true
  | .andImm _ _ _ => true
  | .not _ _ => true
  | .ld _ _ => true
  | .ldi _ _ => true
  | .ldr _ _ _ => true
  | .lea _ _ => true
  | .br _ _ => false
  | .st _ _ => false
  | .jsrr _ => false
  | .jsr _ => false
  | .str _ _ _ => false
  | .rti _ => false
  | .sti _ _ => false
  | .jmp _ => false
  | .ret => false
  | .res _ => false
  | .trapGetc => false
  | .trapOut => false
  | .trapPuts => false
  | .trapIn => false
  | .trapPutsp => false
  | .trapHalt => false
  | .trapUndefinedVector _ => false

/-- GETC and IN, whose flags are the parameter `TRAP_READ_SETS_CC` (R27). -/
def readsInput : Instr → Bool
  | .trapGetc => true
  | .trapIn => true
  | .br _ _ => false
  | .addReg _ _ _ => false
  | .addImm _ _ _ => false
  | .ld _ _ => false
  | .st _ _ => false
  | .jsrr _ => false
  | .jsr _ => false
  | .andReg _ _ _ => false
  | .andImm _ _ _ => false
  | .ldr _ _ _ => false
  | .str _ _ _ => false
  | .rti _ => false
  | .not _ _ => false
  | .ldi _ _ => false
  | .sti _ _ => false
  | .jmp _ => false
  | .ret => false
  | .res _ => false
  | .lea _ _ => false
  | .trapOut => false
  | .trapPuts => false
  | .trapPutsp => false
  | .trapHalt => false
  | .trapUndefinedVector _ => false

/-! ### What an instruction may write -/

/-- The general register that an instruction writes, by the table of writers (R22). -/
def writtenReg : Instr → Option Reg
  | .addReg dr _ _ => some dr
  | .addImm dr _ _ => some dr
  | .andReg dr _ _ => some dr
  | .andImm dr _ _ => some dr
  | .not dr _ => some dr
  | .ld dr _ => some dr
  | .ldi dr _ => some dr
  | .ldr dr _ _ => some dr
  | .lea dr _ => some dr
  | .jsr _ => some .r7
  | .jsrr _ => some .r7
  | .trapGetc => some .r0
  | .trapIn => some .r0
  | .br _ _ => none
  | .jmp _ => none
  | .ret => none
  | .st _ _ => none
  | .sti _ _ => none
  | .str _ _ _ => none
  | .trapOut => none
  | .trapPuts => none
  | .trapPutsp => none
  | .trapHalt => none
  | .rti _ => none
  | .res _ => none
  | .trapUndefinedVector _ => none

/-- The control transfers, the only instructions that write `PC` (R23). -/
def transfersControl : Instr → Bool
  | .br _ _ => true
  | .jmp _ => true
  | .ret => true
  | .jsr _ => true
  | .jsrr _ => true
  | .addReg _ _ _ => false
  | .addImm _ _ _ => false
  | .ld _ _ => false
  | .st _ _ => false
  | .andReg _ _ _ => false
  | .andImm _ _ _ => false
  | .ldr _ _ _ => false
  | .str _ _ _ => false
  | .rti _ => false
  | .not _ _ => false
  | .ldi _ _ => false
  | .sti _ _ => false
  | .res _ => false
  | .lea _ _ => false
  | .trapGetc => false
  | .trapOut => false
  | .trapPuts => false
  | .trapIn => false
  | .trapPutsp => false
  | .trapHalt => false
  | .trapUndefinedVector _ => false

/-- The address an instruction stores to, computed as its meaning computes it: for STI, from the pointer read. -/
def storeAddress (i : Instr) (s : State) : Option Word :=
  match i with
  | .st _ off => some (pcRelative off s)
  | .str _ base off => some (baseOffset base off s)
  | .sti _ off =>
    match indirect off s with
    | .ok x => some x.1
    | .error _ => none
  | .br _ _ => none
  | .addReg _ _ _ => none
  | .addImm _ _ _ => none
  | .ld _ _ => none
  | .jsrr _ => none
  | .jsr _ => none
  | .andReg _ _ _ => none
  | .andImm _ _ _ => none
  | .ldr _ _ _ => none
  | .rti _ => none
  | .not _ _ => none
  | .ldi _ _ => none
  | .jmp _ => none
  | .ret => none
  | .res _ => none
  | .lea _ _ => none
  | .trapGetc => none
  | .trapOut => none
  | .trapPuts => none
  | .trapIn => none
  | .trapPutsp => none
  | .trapHalt => none
  | .trapUndefinedVector _ => none

/-- The addresses an instruction reads, computed as its meaning computes them: for PUTS and PUTSP, the one of the first
micro-step; for LDI, the pointer cell and the address it holds (a pointer cell at KBSR is listed by itself). -/
def readAddresses (i : Instr) (s : State) : List Word :=
  match i with
  | .ld _ off => [pcRelative off s]
  | .ldr _ base off => [baseOffset base off s]
  | .ldi _ off => [pcRelative off s, s.cell (pcRelative off s)]
  | .sti _ off => [pcRelative off s]
  | .trapPuts => [s.reg .r0]
  | .trapPutsp => [s.reg .r0]
  | .br _ _ => []
  | .addReg _ _ _ => []
  | .addImm _ _ _ => []
  | .st _ _ => []
  | .jsrr _ => []
  | .jsr _ => []
  | .andReg _ _ _ => []
  | .andImm _ _ _ => []
  | .str _ _ _ => []
  | .rti _ => []
  | .not _ _ => []
  | .jmp _ => []
  | .ret => []
  | .res _ => []
  | .lea _ _ => []
  | .trapGetc => []
  | .trapOut => []
  | .trapIn => []
  | .trapHalt => []
  | .trapUndefinedVector _ => []

/-- The address a string routine in progress reads next. -/
def TrapProgress.readAddress : TrapProgress → Option Word
  | .puts a => some a
  | .putsp a => some a
  | .reading => none

/-! ### Frames -/

/-- Every general register and the flags are as before. -/
def sameRegs (s t : State) : Prop := (∀ r, t.reg r = s.reg r) ∧ t.cond = s.cond

/-- Every memory word is as before. -/
def sameMemory (s t : State) : Prop := ∀ a, t.cell a = s.cell a

/-- Every memory word but the one at `a` is as before. -/
def sameMemoryBut (a : Word) (s t : State) : Prop := ∀ b, b ≠ a → t.cell b = s.cell b

/-- The input position, the output log and the host's answers to come are as before. -/
def sameIO (s t : State) : Prop := t.inputPos = s.inputPos ∧ t.output = s.output ∧ t.host = s.host

/-- The run status, the trap unit and the parameters are as before. -/
def sameControl (s t : State) : Prop := t.status = s.status ∧ t.trap = s.trap ∧ t.params = s.params

/-- `t` is `s` but for a result: `R[dr]` holds `v` and the flags are those of `v`; `PC` is as before. -/
def resultOnly (dr : Reg) (v : Word) (s t : State) : Prop :=
  t.reg dr = v ∧ (∀ r, r ≠ dr → t.reg r = s.reg r) ∧ flagsOf v t.cond ∧ t.pc = s.pc ∧
  sameMemory s t ∧ sameIO s t ∧ sameControl s t

/-- `t` is `s` but for `PC`, which holds `a`. -/
def pcOnly (a : Word) (s t : State) : Prop :=
  t.pc = a ∧ sameRegs s t ∧ sameMemory s t ∧ sameIO s t ∧ sameControl s t

/-- `t` is `s` but for the memory word at `a`, which holds `v`. -/
def storeOnly (a v : Word) (s t : State) : Prop :=
  t.cell a = v ∧ sameMemoryBut a s t ∧ t.pc = s.pc ∧ sameRegs s t ∧ sameIO s t ∧ sameControl s t

/-- `t` is `s` but for the run status, `Aborted(e)`, and the trap unit, which is idle (60_exceptions.md R174, R175). -/
def abortOnly (e : RunError) (s t : State) : Prop :=
  t.status = .aborted e ∧ t.trap = none ∧ t.pc = s.pc ∧ sameRegs s t ∧ sameMemory s t ∧ sameIO s t ∧
  t.params = s.params

/-- `t` is `s` but for the output log, which gained `es`, and the answers to writes and flushes that this used up (and the
run status and the trap unit, of which a statement speaks itself). -/
def outputOnly (es : List OutEvent) (s t : State) : Prop :=
  t.output = s.output ++ es ∧ t.pc = s.pc ∧ sameRegs s t ∧ sameMemory s t ∧ t.inputPos = s.inputPos ∧
  t.host = { s.host with writes := t.host.writes, flushes := t.host.flushes } ∧ t.params = s.params

/-- From `s` to `t`, `n` bytes of the input stream were consumed, in order, and the input position counts them (R33, R44). -/
def consumed (n : Nat) (s t : State) : Prop :=
  t.inputPos = s.inputPos + n ∧ (∀ k, t.byteAt k = s.byteAt (n + k)) ∧ ∀ k, k < n → ∃ b, s.byteAt k = .byte b

/-- `t` is `s` but for a keyboard poll: KBSR and KBDR, `n` bytes of the input stream and one answer to a poll. -/
def pollOnly (n : Nat) (s t : State) : Prop :=
  (∀ a, a ≠ 0xFE00#16 → a ≠ 0xFE02#16 → t.cell a = s.cell a) ∧ t.inputPos = s.inputPos + n ∧
  t.host = { s.host with input := s.host.input.drop n, polls := s.host.polls.tail, pollCount := s.host.pollCount + 1 } ∧
  t.pc = s.pc ∧ sameRegs s t ∧ t.output = s.output ∧ sameControl s t

/-- `t` is `s` but for an input byte `b` that arrived in `R0` (44_trap.md R141), with the flags under `TRAP_READ_SETS_CC`, and
the trap unit, which is idle. -/
def byteTaken (b : Byte) (s t : State) : Prop :=
  (t.reg .r0).toNat = b.toNat ∧ (∀ r, r ≠ .r0 → t.reg r = s.reg r) ∧
  (s.params.trapReadSetsCC = false → t.cond = s.cond) ∧
  (s.params.trapReadSetsCC = true → flagsOf (t.reg .r0) t.cond) ∧
  t.inputPos = s.inputPos + 1 ∧ t.host = { s.host with input := s.host.input.drop 1 } ∧
  t.pc = s.pc ∧ sameMemory s t ∧ t.output = s.output ∧ t.status = s.status ∧ t.trap = none ∧ t.params = s.params

/-- `r` is the answer of a step in state `s` that stops for the reason `x`: the end of the run with nothing else changed, or
no successor while the host has not answered (40_cycle.md R97). -/
def stops (x : Stop) (s : State) (r : Result) : Prop :=
  match x with
  | .abort e => ∃ t, r = .next t ∧ abortOnly e s t
  | .wait => r = .fault .waiting

/-- The host's next answer to a write is `Ok` (R13). -/
def writeOk (s : State) : Prop := s.host.writes.headD .ok = .ok

/-- The host's next answer to a flush is `Ok` (R13). -/
def flushOk (s : State) : Prop := s.host.flushes.headD .ok = .ok

/-- The host answers every read and every poll to come (R97): no interaction is left waiting. -/
def State.hostAnswers (s : State) : Prop := s.host.inputEnd ≠ .waiting ∧ .waiting ∉ s.host.polls

/-- A load into `dr` from the effective address `ea`, in state `s`, answers `r` (43_load_store.md): the word there and its
flags; at KBSR the word the poll left, or the poll's error with nothing written, or no successor while the poll waits. -/
def loadsFrom (dr : Reg) (ea : Word) (s : State) (r : Result) : Prop :=
  (ea ≠ 0xFE00#16 → ∃ t, r = .next t ∧ resultOnly dr (s.cell ea) s t) ∧
  (ea = 0xFE00#16 → ∀ u, keyboardPoll s = .ok u → ∃ t, r = .next t ∧ resultOnly dr (u.cell ea) u t) ∧
  (ea = 0xFE00#16 → ∀ x, keyboardPoll s = .error x → stops x s r)

/-! ### The invariant -/

/-- The error is one that a run can end with (R170: reachable). -/
def reachableError : RunError → Bool
  | .unknownRegister _ => false
  | .unknownInstruction _ => false
  | .unknownTrapRoutine _ => true
  | .reservedOpcode _ => true
  | .ioError _ => true

/-- What holds of the machine in every state of a run: memory keeps its canonical form, `COND` holds a legal value (R25),
no routine is in progress in a run that has ended, and no unreachable error has ended it (R171, R172). -/
def State.Inv (s : State) : Prop :=
  s.mem.wf ∧ (s.cond = 0x0000#16 ∨ oneHot s.cond) ∧ (s.status ≠ .running → s.trap = none) ∧
  ∀ e, s.status = .aborted e → reachableError e = true

end Sys2Proof.Machine
end

