-- ==== Sys2Proof/Certificates/Slice0/Obligations.lean ====
section
/-! DEFINITION. The statements for the provers, from the spec's numbered rules. The word layout (30_encoding.md R65) and the
values of the Z and N flags (10_state.md R25) are the spec's own decisions D1 and D2, so a statement that names a word or a
flag's value rests on them. In every statement an error is a next state whose status is `Aborted(e)`, and a step of an ended
run or of a waiting one is a fault: log entries 10 and 9. -/

open Sys2Proof Sys2Proof.Machine

/-! ### Encoding -/

/-- Words written out from the formats of R65 decode to the instructions they stand for, one or more for each family, and
the pseudo-instructions of R74 have the words given there. The layout is D1. That the decoded RTI and RES carry the word's bits
11 to 0, which R67 calls don't-care bits, is the model's choice (log entry 14). -/
def Obligations.SampleWordsDecode : Prop :=
  decode 0b0000_011_000001010#16 = .ok (.br 0b011#3 0x000A#16) ∧
  decode 0b0001_000_001_0_00_010#16 = .ok (.addReg .r0 .r1 .r2) ∧
  decode 0b0001_001_001_1_11111#16 = .ok (.addImm .r1 .r1 0xFFFF#16) ∧
  decode 0b0101_011_001_0_00_010#16 = .ok (.andReg .r3 .r1 .r2) ∧
  decode 0b0010_001_000000110#16 = .ok (.ld .r1 0x0006#16) ∧
  decode 0b0111_010_001_100000#16 = .ok (.str .r2 .r1 0xFFE0#16) ∧
  decode 0b0100_1_10000000000#16 = .ok (.jsr 0xFC00#16) ∧
  decode 0b0100_0_00_010_000000#16 = .ok (.jsrr .r2) ∧
  decode 0b1000_000000000000#16 = .ok (.rti 0#12) ∧
  decode 0b1101_000100100011#16 = .ok (.res 0x123#12) ∧
  decode 0b1111_0101_00100101#16 = .ok .trapHalt ∧
  decode 0b1111_0000_00100110#16 = .error (.unknownTrapRoutine 0x26#8) ∧
  encode (Pseudo.expand .ret) = 0xC1C0#16 ∧ encode (Pseudo.expand .getc) = 0xF020#16 ∧
  encode (Pseudo.expand .out) = 0xF021#16 ∧ encode (Pseudo.expand .puts) = 0xF022#16 ∧
  encode (Pseudo.expand .in_) = 0xF023#16 ∧ encode (Pseudo.expand .putsp) = 0xF024#16 ∧
  encode (Pseudo.expand .halt) = 0xF025#16 ∧ encode (Pseudo.expand .nop) = 0x0000#16

/-- R8: if the field's top bit is 1, its sign extension is the field OR'd with all ones above its width; otherwise it is the
field unchanged. -/
def Obligations.SignExtensionCopiesTheTopBit : Prop :=
  ∀ (n : Nat) (f : BitVec n), 0 < n → n ≤ 16 →
    sext f = if f.getLsbD (n - 1) then f.setWidth 16 ||| (0xFFFF#16 <<< n) else f.setWidth 16

/-- Every well-formed instruction is what its own word decodes to, with every operand at every value the encoding admits
(R65, R71; the layout is D1); the rejected row decodes to the decoder's error (R147). That JMP's words with BaseR = 7 are RET's
is log entry 8, and that RTI and RES carry their words' bits 11 to 0 is log entry 14. -/
def Obligations.DecodeOfEncodeIsTheInstruction : Prop :=
  ∀ i : Instr, i.wellFormed = true →
    decodeWord (encode i) = i ∧
    ((∀ v, i ≠ .trapUndefinedVector v) → decode (encode i) = .ok i) ∧
    (∀ v, i = .trapUndefinedVector v → decode (encode i) = .error (.unknownTrapRoutine v))

/-- R72: a word that decodes and whose opcode is not reserved is given back by encoding what it decodes to, except that its
don't-care bits become 0. -/
def Obligations.ReencodingPreservesOperandFields : Prop :=
  ∀ (w : Word) (i : Instr), w.extractLsb' 12 4 ≠ 0x8#4 → w.extractLsb' 12 4 ≠ 0xD#4 → decode w = .ok i →
    decode (encode i) = .ok i ∧ encode i = w &&& careMask w ∧ (encode i = w ↔ w &&& ~~~ careMask w = 0#16)

/-- Every word decodes by the formats of R65 and the decoder of R71, with any value of its don't-care bits (the layout is D1,
the treatment of don't-care bits D3 and D4). Two forms are the model's choice: the words of JMP with BaseR = 7 are named RET
(R74, log entry 8), and the decoded RTI and RES carry their don't-care bits w[11:0], so that executing them can record the
whole word (D5, log entry 14). -/
def Obligations.EveryWordDecodesByItsFormat : Prop :=
  (∀ b : BitVec 3, (Reg.ofBits b).toBits = b) ∧ Reg.ofBits 0#3 = .r0 ∧ Reg.ofBits 7#3 = .r7 ∧
  ∀ w : Word,
    (w &&& 0xF000#16 = 0x0000#16 → decode w = .ok (.br (w.extractLsb' 9 3) (sext (w.extractLsb' 0 9)))) ∧
    (w &&& 0xF020#16 = 0x1000#16 → decode w =
      .ok (.addReg (.ofBits (w.extractLsb' 9 3)) (.ofBits (w.extractLsb' 6 3)) (.ofBits (w.extractLsb' 0 3)))) ∧
    (w &&& 0xF020#16 = 0x1020#16 → decode w =
      .ok (.addImm (.ofBits (w.extractLsb' 9 3)) (.ofBits (w.extractLsb' 6 3)) (sext (w.extractLsb' 0 5)))) ∧
    (w &&& 0xF000#16 = 0x2000#16 → decode w = .ok (.ld (.ofBits (w.extractLsb' 9 3)) (sext (w.extractLsb' 0 9)))) ∧
    (w &&& 0xF000#16 = 0x3000#16 → decode w = .ok (.st (.ofBits (w.extractLsb' 9 3)) (sext (w.extractLsb' 0 9)))) ∧
    (w &&& 0xF800#16 = 0x4000#16 → decode w = .ok (.jsrr (.ofBits (w.extractLsb' 6 3)))) ∧
    (w &&& 0xF800#16 = 0x4800#16 → decode w = .ok (.jsr (sext (w.extractLsb' 0 11)))) ∧
    (w &&& 0xF020#16 = 0x5000#16 → decode w =
      .ok (.andReg (.ofBits (w.extractLsb' 9 3)) (.ofBits (w.extractLsb' 6 3)) (.ofBits (w.extractLsb' 0 3)))) ∧
    (w &&& 0xF020#16 = 0x5020#16 → decode w =
      .ok (.andImm (.ofBits (w.extractLsb' 9 3)) (.ofBits (w.extractLsb' 6 3)) (sext (w.extractLsb' 0 5)))) ∧
    (w &&& 0xF000#16 = 0x6000#16 → decode w =
      .ok (.ldr (.ofBits (w.extractLsb' 9 3)) (.ofBits (w.extractLsb' 6 3)) (sext (w.extractLsb' 0 6)))) ∧
    (w &&& 0xF000#16 = 0x7000#16 → decode w =
      .ok (.str (.ofBits (w.extractLsb' 9 3)) (.ofBits (w.extractLsb' 6 3)) (sext (w.extractLsb' 0 6)))) ∧
    (w &&& 0xF000#16 = 0x8000#16 → decode w = .ok (.rti (w.extractLsb' 0 12))) ∧
    (w &&& 0xF000#16 = 0x9000#16 → decode w =
      .ok (.not (.ofBits (w.extractLsb' 9 3)) (.ofBits (w.extractLsb' 6 3)))) ∧
    (w &&& 0xF000#16 = 0xA000#16 → decode w = .ok (.ldi (.ofBits (w.extractLsb' 9 3)) (sext (w.extractLsb' 0 9)))) ∧
    (w &&& 0xF000#16 = 0xB000#16 → decode w = .ok (.sti (.ofBits (w.extractLsb' 9 3)) (sext (w.extractLsb' 0 9)))) ∧
    (w &&& 0xF000#16 = 0xC000#16 → w &&& 0x01C0#16 ≠ 0x01C0#16 →
      decode w = .ok (.jmp (.ofBits (w.extractLsb' 6 3)))) ∧
    (w &&& 0xF1C0#16 = 0xC1C0#16 → decode w = .ok .ret) ∧
    (w &&& 0xF000#16 = 0xD000#16 → decode w = .ok (.res (w.extractLsb' 0 12))) ∧
    (w &&& 0xF000#16 = 0xE000#16 → decode w = .ok (.lea (.ofBits (w.extractLsb' 9 3)) (sext (w.extractLsb' 0 9)))) ∧
    (w &&& 0xF0FF#16 = 0xF020#16 → decode w = .ok .trapGetc) ∧
    (w &&& 0xF0FF#16 = 0xF021#16 → decode w = .ok .trapOut) ∧
    (w &&& 0xF0FF#16 = 0xF022#16 → decode w = .ok .trapPuts) ∧
    (w &&& 0xF0FF#16 = 0xF023#16 → decode w = .ok .trapIn) ∧
    (w &&& 0xF0FF#16 = 0xF024#16 → decode w = .ok .trapPutsp) ∧
    (w &&& 0xF0FF#16 = 0xF025#16 → decode w = .ok .trapHalt)

/-- The only decode error is `UnknownTrapRoutine`, for exactly the TRAP words whose vector is outside 0x20..0x25, with the
vector as its value (R68, R71; its payload and timing are D6). -/
def Obligations.OnlyUndefinedVectorsFailToDecode : Prop :=
  ∀ (w : Word) (e : RunError),
    decode w = .error e ↔
      (w.extractLsb' 12 4 = 0xF#4 ∧
        ((w.extractLsb' 0 8).toNat < 0x20 ∨ 0x25 < (w.extractLsb' 0 8).toNat) ∧
        e = .unknownTrapRoutine (w.extractLsb' 0 8))

/-- What the decoder gives is well formed: offsets lie in the ranges of R63, and a rejected vector names no routine. -/
def Obligations.DecodedInstructionsAreWellFormed : Prop :=
  ∀ w : Word, (decodeWord w).wellFormed = true

/-- Words that differ only in the don't-care bits of R67 decode to the same instruction or error (D3, D4). The reserved words
are of one opcode, and decode to one instruction but for the bits w[11:0], which the model's decoded RTI and RES carry so that
executing them can record the whole word (D5, log entry 14); their effect is to end the run whatever those bits are. -/
def Obligations.DontCareBitsDoNotChangeTheInstruction : Prop :=
  (∀ w x : Word, w &&& careMask w = x &&& careMask w → decode x = decode w) ∧
  (∀ w x : Word, w.extractLsb' 12 4 = 0x8#4 ∨ w.extractLsb' 12 4 = 0xD#4 → w &&& 0xF000#16 = x &&& 0xF000#16 →
    ∃ i j, decode w = .ok i ∧ decode x = .ok j ∧ i.withoutLow = j.withoutLow ∧
      ∀ s : State, (∃ t, exec i s = .next t ∧ abortOnly (.reservedOpcode w) s t) ∧
        (∃ t, exec j s = .next t ∧ abortOnly (.reservedOpcode x) s t))

/-! ### Reset and the loader -/

/-- Machine creation leaves every piece of state at its reset value (R35), for every `MEM_INIT`, every value of the other
parameters and every host; the reset state is a creation, with the defaults of R6 (D7, D16, D17). -/
def Obligations.CreationLeavesTheResetValues : Prop :=
  (∀ (p : Config.Params) (m : Memory) (h : HostScript),
    (∀ r, (State.create p m h).reg r = 0x0000#16) ∧ (State.create p m h).pc = 0x3000#16 ∧
    (State.create p m h).cond = 0x0000#16 ∧ (State.create p m h).status = .running ∧
    (State.create p m h).trap = none ∧ (State.create p m h).inputPos = 0 ∧ (State.create p m h).output = [] ∧
    (∀ a, (State.create p m h).cell a = m.read a.toNat) ∧ (State.create p m h).params = p) ∧
  (∃ p m h, State.reset = State.create p m h ∧
    p.kbsrPollBytes = .one ∧ p.trapReadSetsCC = false ∧ p.jsrrReadBeforeLink = false)

/-- Every `MEM_INIT` (R6, R35: an arbitrary function from addresses to words) is some memory in canonical form. -/
def Obligations.EveryMemInitIsSomeMemory : Prop :=
  ∀ f : Word → Word, ∃ m : Memory, m.wf ∧ ∀ a : Word, m.read a.toNat = f a

/-- An image of an origin and `n` words that fit loads them big-endian at consecutive addresses and nothing else (R193,
R194), and the machine is otherwise as created: it starts at 0x3000 whatever the origin (R191; D19). -/
def Obligations.LoaderPlacesTheImageWords : Prop :=
  ∀ (p : Config.Params) (m : Memory) (h : HostScript) (b0 b1 : Byte) (rest : List Byte) (n : Nat),
    rest.length = 2 * n → 256 * b0.toNat + b1.toNat + n ≤ 65536 →
    ∃ s, boot p m h { bytes := b0 :: b1 :: rest } = .ok s ∧
      (∀ k, k < n → (s.mem.read (256 * b0.toNat + b1.toNat + k)).toNat =
        256 * (rest.getD (2 * k) 0#8).toNat + (rest.getD (2 * k + 1) 0#8).toNat) ∧
      (∀ a, (a < 256 * b0.toNat + b1.toNat ∨ 256 * b0.toNat + b1.toNat + n ≤ a) → s.mem.read a = m.read a) ∧
      (m.wf → s.mem.wf) ∧
      s = State.create p s.mem h

/-- A load fails exactly on a failed read, fewer than two bytes, an odd trailing byte, or words past 0xFFFF (R194, R195; the
short and overflow cases are D19), and then no run starts: `boot` has no machine exactly when the load has no memory, with the
same error (R190). That a failed read is reported before the other faults of an image, and those in the order given, is the
model's choice (log entry 21). -/
def Obligations.LoadFailsExactlyOnBadImages : Prop :=
  ∀ (src : ImageSource) (m : Memory),
    let len := src.bytes.length
    let origin := 256 * (src.bytes.getD 0 0#8).toNat + (src.bytes.getD 1 0#8).toNat
    (load src m = .error .io ↔ src.readFails = true) ∧
    (load src m = .error .short ↔ src.readFails = false ∧ len < 2) ∧
    (load src m = .error .odd ↔ src.readFails = false ∧ 2 ≤ len ∧ len % 2 = 1) ∧
    (load src m = .error .overflow ↔
      src.readFails = false ∧ 2 ≤ len ∧ len % 2 = 0 ∧ 65536 < origin + (len - 2) / 2) ∧
    (∀ (p : Config.Params) (h : HostScript),
      (∀ e, boot p m h src = .error e ↔ load src m = .error e) ∧
      ∀ s, boot p m h src = .ok s ↔ ∃ n, load src m = .ok n ∧ s = State.create p n h)

/-! ### Memory and the keyboard -/

/-- After any sequence of stores a word reads as the last one stored at its address, or as before if there is none (R42,
R54), and memory keeps its canonical form. -/
def Obligations.ReadsSeeTheLastWrite : Prop :=
  ∀ (ws : List (Word × Word)) (s : State) (a : Word),
    (ws.foldl (fun t w => t.memWrite w.1 w.2) s).cell a =
      ((ws.reverse.find? (fun w => w.1 == a)).map (fun w => w.2)).getD (s.cell a) ∧
    (s.mem.wf → (ws.foldl (fun t w => t.memWrite w.1 w.2) s).mem.wf)

/-- R41: a read polls the keyboard if its address is 0xFE00, and returns the stored word. A poll that does not go on has
failed, or has no answer (R97). -/
def Obligations.OnlyReadsOfKbsrPoll : Prop :=
  ∀ (a : Word) (s : State),
    (a ≠ 0xFE00#16 → memRead a s = .ok (s.cell a, s)) ∧
    (∀ t, a = 0xFE00#16 → keyboardPoll s = .ok t → memRead a s = .ok (t.cell a, t)) ∧
    (∀ x, a = 0xFE00#16 → keyboardPoll s = .error x →
      memRead a s = .error x ∧ (x = .abort (.ioError .poll) ∨ x = .wait))

/-- The keyboard poll (R44; the answers and the exact KBSR words are D8 and D9): with `KBSR_POLL_BYTES` = 1 a ready poll
stores 0x8000 and the next byte of the input stream and consumes it; with either value, a poll that is not ready clears KBSR,
leaves KBDR and consumes nothing, a failed poll is an error, and a poll without an answer waits (R97). That a ready signal with
no byte in the stream is not ready is the model's reading of the host (log entry 5). -/
def Obligations.PollFillsKbsrAndKbdr : Prop :=
  ∀ s : State,
    (∀ b, s.params.kbsrPollBytes = .one → s.pollSignal = .ready → s.byteAt 0 = .byte b →
      ∃ t, keyboardPoll s = .ok t ∧ t.cell 0xFE00#16 = 0x8000#16 ∧ (t.cell 0xFE02#16).toNat = b.toNat ∧
        pollOnly 1 s t) ∧
    (s.pollSignal = .notReady ∨ (s.pollSignal = .ready ∧ ∀ b, s.byteAt 0 ≠ .byte b) →
      ∃ t, keyboardPoll s = .ok t ∧ t.cell 0xFE00#16 = 0x0000#16 ∧ t.cell 0xFE02#16 = s.cell 0xFE02#16 ∧
        pollOnly 0 s t) ∧
    (s.pollSignal = .fail → keyboardPoll s = .error (.abort (.ioError .poll))) ∧
    (s.pollSignal = .waiting → keyboardPoll s = .error .wait)

/-- With `KBSR_POLL_BYTES` = 2 a ready poll consumes two input bytes and KBDR receives one of them, whichever the free value
says (R48, D7, log entry 3). With one byte left the poll waits while the host has not answered, and fails when the stream has
ended or fails, which is the model's choice (log entry 6). The other answers are those of the statement above. -/
def Obligations.TwoBytePollKeepsOneOfItsBytes : Prop :=
  ∀ (s : State) (b1 : Byte), s.params.kbsrPollBytes = .two → s.pollSignal = .ready → s.byteAt 0 = .byte b1 →
    (∀ b2, s.byteAt 1 = .byte b2 → ∃ t, keyboardPoll s = .ok t ∧ t.cell 0xFE00#16 = 0x8000#16 ∧
      ((t.cell 0xFE02#16).toNat = b1.toNat ∨ (t.cell 0xFE02#16).toNat = b2.toNat) ∧ pollOnly 2 s t) ∧
    (s.byteAt 1 = .waiting → keyboardPoll s = .error .wait) ∧
    (s.byteAt 1 = .eof ∨ s.byteAt 1 = .fail → keyboardPoll s = .error (.abort (.ioError .poll)))

/-- A value stored at KBSR is never read back: a read there gives 0x8000 or 0. A value stored at KBDR is read back without a
poll (R45, R46; D11). -/
def Obligations.StoredKbsrIsNeverReadBack : Prop :=
  (∀ (s t : State) (v x : Word), memRead 0xFE00#16 (s.memWrite 0xFE00#16 v) = .ok (x, t) →
    x = 0x8000#16 ∨ x = 0x0000#16) ∧
  (∀ (s : State) (v : Word), memRead 0xFE02#16 (s.memWrite 0xFE02#16 v) = .ok (v, s.memWrite 0xFE02#16 v))

/-! ### The flags and the operate instructions -/

/-- R26: SetCC sets exactly one of N, Z, P from the value the destination register holds after the write, also when the
destination is a source. -/
def Obligations.SetCCFollowsTheWrittenRegister : Prop :=
  (∀ (r : Reg) (s : State), flagsOf (s.reg r) (updateFlags r s).cond ∧ oneHot (updateFlags r s).cond) ∧
  (∀ (dr : Reg) (v : Word) (s : State), flagsOf ((writeResult dr v s).reg dr) (writeResult dr v s).cond)

/-- ADD writes the sum modulo 2^16 and its flags and nothing else, in both modes and for every choice of registers, the
destination among the sources or not (R100, R101, R10). -/
def Obligations.AddWritesTheWrappingSum : Prop :=
  ∀ (dr sr1 sr2 : Reg) (imm : Word) (s : State),
    (∃ t, exec (.addReg dr sr1 sr2) s = .next t ∧
      resultOnly dr (BitVec.ofNat 16 ((s.reg sr1).toNat + (s.reg sr2).toNat)) s t) ∧
    (∃ t, exec (.addImm dr sr1 imm) s = .next t ∧
      resultOnly dr (BitVec.ofNat 16 ((s.reg sr1).toNat + imm.toNat)) s t)

/-- AND and NOT write the bitwise result and its flags and nothing else (R102, R103, R104). -/
def Obligations.AndNotWriteTheBitwiseResult : Prop :=
  ∀ (dr sr1 sr2 : Reg) (imm : Word) (s : State),
    (∃ t v, exec (.andReg dr sr1 sr2) s = .next t ∧ resultOnly dr v s t ∧
      ∀ i, i < 16 → v.getLsbD i = ((s.reg sr1).getLsbD i && (s.reg sr2).getLsbD i)) ∧
    (∃ t v, exec (.andImm dr sr1 imm) s = .next t ∧ resultOnly dr v s t ∧
      ∀ i, i < 16 → v.getLsbD i = ((s.reg sr1).getLsbD i && imm.getLsbD i)) ∧
    (∃ t v, exec (.not dr sr1) s = .next t ∧ resultOnly dr v s t ∧
      ∀ i, i < 16 → v.getLsbD i = !(s.reg sr1).getLsbD i)

/-! ### Loads and stores -/

/-- LEA writes the PC-relative address and its flags and nothing else; it accesses no memory, so it never polls (R123). -/
def Obligations.LeaWritesTheAddress : Prop :=
  ∀ (dr : Reg) (off : Word) (s : State),
    ∃ t, exec (.lea dr off) s = .next t ∧ resultOnly dr (BitVec.ofNat 16 (s.pc.toNat + off.toNat)) s t

/-- LD and LDR load the word at their effective address, modulo 2^16, with its flags; at KBSR they poll first, a failed poll
ends the run with nothing written, and a poll without an answer leaves no successor (R120, R122, R44, R97). -/
def Obligations.LdLdrLoadTheWord : Prop :=
  ∀ (dr base : Reg) (off : Word) (s : State),
    loadsFrom dr (BitVec.ofNat 16 (s.pc.toNat + off.toNat)) s (exec (.ld dr off) s) ∧
    loadsFrom dr (BitVec.ofNat 16 ((s.reg base).toNat + off.toNat)) s (exec (.ldr dr base off) s)

/-- LDI loads the word at the address held by the pointer cell; the pointer read polls when the cell is KBSR, and so does
the data read (R121, R47). -/
def Obligations.LdiLoadsThroughThePointer : Prop :=
  ∀ (dr : Reg) (off : Word) (s : State),
    (s.pc + off ≠ 0xFE00#16 → loadsFrom dr (s.cell (s.pc + off)) s (exec (.ldi dr off) s)) ∧
    (s.pc + off = 0xFE00#16 → ∀ u, keyboardPoll s = .ok u →
      loadsFrom dr (u.cell 0xFE00#16) u (exec (.ldi dr off) s)) ∧
    (s.pc + off = 0xFE00#16 → ∀ x, keyboardPoll s = .error x → stops x s (exec (.ldi dr off) s))

/-- ST and STR store the source register at their effective address, modulo 2^16, and change nothing else, at every address,
KBSR and KBDR among them (R124, R126, R46). -/
def Obligations.StStrStoreOneWord : Prop :=
  ∀ (sr base : Reg) (off : Word) (s : State),
    (∃ t, exec (.st sr off) s = .next t ∧
      storeOnly (BitVec.ofNat 16 (s.pc.toNat + off.toNat)) (s.reg sr) s t) ∧
    (∃ t, exec (.str sr base off) s = .next t ∧
      storeOnly (BitVec.ofNat 16 ((s.reg base).toNat + off.toNat)) (s.reg sr) s t)

/-- STI stores the source register at the address held by the pointer cell and changes nothing else; the pointer read polls
when the cell is KBSR, and the store never does (R125, R47). -/
def Obligations.StiStoresThroughThePointer : Prop :=
  ∀ (sr : Reg) (off : Word) (s : State),
    (s.pc + off ≠ 0xFE00#16 →
      ∃ t, exec (.sti sr off) s = .next t ∧ storeOnly (s.cell (s.pc + off)) (s.reg sr) s t) ∧
    (s.pc + off = 0xFE00#16 → ∀ u, keyboardPoll s = .ok u →
      ∃ t, exec (.sti sr off) s = .next t ∧ storeOnly (u.cell 0xFE00#16) (s.reg sr) u t) ∧
    (s.pc + off = 0xFE00#16 → ∀ x, keyboardPoll s = .error x → stops x s (exec (.sti sr off) s))

/-! ### Control transfer -/

/-- BR is taken exactly when a flag that its mask names is set (bit 2 n, bit 1 z, bit 0 p, R66), and then `PC` is the
incremented one plus the offset, modulo 2^16; nothing else changes (R110). With no flag set no mask is taken. -/
def Obligations.BranchIsTakenOnMaskMatch : Prop :=
  ∀ (mask : BitVec 3) (off : Word) (s : State),
    ((∃ i, i < 3 ∧ mask.getLsbD i = true ∧ s.cond.getLsbD i = true) →
      ∃ t, exec (.br mask off) s = .next t ∧ pcOnly (BitVec.ofNat 16 (s.pc.toNat + off.toNat)) s t) ∧
    ((∀ i, i < 3 → mask.getLsbD i = true → s.cond.getLsbD i = false) → exec (.br mask off) s = .next s) ∧
    (s.cond = 0x0000#16 → exec (.br mask off) s = .next s)

/-- JMP sets `PC` to its base register and RET to `R7`; nothing else changes (R111, R112). -/
def Obligations.JumpsGoToTheRegister : Prop :=
  ∀ (base : Reg) (s : State),
    (∃ t, exec (.jmp base) s = .next t ∧ pcOnly (s.reg base) s t) ∧
    (∃ t, exec .ret s = .next t ∧ pcOnly (s.reg .r7) s t) ∧
    exec .ret s = exec (.jmp .r7) s

/-- JSR and JSRR put the incremented `PC` into `R7` without touching the flags and go to their target (R113, R114, R115).
`JSRR R7` goes to the link it just wrote by default, and to the old `R7` under `JSRR_READ_BEFORE_LINK` (D17). -/
def Obligations.SubroutineCallsLinkAndJump : Prop :=
  ∀ (base : Reg) (off : Word) (s : State),
    (∃ t, exec (.jsr off) s = .next t ∧ t.pc = BitVec.ofNat 16 (s.pc.toNat + off.toNat) ∧
      t.reg .r7 = s.pc ∧ (∀ r, r ≠ .r7 → t.reg r = s.reg r) ∧ t.cond = s.cond ∧
      sameMemory s t ∧ sameIO s t ∧ sameControl s t) ∧
    (∃ t, exec (.jsrr base) s = .next t ∧
      t.pc = (if base = .r7 ∧ s.params.jsrrReadBeforeLink = false then s.pc else s.reg base) ∧
      t.reg .r7 = s.pc ∧ (∀ r, r ≠ .r7 → t.reg r = s.reg r) ∧ t.cond = s.cond ∧
      sameMemory s t ∧ sameIO s t ∧ sameControl s t)

/-! ### Traps -/

/-- GETC takes the next input byte, zero-extended, into `R0`, and leaves the flags unless `TRAP_READ_SETS_CC` holds; at the
end of the input or on a failed read the run ends with `R0` unwritten; while the host has not answered there is no successor
(R141, R97; D16, D23, D29; that this is an outcome of its own name and no error is log entry 9). -/
def Obligations.GetcReadsOneByte : Prop :=
  ∀ s : State,
    (∀ b, s.byteAt 0 = .byte b → ∃ t, exec .trapGetc s = .next t ∧ byteTaken b s t) ∧
    (s.byteAt 0 = .eof → ∃ t, exec .trapGetc s = .next t ∧ abortOnly (.ioError .eof) s t) ∧
    (s.byteAt 0 = .fail → ∃ t, exec .trapGetc s = .next t ∧ abortOnly (.ioError .read) s t) ∧
    (s.byteAt 0 = .waiting → exec .trapGetc s = .fault .waiting)

/-- IN flushes the output and then reads as GETC does; while the host has not answered it has flushed and waits inside the
instruction, so every byte written before it is observable while it waits; a failed flush ends the run before anything is read
(R144, R58, R97; that the flush is then a step of its own is log entry 9). -/
def Obligations.InFlushesThenReads : Prop :=
  ∀ s : State,
    (flushOk s → ∃ u, outputOnly [.flush] s u ∧ u.status = s.status ∧ u.trap = s.trap ∧
      (s.byteAt 0 ≠ .waiting → exec .trapIn s = exec .trapGetc u) ∧
      (s.byteAt 0 = .waiting → exec .trapIn s = .next { u with trap := some .reading }) ∧
      ∀ t, exec .trapIn s = .next t → t.output = s.output ++ [.flush] ∧
        bytesOf (upToLastFlush t.output) = bytesOf s.output) ∧
    (∀ b, flushOk s → s.byteAt 0 = .byte b →
      ∃ u t, outputOnly [.flush] s u ∧ u.status = s.status ∧ exec .trapIn s = .next t ∧ byteTaken b u t) ∧
    (¬ flushOk s → ∃ t, exec .trapIn s = .next t ∧ abortOnly (.ioError .flush) s t)

/-- OUT writes the low byte of `R0` and changes nothing else; it does not flush. A failed write ends the run (R142; D20). -/
def Obligations.OutWritesTheLowByte : Prop :=
  ∀ s : State,
    (writeOk s → ∃ t b, exec .trapOut s = .next t ∧ b.toNat = (s.reg .r0).toNat % 256 ∧
      outputOnly [.write b] s t ∧ t.status = s.status ∧ t.trap = s.trap) ∧
    (¬ writeOk s → ∃ t, exec .trapOut s = .next t ∧ abortOnly (.ioError .write) s t)

/-- One micro-step of PUTS at address `a` (R143, R148; D26): the routine's first when `exec` runs it from `R0`, and each
later one from the trap unit's progress. A zero word flushes and ends the routine; another word has its low byte written
and the routine goes on at the next address, modulo 2^16; a failed read, write or flush ends the run, and a read without an
answer leaves no successor. -/
def Obligations.PutsTakesOneWordPerMicroStep : Prop :=
  ∀ (s : State) (a : Word) (r : Result),
    (exec .trapPuts s = r ∧ a = s.reg .r0) ∨ (s.status = .running ∧ s.trap = some (.puts a) ∧ step s = r) →
    (∀ c u, memRead a s = .ok (c, u) →
      (c = 0x0000#16 → flushOk u → ∃ t, r = .next t ∧ outputOnly [.flush] u t ∧ t.trap = none ∧ t.status = s.status) ∧
      (c = 0x0000#16 → ¬ flushOk u → ∃ t, r = .next t ∧ abortOnly (.ioError .flush) u t) ∧
      (c ≠ 0x0000#16 → writeOk u → ∃ t b, r = .next t ∧ b.toNat = c.toNat % 256 ∧ outputOnly [.write b] u t ∧
        t.trap = some (.puts (BitVec.ofNat 16 (a.toNat + 1))) ∧ t.status = s.status) ∧
      (c ≠ 0x0000#16 → ¬ writeOk u → ∃ t, r = .next t ∧ abortOnly (.ioError .write) u t)) ∧
    (∀ x, memRead a s = .error x → stops x s r)

/-- One micro-step of PUTSP at address `a` (R145, R148; D18, D26): as PUTS, with the low byte written first and then the
high byte, which `PUTSP_SKIP_ZERO_HIGH` leaves out when it is 0. The writes it makes succeed here; the failing ones are the
subject of the statement below. -/
def Obligations.PutspTakesOneWordPerMicroStep : Prop :=
  ∀ (s : State) (a : Word) (r : Result),
    (exec .trapPutsp s = r ∧ a = s.reg .r0) ∨ (s.status = .running ∧ s.trap = some (.putsp a) ∧ step s = r) →
    (∀ c u, memRead a s = .ok (c, u) →
      (c = 0x0000#16 → flushOk u → ∃ t, r = .next t ∧ outputOnly [.flush] u t ∧ t.trap = none ∧ t.status = s.status) ∧
      (c = 0x0000#16 → ¬ flushOk u → ∃ t, r = .next t ∧ abortOnly (.ioError .flush) u t) ∧
      (c ≠ 0x0000#16 → writeOk u →
        (s.params.putspSkipZeroHigh = true ∧ c.toNat < 256) ∨ u.host.writes.tail.headD .ok = .ok →
        ∃ t, r = .next t ∧
          outputOnly ((putspBytes s.params.putspSkipZeroHigh [c]).map OutEvent.write) u t ∧
          t.trap = some (.putsp (BitVec.ofNat 16 (a.toNat + 1))) ∧ t.status = s.status)) ∧
    (∀ x, memRead a s = .error x → stops x s r)

/-- A failed write of PUTSP, in its first micro-step or a later one, ends the run with what was written before it kept in the
log (R145, R174; D22): nothing of the word when its low byte fails, the low byte when its high byte fails. -/
def Obligations.PutspKeepsTheBytesBeforeAFailedWrite : Prop :=
  ∀ (s u : State) (a c : Word) (r : Result),
    (exec .trapPutsp s = r ∧ a = s.reg .r0) ∨ (s.status = .running ∧ s.trap = some (.putsp a) ∧ step s = r) →
    memRead a s = .ok (c, u) → c ≠ 0x0000#16 →
    (¬ writeOk u → ∃ t, r = .next t ∧ abortOnly (.ioError .write) u t) ∧
    (writeOk u → u.host.writes.tail.headD .ok ≠ .ok → (s.params.putspSkipZeroHigh = false ∨ 256 ≤ c.toNat) →
      ∃ t lo, r = .next t ∧ lo.toNat = c.toNat % 256 ∧ t.status = .aborted (.ioError .write) ∧ t.trap = none ∧
        outputOnly [.write lo] u t)

/-- PUTS writes exactly the low bytes of the string's words, in order, and then flushes: executed from `R0`, or from a routine
in progress at `a` for the rest of a string, with one micro-step for each word and one for the zero word, with no read at KBSR
and no failing output (R143, R148; that executing PUTS makes the first micro-step is log entry 20). -/
def Obligations.PutsWritesTheWholeString : Prop :=
  ∀ (cs : List Word) (s : State) (a : Word) (r : Result),
    s.status = .running →
    (exec .trapPuts s = r ∧ a = s.reg .r0) ∨ (s.trap = some (.puts a) ∧ step s = r) →
    (∀ k, k ≤ cs.length → BitVec.ofNat 16 (a.toNat + k) ≠ 0xFE00#16) →
    (∀ k, k < cs.length → s.cell (BitVec.ofNat 16 (a.toNat + k)) = cs.getD k 0#16) →
    (∀ c, c ∈ cs → c ≠ 0x0000#16) →
    s.cell (BitVec.ofNat 16 (a.toNat + cs.length)) = 0x0000#16 →
    (∀ x, x ∈ s.host.writes.take cs.length → x = .ok) → flushOk s →
    ∃ u t, r = .next u ∧ after cs.length u = some t ∧
      outputOnly (cs.map (fun c => OutEvent.write (BitVec.ofNat 8 c.toNat)) ++ [.flush]) s t ∧
      t.trap = none ∧ t.status = .running

/-- PUTSP writes both bytes of each of the string's words, low byte first, and then flushes; a zero high byte is written unless
`PUTSP_SKIP_ZERO_HIGH` holds. It is executed from `R0`, or from a routine in progress at `a` for the rest of a string (R145,
R148; D18; that executing PUTSP makes the first micro-step is log entry 20). -/
def Obligations.PutspWritesTheWholeString : Prop :=
  ∀ (cs : List Word) (s : State) (a : Word) (r : Result),
    s.status = .running →
    (exec .trapPutsp s = r ∧ a = s.reg .r0) ∨ (s.trap = some (.putsp a) ∧ step s = r) →
    (∀ k, k ≤ cs.length → BitVec.ofNat 16 (a.toNat + k) ≠ 0xFE00#16) →
    (∀ k, k < cs.length → s.cell (BitVec.ofNat 16 (a.toNat + k)) = cs.getD k 0#16) →
    (∀ c, c ∈ cs → c ≠ 0x0000#16) →
    s.cell (BitVec.ofNat 16 (a.toNat + cs.length)) = 0x0000#16 →
    (∀ x, x ∈ s.host.writes.take (putspBytes s.params.putspSkipZeroHigh cs).length → x = .ok) → flushOk s →
    ∃ u t, r = .next u ∧ after cs.length u = some t ∧
      outputOnly ((putspBytes s.params.putspSkipZeroHigh cs).map OutEvent.write ++ [.flush]) s t ∧
      t.trap = none ∧ t.status = .running

/-- HALT flushes the output and halts, with registers, memory and the log kept; if the flush fails the run is aborted and
not halted (R146; D21). -/
def Obligations.HaltFlushesAndHalts : Prop :=
  ∀ s : State,
    (flushOk s → ∃ t, exec .trapHalt s = .next t ∧ t.status = .halted ∧ t.trap = s.trap ∧ outputOnly [.flush] s t) ∧
    (¬ flushOk s → ∃ t, exec .trapHalt s = .next t ∧ abortOnly (.ioError .flush) s t)

/-- A program that consists of the HALT trap alone, in any word that decodes to it (0xF025 and the words that differ in bits 11
to 8: R67, D4), halts in one step, with its state kept, and no further fetch happens (R95, R146, R92). That a step of an ended
run is a fault is the model's choice (log entry 10). -/
def Obligations.HaltEndsTheRunWithoutAFetch : Prop :=
  ∀ s : State, s.ready → s.pc ≠ 0xFFFF#16 → s.pc ≠ 0xFE00#16 → decode (s.cell s.pc) = .ok .trapHalt → flushOk s →
    ∃ t, step s = .next t ∧ t.status = .halted ∧ t.pc = s.pc + 1#16 ∧ sameRegs s t ∧ sameMemory s t ∧
      t.output = s.output ++ [.flush] ∧ step t = .fault .halted

/-! ### Reserved opcodes and errors -/

/-- RTI and RES end the run with the whole fetched word recorded and nothing else changed (R160, R161; D5): executed as
decoded from any word of their opcodes. That the decoded instruction carries the word's bits 11 to 0 is log entry 14. -/
def Obligations.ReservedOpcodesAbort : Prop :=
  (∀ (low : BitVec 12) (s : State),
    (∃ t w, exec (.rti low) s = .next t ∧ w.toNat = 0x8000 + low.toNat ∧ abortOnly (.reservedOpcode w) s t) ∧
    (∃ t w, exec (.res low) s = .next t ∧ w.toNat = 0xD000 + low.toNat ∧ abortOnly (.reservedOpcode w) s t)) ∧
  (∀ (w : Word) (s : State), w.extractLsb' 12 4 = 0x8#4 ∨ w.extractLsb' 12 4 = 0xD#4 →
    ∃ i t, decode w = .ok i ∧ exec i s = .next t ∧ abortOnly (.reservedOpcode w) s t)

/-- The row of an undefined trap vector: its effect is the end of the run with the vector recorded, no routine, no host
interaction (R147, R174; D6, D22). -/
def Obligations.UndefinedVectorAborts : Prop :=
  ∀ (v : Byte) (s : State),
    ∃ t, exec (.trapUndefinedVector v) s = .next t ∧ abortOnly (.unknownTrapRoutine v) s t

/-- A decode failure ends the run after the fetch increment, with no register, flag or memory word changed by the bad word, and
it is always `UnknownTrapRoutine` (R93); there is no further step (R174). That the end of the run is a next state and that a
step of an ended run is a fault is the model's choice (log entry 10). -/
def Obligations.DecodeFailureAbortsAfterTheIncrement : Prop :=
  ∀ (s u : State) (w : Word) (e : RunError),
    s.ready → s.pc ≠ 0xFFFF#16 → fetch s = .ok (w, u) → decode w = .error e →
    ∃ t v, step s = .next t ∧ e = .unknownTrapRoutine v ∧ t.pc = s.pc + 1#16 ∧ abortOnly e u t ∧
      step t = .fault (.aborted e)

/-- R172: no word decodes to `UnknownInstruction` and no step ends the run with it. -/
def Obligations.UnknownInstructionNeverArises : Prop :=
  (∀ (w raw : Word), decode w ≠ .error (.unknownInstruction raw)) ∧
  (∀ (s t : State) (raw : Word), step s = .next t → t.status ≠ .aborted (.unknownInstruction raw))

/-- An error is precise (R174, R175; D14, D22): whatever ends the run, no register or flag is written, `PC` is the fetch
address or one more, only KBSR and KBDR may have been polled, what was written before stays in the log, and there is no
next step. That an error is a next state and a step after it a fault is the model's choice (log entry 10). -/
def Obligations.ErrorsArePrecise : Prop :=
  ∀ (s t : State) (e : RunError), step s = .next t → t.status = .aborted e →
    sameRegs s t ∧ (t.pc = s.pc ∨ t.pc = s.pc + 1#16) ∧ t.trap = none ∧
    (∀ a, a ≠ 0xFE00#16 → a ≠ 0xFE02#16 → t.cell a = s.cell a) ∧
    (∃ es, t.output = s.output ++ es) ∧ step t = .fault (.aborted e)

/-! ### The sequencer -/

/-- A step runs the decoded instruction (R90, R92, R94): between instructions and away from the PC limit, the step is `exec`
of what the fetched word decodes to, in the state after the fetch. Away from KBSR the fetch takes the stored word and adds
one to `PC`; at KBSR it takes the word the poll left. -/
def Obligations.StepRunsTheDecodedInstruction : Prop :=
  ∀ s : State, s.ready → s.pc ≠ 0xFFFF#16 →
    (∀ w u i, fetch s = .ok (w, u) → decode w = .ok i → step s = exec i u) ∧
    (∀ i, s.pc ≠ 0xFE00#16 → decode (s.cell s.pc) = .ok i → step s = exec i (s.setPC (s.pc + 1#16))) ∧
    (∀ u i, s.pc = 0xFE00#16 → keyboardPoll s = .ok u → decode (u.cell 0xFE00#16) = .ok i →
      step s = exec i (u.setPC 0xFE01#16))

/-- The fetch advances `PC` by one (R23, R92), so an instruction sees its own address plus one, and every instruction that is not
a control transfer leaves `PC` at that value; so does every later micro-step of a trap routine. -/
def Obligations.OnlyControlTransfersMoveThePC : Prop :=
  (∀ (s u : State) (w : Word), fetch s = .ok (w, u) → u.pc = s.pc + 1#16) ∧
  (∀ (i : Instr) (s t : State), transfersControl i = false → exec i s = .next t → t.pc = s.pc) ∧
  (∀ (s t : State) (p : TrapProgress), s.trap = some p → step s = .next t → t.pc = s.pc)

/-- At PC = 0xFFFF nothing is fetched: the run ends normally with `LimitReached` and nothing else changes (R91; D13). That a
step after this end, which is a normal one, is a fault is the model's choice (log entry 10). -/
def Obligations.PcLimitEndsTheRun : Prop :=
  ∀ s : State, s.ready → s.pc = 0xFFFF#16 →
    ∃ t, step s = .next t ∧ t.status = .limitReached ∧ t.status.normalEnd = true ∧ t.trap = none ∧ t.pc = s.pc ∧
      sameRegs s t ∧ sameMemory s t ∧ sameIO s t ∧ step t = .fault .limitReached

/-- A fetch at KBSR whose poll fails ends the run with `PC` not advanced and nothing else changed (R92, R174; D10, D14); one
whose poll has no answer has no successor (R97). -/
def Obligations.FailedFetchPollLeavesThePC : Prop :=
  ∀ (s : State) (x : Stop), s.ready → s.pc = 0xFE00#16 → keyboardPoll s = .error x →
    stops x s (step s) ∧ (x = .abort (.ioError .poll) ∨ x = .wait)

/-- A running machine has a next state unless it waits for the host (R97), which it never does when the host answers; a run
that has ended has none (R31, R96): no instruction and no word is refused. That an error is a next state and that a step of an
ended run is a fault is the model's choice (log entry 10), and so is the outcome that stands for having no successor (log
entry 9). -/
def Obligations.RunningMachinesStepAndEndedRunsDoNot : Prop :=
  ∀ s : State,
    (s.status = .running → (∃ t, step s = .next t) ∨ step s = .fault .waiting) ∧
    (s.status = .running → s.hostAnswers → ∃ t, step s = .next t ∧ t.hostAnswers) ∧
    (s.status = .halted → step s = .fault .halted) ∧
    (s.status = .limitReached → step s = .fault .limitReached) ∧
    (∀ e, s.status = .aborted e → step s = .fault (.aborted e))

/-- A waiting read has no successor while the host has not answered (R97, D29); it completes with the byte that arrives, as
GETC does, and ends the run with `R0` unwritten at the end of the input or on a failed read (R141, R144; D16). A poll that
waits leaves an instruction at KBSR without a successor too. The outcome that stands for having no successor is the model's
(log entry 9). -/
def Obligations.WaitingReadStaysUntilAByteArrives : Prop :=
  (∀ s : State, s.status = .running → s.trap = some .reading →
    (s.byteAt 0 = .waiting → step s = .fault .waiting) ∧
    (∀ b, s.byteAt 0 = .byte b → ∃ t, step s = .next t ∧ byteTaken b s t) ∧
    (s.byteAt 0 = .eof → ∃ t, step s = .next t ∧ abortOnly (.ioError .eof) s t) ∧
    (s.byteAt 0 = .fail → ∃ t, step s = .next t ∧ abortOnly (.ioError .read) s t)) ∧
  (∀ s : State, s.ready → s.pc ≠ 0xFFFF#16 → s.pc ≠ 0xFE00#16 → decode (s.cell s.pc) = .ok .trapGetc →
    s.byteAt 0 = .waiting → step s = .fault .waiting) ∧
  (∀ (s : State) (dr : Reg) (off : Word), s.pc + off = 0xFE00#16 → s.pollSignal = .waiting →
    exec (.ld dr off) s = .fault .waiting)

/-- A store to the next instruction's word changes what is fetched next (R56; D28): ST with offset 0 stores the word that
the next step executes. -/
def Obligations.StoredWordIsFetchedNext : Prop :=
  ∀ (sr : Reg) (s : State), s.ready → s.pc ≠ 0xFFFF#16 → s.pc ≠ 0xFE00#16 →
    ∃ t, exec (.st sr 0x0000#16) s = .next t ∧ t.pc = s.pc ∧
      step t = exec (decodeWord (s.reg sr)) (t.setPC (s.pc + 1#16))

/-- A word placed at the fetch is the one the very next step executes, from any state (log entry 7). -/
def Obligations.PlacedWordIsExecutedNext : Prop :=
  ∀ (s : State) (w : Word), ∃ u : State,
    step (s.withFetchWord 16 w.toNat) = exec (decodeWord w) u ∧
    u.pc = (s.withFetchWord 16 w.toNat).pc + 1#16 ∧ u.status = .running ∧ u.trap = none ∧
    (s.pc ≠ 0xFFFF#16 → s.pc ≠ 0xFE00#16 → u.pc = s.pc + 1#16) ∧
    sameRegs s u ∧ sameIO s u ∧ u.params = s.params ∧ sameMemoryBut (s.withFetchWord 16 w.toNat).pc s u

/-! ### Whole-machine rules -/

/-- Every step keeps the invariant: memory in canonical form, a legal `COND` (R25), no routine in progress after the end of
a run, and no unreachable error (R171, R172). -/
def Obligations.StepKeepsTheInvariant : Prop :=
  ∀ s t : State, s.Inv → step s = .next t → t.Inv

/-- The invariant holds of every created machine whose `MEM_INIT` is in canonical form, and of the reset state. -/
def Obligations.CreationMeetsTheInvariant : Prop :=
  (∀ (p : Config.Params) (m : Memory) (h : HostScript), m.wf → (State.create p m h).Inv) ∧ State.reset.Inv

/-- R29: once a flag-setting instruction has run (GETC and IN are such under `TRAP_READ_SETS_CC`), `COND` is one-hot, and
it stays so; before the first it is 0, and a BR executed then is not taken. The values of Z and N are the spec's D2. -/
def Obligations.CondIsOneHotOnceSet : Prop :=
  (∀ (i : Instr) (s t : State), setsFlags i = true → exec i s = .next t →
    oneHot t.cond ∨ ∃ e, t.status = .aborted e) ∧
  (∀ (i : Instr) (s t : State), readsInput i = true → s.params.trapReadSetsCC = true → exec i s = .next t →
    t.trap = none → oneHot t.cond ∨ ∃ e, t.status = .aborted e) ∧
  (∀ s t : State, oneHot s.cond → step s = .next t → oneHot t.cond) ∧
  (∀ s t : State, s.cond = 0x0000#16 → step s = .next t → t.cond = 0x0000#16 ∨ oneHot t.cond) ∧
  (∀ (i : Instr) (s t : State), setsFlags i = false → readsInput i = false → exec i s = .next t → t.cond = s.cond) ∧
  (∀ (mask : BitVec 3) (off : Word) (s : State), s.cond = 0x0000#16 → exec (.br mask off) s = .next s) ∧
  State.reset.cond = 0x0000#16

/-- The table of the writers of the general registers (R22). No other instruction writes one, no fetch and no poll of the host
writes one, and a step that executes no instruction writes none, except the read that completes a waiting IN, which writes
`R0`. That IN can wait between two steps and that a string routine takes several are log entries 9 and 20. -/
def Obligations.OnlyListedInstructionsWriteRegisters : Prop :=
  (∀ (s u : State) (w : Word), fetch s = .ok (w, u) → ∀ r, u.reg r = s.reg r) ∧
  (∀ s u : State, keyboardPoll s = .ok u → ∀ r, u.reg r = s.reg r) ∧
  (∀ (i : Instr) (s t : State), exec i s = .next t → ∀ r, writtenReg i ≠ some r → t.reg r = s.reg r) ∧
  (∀ (s t : State) (p : TrapProgress), s.trap = some p → step s = .next t →
    ∀ r, r ≠ .r0 ∨ p ≠ .reading → t.reg r = s.reg r) ∧
  (∀ (s t : State), s.ready → s.pc = 0xFFFF#16 → step s = .next t → ∀ r, t.reg r = s.reg r) ∧
  (∀ (s t : State) (e : RunError), step s = .next t → t.status = .aborted e → ∀ r, t.reg r = s.reg r)

/-- The writers of `COND` (R27; D16): the flag-setting instructions set it from their destination register; GETC and IN,
executed or waiting, only under `TRAP_READ_SETS_CC`; nothing else. -/
def Obligations.OnlyListedInstructionsWriteFlags : Prop :=
  (∀ (s u : State) (w : Word), fetch s = .ok (w, u) → u.cond = s.cond) ∧
  (∀ (i : Instr) (s t : State), exec i s = .next t →
    (setsFlags i = true → (∀ e, t.status ≠ .aborted e) → ∃ r, writtenReg i = some r ∧ flagsOf (t.reg r) t.cond) ∧
    (setsFlags i = false → (readsInput i = false ∨ s.params.trapReadSetsCC = false) → t.cond = s.cond)) ∧
  (∀ (s t : State) (p : TrapProgress), s.trap = some p → step s = .next t →
    (p ≠ .reading ∨ s.params.trapReadSetsCC = false) → t.cond = s.cond)

/-- Only BR reads `COND` (R28): any other instruction does the same from a state that differs in `COND` alone. -/
def Obligations.OnlyBranchReadsCond : Prop :=
  ∀ (i : Instr) (s t : State) (c : Word), (∀ mask off, i ≠ .br mask off) → exec i s = .next t →
    ∃ u, exec i { s with cond := c } = .next u ∧ { u with cond := t.cond } = t ∧
      (u.cond = t.cond ∨ (u.cond = c ∧ t.cond = s.cond))

/-- An instruction writes memory only at the address it stores to, and at KBSR and KBDR if one of its reads is at KBSR (R42,
R44, R51); the addresses are those its meaning computes. So it is with the fetch and with the micro-steps of a routine in
progress (R47, R148). -/
def Obligations.OnlyStoresAndPollsWriteMemory : Prop :=
  (∀ (i : Instr) (s t : State), exec i s = .next t →
    ∀ a, storeAddress i s ≠ some a → (a ≠ 0xFE00#16 ∧ a ≠ 0xFE02#16) ∨ 0xFE00#16 ∉ readAddresses i s →
      t.cell a = s.cell a) ∧
  (∀ (s u : State) (w : Word), fetch s = .ok (w, u) →
    ∀ a, (a ≠ 0xFE00#16 ∧ a ≠ 0xFE02#16) ∨ s.pc ≠ 0xFE00#16 → u.cell a = s.cell a) ∧
  (∀ (s t : State) (p : TrapProgress), s.trap = some p → step s = .next t →
    ∀ a, (a ≠ 0xFE00#16 ∧ a ≠ 0xFE02#16) ∨ p.readAddress ≠ some 0xFE00#16 → t.cell a = s.cell a)

/-- The output log only grows (R33, R34; D20), input bytes are consumed in order from one stream with the input position
counting them (R33, R44), and the parameters never change (R6). -/
def Obligations.StepsAppendOutputAndConsumeInputInOrder : Prop :=
  ∀ s t : State, step s = .next t →
    (∃ es, t.output = s.output ++ es) ∧ (∃ n, consumed n s t) ∧ t.params = s.params

/-- The host's draws (R13; D8) as the model's script gives them (log entry 5): the listed bytes come first and then what the
stream's end says, which may be bytes for ever; the listed signals come first, one for each poll that goes on, and then every
signal is ready, or each is ready or not as a free value says. So a host may be ready at every poll for ever, and a loop that
reads KBSR until bit 15 is clear need not end. -/
def Obligations.HostsMayAnswerForEver : Prop :=
  (∀ (s : State) (b : Byte) (rest : List Byte), s.host.input = b :: rest → s.byteAt 0 = .byte b) ∧
  (∀ (s : State) (k : Nat), s.host.input = [] →
    (s.host.inputEnd = .waiting → s.byteAt k = .waiting) ∧ (s.host.inputEnd = .eof → s.byteAt k = .eof) ∧
    (s.host.inputEnd = .fail → s.byteAt k = .fail) ∧ (s.host.inputEnd = .free → ∃ b, s.byteAt k = .byte b)) ∧
  (∀ (s : State) (p : PollSignal) (rest : List PollSignal), s.host.polls = p :: rest →
    s.pollSignal = p ∧ ∀ t, keyboardPoll s = .ok t → t.host.polls = rest) ∧
  (∀ s : State, s.host.polls = [] →
    (s.host.pollsEnd = .whenByte → s.pollSignal = .ready) ∧
    (s.host.pollsEnd = .free → s.pollSignal = .ready ∨ s.pollSignal = .notReady)) ∧
  (∀ s : State, s.host.inputEnd = .free → s.host.polls = [] → s.host.pollsEnd = .whenByte →
    ∃ t, keyboardPoll s = .ok t ∧ t.cell 0xFE00#16 = 0x8000#16 ∧
      t.host.inputEnd = .free ∧ t.host.polls = [] ∧ t.host.pollsEnd = .whenByte)
end

