-- ==== Sys2Proof/Laws/Decode.lean ====
section
/-! SUPPORT. The fields of a word and of an encoded instruction. -/

namespace Sys2Proof

@[simp] theorem Reg.ofBits_toBits (r : Reg) : Reg.ofBits r.toBits = r := by cases r <;> rfl

@[simp] theorem Reg.toBits_ofBits (b : BitVec 3) : (Reg.ofBits b).toBits = b := by
  revert b; decide

/-- A field in the range of its width is the sign extension of its low bits (R63). -/
theorem sext_setWidth {n : Nat} (hn : 0 < n) (h16 : n ≤ 16) {v : Word} (h : fitsSigned n v = true) :
    sext (v.setWidth n) = v := by
  unfold fitsSigned at h
  simp only [Bool.and_eq_true, decide_eq_true_eq] at h
  apply BitVec.eq_of_toInt_eq
  unfold sext
  obtain ⟨m, rfl⟩ : ∃ m, n = m + 1 := ⟨n - 1, by omega⟩
  have hv : v.toInt.bmod (2 ^ (m + 1)) = (v.toNat : Int).bmod (2 ^ (m + 1)) := by
    rw [BitVec.toInt_eq_toNat_bmod, Int.bmod_bmod_of_dvd]
    exact Nat.pow_dvd_pow 2 h16
  rw [BitVec.toInt_signExtend_of_le h16, BitVec.toInt_setWidth, ← hv]
  rw [Nat.add_sub_cancel] at h
  have e : ((2 ^ (m + 1) : Nat) : Int) = 2 * 2 ^ m := by rw [Nat.pow_succ]; push_cast; ring
  apply Int.bmod_eq_of_le
  all_goals rw [e]; omega

/-! ### The layouts of R65: the bits of each field of an encoded word -/

section
variable {v w : Nat} (x : BitVec v) (y : BitVec w)

/-- A field within the low part of an append. -/
theorem low_field {s l : Nat} (h : s + l ≤ w) : (x ++ y).extractLsb' s l = y.extractLsb' s l :=
  BitVec.extractLsb'_append_eq_of_add_le h

/-- A field within the high part of an append. -/
theorem high_field {s l : Nat} (h : w ≤ s) : (x ++ y).extractLsb' s l = x.extractLsb' (s - w) l :=
  BitVec.extractLsb'_append_eq_of_le h

/-- The whole of a vector is its field from bit 0. -/
theorem whole_field : y.extractLsb' 0 w = y := BitVec.extractLsb'_eq_self

end

section
variable (op : BitVec 4)

/-- Opcode, one register, a 9-bit field. -/
theorem layout_reg_off9 (r : BitVec 3) (f : BitVec 9) :
    (op ++ r ++ f : Word).extractLsb' 12 4 = op ∧ (op ++ r ++ f : Word).extractLsb' 9 3 = r ∧
    (op ++ r ++ f : Word).extractLsb' 0 9 = f :=
  ⟨(high_field (op ++ r) f (by decide)).trans ((high_field op r (by decide)).trans (whole_field op)),
   (high_field (op ++ r) f (by decide)).trans ((low_field op r (by decide)).trans (whole_field r)),
   (low_field (op ++ r) f (by decide)).trans (whole_field f)⟩

/-- Opcode, two registers, a 6-bit field. -/
theorem layout_reg_reg_off6 (r q : BitVec 3) (f : BitVec 6) :
    (op ++ r ++ q ++ f : Word).extractLsb' 12 4 = op ∧ (op ++ r ++ q ++ f : Word).extractLsb' 9 3 = r ∧
    (op ++ r ++ q ++ f : Word).extractLsb' 6 3 = q ∧ (op ++ r ++ q ++ f : Word).extractLsb' 0 6 = f :=
  ⟨(high_field (op ++ r ++ q) f (by decide)).trans ((high_field (op ++ r) q (by decide)).trans
      ((high_field op r (by decide)).trans (whole_field op))),
   (high_field (op ++ r ++ q) f (by decide)).trans ((high_field (op ++ r) q (by decide)).trans
      ((low_field op r (by decide)).trans (whole_field r))),
   (high_field (op ++ r ++ q) f (by decide)).trans ((low_field (op ++ r) q (by decide)).trans (whole_field q)),
   (low_field (op ++ r ++ q) f (by decide)).trans (whole_field f)⟩

/-- Opcode, twelve bits. -/
theorem layout_low12 (f : BitVec 12) :
    (op ++ f : Word).extractLsb' 12 4 = op ∧ (op ++ f : Word).extractLsb' 0 12 = f :=
  ⟨(high_field op f (by decide)).trans (whole_field op), (low_field op f (by decide)).trans (whole_field f)⟩

/-- Opcode, four zeros, the trap vector. -/
theorem layout_vector (v : BitVec 8) :
    (op ++ 0#4 ++ v : Word).extractLsb' 12 4 = op ∧ (op ++ 0#4 ++ v : Word).extractLsb' 0 8 = v :=
  ⟨(high_field (op ++ 0#4) v (by decide)).trans ((high_field op 0#4 (by decide)).trans (whole_field op)),
   (low_field (op ++ 0#4) v (by decide)).trans (whole_field v)⟩

end

end Sys2Proof
end

