-- ==== Sys2Proof/Laws/State.lean ====
section
/-! SUPPORT. One lemma per field per update of the state, and the laws of the register file. -/

namespace Sys2Proof.Machine

/-! ### The register file -/

@[simp] theorem Regs.get_set_same (g : Regs) (r : Reg) (v : Word) : (g.set r v).get r = v := by
  cases r <;> rfl

theorem Regs.get_set_of_ne (g : Regs) {r q : Reg} (v : Word) (h : q ≠ r) : (g.set r v).get q = g.get q := by
  cases r <;> cases q <;> first | rfl | exact absurd rfl h

theorem Regs.ext_get {g h : Regs} (e : ∀ r, g.get r = h.get r) : g = h := by
  cases g; cases h
  exact Regs.mk.injEq .. |>.mpr
    ⟨e .r0, e .r1, e .r2, e .r3, e .r4, e .r5, e .r6, e .r7⟩

@[simp] theorem State.reg_setReg_same (s : State) (r : Reg) (v : Word) : (s.setReg r v).reg r = v :=
  Regs.get_set_same s.regs r v

theorem State.reg_setReg_of_ne (s : State) {r q : Reg} (v : Word) (h : q ≠ r) : (s.setReg r v).reg q = s.reg q :=
  Regs.get_set_of_ne s.regs v h

/-! ### `setReg` -/

section
variable (s : State) (r : Reg) (v : Word)
@[simp] theorem State.setReg_regs : (s.setReg r v).regs = s.regs.set r v := rfl
@[simp] theorem State.setReg_pc : (s.setReg r v).pc = s.pc := rfl
@[simp] theorem State.setReg_cond : (s.setReg r v).cond = s.cond := rfl
@[simp] theorem State.setReg_mem : (s.setReg r v).mem = s.mem := rfl
@[simp] theorem State.setReg_status : (s.setReg r v).status = s.status := rfl
@[simp] theorem State.setReg_trap : (s.setReg r v).trap = s.trap := rfl
@[simp] theorem State.setReg_inputPos : (s.setReg r v).inputPos = s.inputPos := rfl
@[simp] theorem State.setReg_output : (s.setReg r v).output = s.output := rfl
@[simp] theorem State.setReg_host : (s.setReg r v).host = s.host := rfl
@[simp] theorem State.setReg_params : (s.setReg r v).params = s.params := rfl
@[simp] theorem State.setReg_cell (a : Word) : (s.setReg r v).cell a = s.cell a := rfl
end

/-! ### `setPC` -/

section
variable (s : State) (v : Word)
@[simp] theorem State.setPC_regs : (s.setPC v).regs = s.regs := rfl
@[simp] theorem State.setPC_pc : (s.setPC v).pc = v := rfl
@[simp] theorem State.setPC_cond : (s.setPC v).cond = s.cond := rfl
@[simp] theorem State.setPC_mem : (s.setPC v).mem = s.mem := rfl
@[simp] theorem State.setPC_status : (s.setPC v).status = s.status := rfl
@[simp] theorem State.setPC_trap : (s.setPC v).trap = s.trap := rfl
@[simp] theorem State.setPC_inputPos : (s.setPC v).inputPos = s.inputPos := rfl
@[simp] theorem State.setPC_output : (s.setPC v).output = s.output := rfl
@[simp] theorem State.setPC_host : (s.setPC v).host = s.host := rfl
@[simp] theorem State.setPC_params : (s.setPC v).params = s.params := rfl
@[simp] theorem State.setPC_reg (r : Reg) : (s.setPC v).reg r = s.reg r := rfl
@[simp] theorem State.setPC_cell (a : Word) : (s.setPC v).cell a = s.cell a := rfl
end

/-! ### `memWrite` -/

section
variable (s : State) (a v : Word)
@[simp] theorem State.memWrite_regs : (s.memWrite a v).regs = s.regs := rfl
@[simp] theorem State.memWrite_pc : (s.memWrite a v).pc = s.pc := rfl
@[simp] theorem State.memWrite_cond : (s.memWrite a v).cond = s.cond := rfl
@[simp] theorem State.memWrite_mem : (s.memWrite a v).mem = s.mem.write a.toNat v := rfl
@[simp] theorem State.memWrite_status : (s.memWrite a v).status = s.status := rfl
@[simp] theorem State.memWrite_trap : (s.memWrite a v).trap = s.trap := rfl
@[simp] theorem State.memWrite_inputPos : (s.memWrite a v).inputPos = s.inputPos := rfl
@[simp] theorem State.memWrite_output : (s.memWrite a v).output = s.output := rfl
@[simp] theorem State.memWrite_host : (s.memWrite a v).host = s.host := rfl
@[simp] theorem State.memWrite_params : (s.memWrite a v).params = s.params := rfl
@[simp] theorem State.memWrite_reg (r : Reg) : (s.memWrite a v).reg r = s.reg r := rfl
end

/-! ### `consume` and `dropPoll` -/

section
variable (s : State) (n : Nat)
@[simp] theorem State.consume_regs : (s.consume n).regs = s.regs := rfl
@[simp] theorem State.consume_pc : (s.consume n).pc = s.pc := rfl
@[simp] theorem State.consume_cond : (s.consume n).cond = s.cond := rfl
@[simp] theorem State.consume_mem : (s.consume n).mem = s.mem := rfl
@[simp] theorem State.consume_status : (s.consume n).status = s.status := rfl
@[simp] theorem State.consume_trap : (s.consume n).trap = s.trap := rfl
@[simp] theorem State.consume_inputPos : (s.consume n).inputPos = s.inputPos + n := rfl
@[simp] theorem State.consume_output : (s.consume n).output = s.output := rfl
@[simp] theorem State.consume_params : (s.consume n).params = s.params := rfl
@[simp] theorem State.consume_input : (s.consume n).host.input = s.host.input.drop n := rfl
@[simp] theorem State.consume_inputEnd : (s.consume n).host.inputEnd = s.host.inputEnd := rfl
@[simp] theorem State.consume_polls : (s.consume n).host.polls = s.host.polls := rfl
@[simp] theorem State.consume_pollsEnd : (s.consume n).host.pollsEnd = s.host.pollsEnd := rfl
@[simp] theorem State.consume_pollCount : (s.consume n).host.pollCount = s.host.pollCount := rfl
@[simp] theorem State.consume_writes : (s.consume n).host.writes = s.host.writes := rfl
@[simp] theorem State.consume_flushes : (s.consume n).host.flushes = s.host.flushes := rfl
@[simp] theorem State.consume_reg (r : Reg) : (s.consume n).reg r = s.reg r := rfl
@[simp] theorem State.consume_cell (a : Word) : (s.consume n).cell a = s.cell a := rfl
@[simp] theorem State.dropPoll_regs : s.dropPoll.regs = s.regs := rfl
@[simp] theorem State.dropPoll_pc : s.dropPoll.pc = s.pc := rfl
@[simp] theorem State.dropPoll_cond : s.dropPoll.cond = s.cond := rfl
@[simp] theorem State.dropPoll_mem : s.dropPoll.mem = s.mem := rfl
@[simp] theorem State.dropPoll_status : s.dropPoll.status = s.status := rfl
@[simp] theorem State.dropPoll_trap : s.dropPoll.trap = s.trap := rfl
@[simp] theorem State.dropPoll_inputPos : s.dropPoll.inputPos = s.inputPos := rfl
@[simp] theorem State.dropPoll_output : s.dropPoll.output = s.output := rfl
@[simp] theorem State.dropPoll_params : s.dropPoll.params = s.params := rfl
@[simp] theorem State.dropPoll_input : s.dropPoll.host.input = s.host.input := rfl
@[simp] theorem State.dropPoll_inputEnd : s.dropPoll.host.inputEnd = s.host.inputEnd := rfl
@[simp] theorem State.dropPoll_polls : s.dropPoll.host.polls = s.host.polls.tail := rfl
@[simp] theorem State.dropPoll_pollsEnd : s.dropPoll.host.pollsEnd = s.host.pollsEnd := rfl
@[simp] theorem State.dropPoll_pollCount : s.dropPoll.host.pollCount = s.host.pollCount + 1 := rfl
@[simp] theorem State.dropPoll_writes : s.dropPoll.host.writes = s.host.writes := rfl
@[simp] theorem State.dropPoll_flushes : s.dropPoll.host.flushes = s.host.flushes := rfl
@[simp] theorem State.dropPoll_reg (r : Reg) : s.dropPoll.reg r = s.reg r := rfl
@[simp] theorem State.dropPoll_cell (a : Word) : s.dropPoll.cell a = s.cell a := rfl
end

/-! ### `afterWrite` and `afterFlush` -/

section
variable (s : State) (b : Byte)
@[simp] theorem State.afterWrite_regs : (s.afterWrite b).regs = s.regs := rfl
@[simp] theorem State.afterWrite_pc : (s.afterWrite b).pc = s.pc := rfl
@[simp] theorem State.afterWrite_cond : (s.afterWrite b).cond = s.cond := rfl
@[simp] theorem State.afterWrite_mem : (s.afterWrite b).mem = s.mem := rfl
@[simp] theorem State.afterWrite_status : (s.afterWrite b).status = s.status := rfl
@[simp] theorem State.afterWrite_trap : (s.afterWrite b).trap = s.trap := rfl
@[simp] theorem State.afterWrite_inputPos : (s.afterWrite b).inputPos = s.inputPos := rfl
@[simp] theorem State.afterWrite_params : (s.afterWrite b).params = s.params := rfl
@[simp] theorem State.afterWrite_output : (s.afterWrite b).output = s.output ++ [.write b] := rfl
@[simp] theorem State.afterWrite_input : (s.afterWrite b).host.input = s.host.input := rfl
@[simp] theorem State.afterWrite_inputEnd : (s.afterWrite b).host.inputEnd = s.host.inputEnd := rfl
@[simp] theorem State.afterWrite_polls : (s.afterWrite b).host.polls = s.host.polls := rfl
@[simp] theorem State.afterWrite_pollsEnd : (s.afterWrite b).host.pollsEnd = s.host.pollsEnd := rfl
@[simp] theorem State.afterWrite_pollCount : (s.afterWrite b).host.pollCount = s.host.pollCount := rfl
@[simp] theorem State.afterWrite_writes : (s.afterWrite b).host.writes = s.host.writes.tail := rfl
@[simp] theorem State.afterWrite_flushes : (s.afterWrite b).host.flushes = s.host.flushes := rfl
@[simp] theorem State.afterWrite_reg (r : Reg) : (s.afterWrite b).reg r = s.reg r := rfl
@[simp] theorem State.afterWrite_cell (a : Word) : (s.afterWrite b).cell a = s.cell a := rfl
@[simp] theorem State.afterFlush_regs : (s.afterFlush).regs = s.regs := rfl
@[simp] theorem State.afterFlush_pc : (s.afterFlush).pc = s.pc := rfl
@[simp] theorem State.afterFlush_cond : (s.afterFlush).cond = s.cond := rfl
@[simp] theorem State.afterFlush_mem : (s.afterFlush).mem = s.mem := rfl
@[simp] theorem State.afterFlush_status : (s.afterFlush).status = s.status := rfl
@[simp] theorem State.afterFlush_trap : (s.afterFlush).trap = s.trap := rfl
@[simp] theorem State.afterFlush_inputPos : (s.afterFlush).inputPos = s.inputPos := rfl
@[simp] theorem State.afterFlush_params : (s.afterFlush).params = s.params := rfl
@[simp] theorem State.afterFlush_output : (s.afterFlush).output = s.output ++ [.flush] := rfl
@[simp] theorem State.afterFlush_input : (s.afterFlush).host.input = s.host.input := rfl
@[simp] theorem State.afterFlush_inputEnd : (s.afterFlush).host.inputEnd = s.host.inputEnd := rfl
@[simp] theorem State.afterFlush_polls : (s.afterFlush).host.polls = s.host.polls := rfl
@[simp] theorem State.afterFlush_pollsEnd : (s.afterFlush).host.pollsEnd = s.host.pollsEnd := rfl
@[simp] theorem State.afterFlush_pollCount : (s.afterFlush).host.pollCount = s.host.pollCount := rfl
@[simp] theorem State.afterFlush_writes : (s.afterFlush).host.writes = s.host.writes := rfl
@[simp] theorem State.afterFlush_flushes : (s.afterFlush).host.flushes = s.host.flushes.tail := rfl
@[simp] theorem State.afterFlush_reg (r : Reg) : (s.afterFlush).reg r = s.reg r := rfl
@[simp] theorem State.afterFlush_cell (a : Word) : (s.afterFlush).cell a = s.cell a := rfl
end

/-! ### The input stream -/

section
variable (s : State) (a v : Word) (b : Byte) (r : Reg) (n k : Nat)
@[simp] theorem State.setReg_byteAt : (s.setReg r v).byteAt k = s.byteAt k := rfl
@[simp] theorem State.setPC_byteAt : (s.setPC v).byteAt k = s.byteAt k := rfl
@[simp] theorem State.memWrite_byteAt : (s.memWrite a v).byteAt k = s.byteAt k := rfl
@[simp] theorem State.dropPoll_byteAt : s.dropPoll.byteAt k = s.byteAt k := rfl
@[simp] theorem State.afterWrite_byteAt : (s.afterWrite b).byteAt k = s.byteAt k := rfl
@[simp] theorem State.afterFlush_byteAt : s.afterFlush.byteAt k = s.byteAt k := rfl

/-- Consuming `n` bytes moves the stream on by `n`. -/
@[simp] theorem State.consume_byteAt : (s.consume n).byteAt k = s.byteAt (n + k) := by
  unfold State.byteAt
  simp only [State.consume_input, State.consume_inputEnd, State.consume_inputPos, List.getElem?_drop, Nat.add_assoc]
end

/-- A write changes exactly what `outputOnly` says. -/
theorem State.afterWrite_outputOnly (s : State) (b : Byte) : outputOnly [.write b] s (s.afterWrite b) :=
  ⟨rfl, rfl, ⟨fun _ => rfl, rfl⟩, fun _ => rfl, rfl, rfl, rfl⟩

/-- A flush changes exactly what `outputOnly` says. -/
theorem State.afterFlush_outputOnly (s : State) : outputOnly [.flush] s s.afterFlush :=
  ⟨rfl, rfl, ⟨fun _ => rfl, rfl⟩, fun _ => rfl, rfl, rfl, rfl⟩

/-! ### The result of an instruction -/

section
variable (r : Reg) (v : Word) (s : State)
@[simp] theorem updateFlags_regs : (updateFlags r s).regs = s.regs := rfl
@[simp] theorem updateFlags_pc : (updateFlags r s).pc = s.pc := rfl
@[simp] theorem updateFlags_cond : (updateFlags r s).cond = condOf (s.reg r) := rfl
@[simp] theorem updateFlags_mem : (updateFlags r s).mem = s.mem := rfl
@[simp] theorem updateFlags_status : (updateFlags r s).status = s.status := rfl
@[simp] theorem updateFlags_trap : (updateFlags r s).trap = s.trap := rfl
@[simp] theorem updateFlags_inputPos : (updateFlags r s).inputPos = s.inputPos := rfl
@[simp] theorem updateFlags_output : (updateFlags r s).output = s.output := rfl
@[simp] theorem updateFlags_host : (updateFlags r s).host = s.host := rfl
@[simp] theorem updateFlags_params : (updateFlags r s).params = s.params := rfl
@[simp] theorem updateFlags_reg (q : Reg) : (updateFlags r s).reg q = s.reg q := rfl
@[simp] theorem updateFlags_cell (a : Word) : (updateFlags r s).cell a = s.cell a := rfl
@[simp] theorem writeResult_regs : (writeResult r v s).regs = s.regs.set r v := rfl
@[simp] theorem writeResult_pc : (writeResult r v s).pc = s.pc := rfl
@[simp] theorem writeResult_mem : (writeResult r v s).mem = s.mem := rfl
@[simp] theorem writeResult_status : (writeResult r v s).status = s.status := rfl
@[simp] theorem writeResult_trap : (writeResult r v s).trap = s.trap := rfl
@[simp] theorem writeResult_inputPos : (writeResult r v s).inputPos = s.inputPos := rfl
@[simp] theorem writeResult_output : (writeResult r v s).output = s.output := rfl
@[simp] theorem writeResult_host : (writeResult r v s).host = s.host := rfl
@[simp] theorem writeResult_params : (writeResult r v s).params = s.params := rfl
@[simp] theorem writeResult_cell (a : Word) : (writeResult r v s).cell a = s.cell a := rfl

@[simp] theorem writeResult_cond : (writeResult r v s).cond = condOf v :=
  congrArg condOf (s.reg_setReg_same r v)

@[simp] theorem writeResult_reg_same : (writeResult r v s).reg r = v := s.reg_setReg_same r v

theorem writeResult_reg_of_ne {q : Reg} (h : q ≠ r) : (writeResult r v s).reg q = s.reg q :=
  s.reg_setReg_of_ne v h

end

/-! ### Flags -/

theorem condOf_oneHot (v : Word) : oneHot (condOf v) := by
  unfold condOf oneHot condZ condN condP
  split
  · simp
  · split <;> simp

theorem condOf_flagsOf (v : Word) : flagsOf v (condOf v) := by
  unfold flagsOf condOf condZ condN condP
  refine ⟨fun h => by rw [if_pos h], fun h hb => by rw [if_neg h, if_pos hb], fun h hb => ?_⟩
  rw [if_neg h, if_neg (by rw [hb]; exact Bool.false_ne_true)]

/-- A result write changes exactly what `resultOnly` says. -/
theorem writeResult_resultOnly (dr : Reg) (v : Word) (s : State) : resultOnly dr v s (writeResult dr v s) :=
  ⟨by simp, fun _ h => writeResult_reg_of_ne dr v s h, by simpa using condOf_flagsOf v, rfl, fun _ => rfl,
    ⟨rfl, rfl, rfl⟩, ⟨rfl, rfl, rfl⟩⟩

end Sys2Proof.Machine
end

