-- ==== Sys2Proof/Laws/Memory.lean ====
section
/-! SUPPORT. The laws of memory: a read after a write, the canonical form, and that canonical memories with equal words are
equal. -/

namespace Sys2Proof.Machine

open Config (unlistedWord)

theorem Memory.read_erase_same (m : Memory) (a : Nat) : (m.erase a).read a = unlistedWord := by
  unfold Memory.erase
  induction m with
  | nil => rfl
  | cons c rest ih =>
    obtain ⟨k, x⟩ := c
    by_cases h : k = a
    · simpa [List.filter_cons, h] using ih
    · simpa [List.filter_cons, h, Memory.read] using ih

theorem Memory.read_erase_of_ne (m : Memory) {a b : Nat} (h : b ≠ a) : (m.erase a).read b = m.read b := by
  unfold Memory.erase
  induction m with
  | nil => rfl
  | cons c rest ih =>
    obtain ⟨k, x⟩ := c
    by_cases hk : k = a
    · subst hk; simpa [List.filter_cons, Memory.read, Ne.symm h] using ih
    · by_cases hb : k = b
      · subst hb; simp [h, Memory.read]
      · simpa [List.filter_cons, hk, Memory.read, hb] using ih

theorem Memory.erase_ne (m : Memory) (a : Nat) : ∀ c ∈ m.erase a, c.1 ≠ a := by
  intro c hc
  simpa using (List.mem_filter.mp hc).2

theorem Memory.read_insert_same (m : Memory) (a : Nat) (v : Word) (h : ∀ c ∈ m, c.1 ≠ a) :
    (m.insert a v).read a = v := by
  induction m with
  | nil => simp [Memory.insert, Memory.read]
  | cons c rest ih =>
    obtain ⟨k, x⟩ := c
    have hk : k ≠ a := h (k, x) (by simp)
    have := ih (fun c hc => h c (by simp [hc]))
    by_cases hl : a < k
    · simp [Memory.insert, hl, Memory.read]
    · simp [Memory.insert, hl, Memory.read, hk, this]

theorem Memory.read_insert_of_ne (m : Memory) {a b : Nat} (v : Word) (h : b ≠ a) :
    (m.insert a v).read b = m.read b := by
  induction m with
  | nil => simp [Memory.insert, Memory.read, Ne.symm h]
  | cons c rest ih =>
    obtain ⟨k, x⟩ := c
    by_cases hl : a < k
    · simp [Memory.insert, hl, Memory.read, Ne.symm h]
    · simp [Memory.insert, hl, Memory.read, ih]

/-- A word reads back as it was stored (R42, R54). -/
@[simp] theorem Memory.read_write_same (m : Memory) (a : Nat) (v : Word) : (m.write a v).read a = v := by
  unfold Memory.write
  split
  · next h => rw [h]; exact m.read_erase_same a
  · exact Memory.read_insert_same _ a v (m.erase_ne a)

/-- A store leaves every other address alone (R42). -/
theorem Memory.read_write_of_ne (m : Memory) {a b : Nat} (v : Word) (h : b ≠ a) :
    (m.write a v).read b = m.read b := by
  unfold Memory.write
  split
  · exact m.read_erase_of_ne h
  · rw [Memory.read_insert_of_ne _ v h, m.read_erase_of_ne h]

theorem Memory.mem_insert {m : Memory} {a : Nat} {v : Word} {c : Nat × Word} (h : c ∈ m.insert a v) :
    c = (a, v) ∨ c ∈ m := by
  induction m with
  | nil => simpa [Memory.insert] using h
  | cons d rest ih =>
    obtain ⟨k, x⟩ := d
    by_cases hl : a < k
    · simpa [Memory.insert, hl] using h
    · rw [Memory.insert, if_neg hl] at h
      rcases List.mem_cons.mp h with h | h
      · simp [h]
      · rcases ih h with h | h <;> simp [h]

theorem Memory.insert_sorted (m : Memory) (a : Nat) (v : Word) (hs : m.Pairwise (fun c d => c.1 < d.1))
    (h : ∀ c ∈ m, c.1 ≠ a) : (m.insert a v).Pairwise (fun c d => c.1 < d.1) := by
  induction m with
  | nil => simp [Memory.insert]
  | cons d rest ih =>
    obtain ⟨k, x⟩ := d
    have hk : k ≠ a := h (k, x) (by simp)
    rw [List.pairwise_cons] at hs
    by_cases hl : a < k
    · rw [Memory.insert, if_pos hl, List.pairwise_cons, List.pairwise_cons]
      refine ⟨fun c hc => ?_, hs⟩
      rcases List.mem_cons.mp hc with rfl | hc
      · exact hl
      · exact Nat.lt_trans hl (hs.1 c hc)
    · rw [Memory.insert, if_neg hl, List.pairwise_cons]
      refine ⟨fun c hc => ?_, ih hs.2 (fun c hc => h c (by simp [hc]))⟩
      rcases Memory.mem_insert hc with rfl | hc
      · show k < a; omega
      · exact hs.1 c hc

/-- A store within the address space keeps the canonical form. -/
theorem Memory.write_wf {m : Memory} (h : m.wf) {a : Nat} (ha : a < Config.memorySize) (v : Word) :
    (m.write a v).wf := by
  have he : (m.erase a).wf := ⟨h.1.filter _, fun c hc => h.2 c (List.mem_filter.mp hc).1⟩
  unfold Memory.write
  split
  · exact he
  · next hv =>
    refine ⟨Memory.insert_sorted _ a v he.1 (m.erase_ne a), fun c hc => ?_⟩
    rcases Memory.mem_insert hc with rfl | hc
    · exact ⟨ha, hv⟩
    · exact he.2 c hc

theorem Memory.read_of_lt {m : Memory} {a : Nat} (h : ∀ c ∈ m, a < c.1) : m.read a = unlistedWord := by
  induction m with
  | nil => rfl
  | cons c rest ih =>
    obtain ⟨k, x⟩ := c
    have hk : a < k := h (k, x) (by simp)
    rw [Memory.read, if_neg (by omega)]
    exact ih (fun c hc => h c (by simp [hc]))

/-- Equal memories are equal data: canonical memories that read alike everywhere are the same list. -/
theorem Memory.ext_read {m n : Memory} (hm : m.wf) (hn : n.wf) (h : ∀ a, m.read a = n.read a) : m = n := by
  induction m generalizing n with
  | nil =>
    cases n with
    | nil => rfl
    | cons d n =>
      have := h d.1
      rw [Memory.read, Memory.read, if_pos rfl] at this
      exact absurd this.symm (hn.2 d (by simp)).2
  | cons c m ih =>
    obtain ⟨k, x⟩ := c
    have hm1 := List.pairwise_cons.mp hm.1
    have hx : x ≠ unlistedWord := (hm.2 (k, x) (by simp)).2
    have hkm : Memory.read m k = unlistedWord := Memory.read_of_lt (fun c hc => hm1.1 c hc)
    cases n with
    | nil =>
      have := h k
      rw [Memory.read, Memory.read, if_pos rfl] at this
      exact absurd this hx
    | cons d n =>
      obtain ⟨l, y⟩ := d
      have hn1 := List.pairwise_cons.mp hn.1
      have hy : y ≠ unlistedWord := (hn.2 (l, y) (by simp)).2
      have hln : Memory.read n l = unlistedWord := Memory.read_of_lt (fun c hc => hn1.1 c hc)
      have hkl : k = l := by
        rcases Nat.lt_trichotomy k l with hlt | heq | hgt
        · have h1 := h k
          rw [Memory.read, if_pos rfl, Memory.read_of_lt (m := (l, y) :: n)] at h1
          · exact absurd h1 hx
          · intro c hc
            rcases List.mem_cons.mp hc with rfl | hc
            · exact hlt
            · exact Nat.lt_trans hlt (hn1.1 c hc)
        · exact heq
        · have h1 := h l
          rw [Memory.read_of_lt (m := (k, x) :: m), Memory.read, if_pos rfl] at h1
          · exact absurd h1.symm hy
          · intro c hc
            rcases List.mem_cons.mp hc with rfl | hc
            · exact hgt
            · exact Nat.lt_trans hgt (hm1.1 c hc)
      subst hkl
      have hxy : x = y := by simpa [Memory.read] using h k
      subst hxy
      refine congrArg _ (ih ⟨hm1.2, fun c hc => hm.2 c (by simp [hc])⟩
        ⟨hn1.2, fun c hc => hn.2 c (by simp [hc])⟩ (fun a => ?_))
      by_cases ha : k = a
      · subst ha; rw [hkm, hln]
      · have := h a
        rwa [Memory.read, Memory.read, if_neg ha, if_neg ha] at this

/-! ### The state's memory -/

@[simp] theorem State.cell_memWrite_same (s : State) (a v : Word) : (s.memWrite a v).cell a = v :=
  s.mem.read_write_same a.toNat v

theorem State.cell_memWrite_of_ne (s : State) {a b : Word} (v : Word) (h : b ≠ a) :
    (s.memWrite a v).cell b = s.cell b :=
  s.mem.read_write_of_ne v (fun e => h (BitVec.eq_of_toNat_eq e))

theorem State.memWrite_wf {s : State} (h : s.mem.wf) (a v : Word) : (s.memWrite a v).mem.wf :=
  Memory.write_wf h a.isLt v

/-- A store changes exactly what `storeOnly` says. -/
theorem State.memWrite_storeOnly (s : State) (a v : Word) : storeOnly a v s (s.memWrite a v) :=
  ⟨by simp, fun _ h => s.cell_memWrite_of_ne v h, rfl, ⟨fun _ => rfl, rfl⟩, ⟨rfl, rfl, rfl⟩, ⟨rfl, rfl, rfl⟩⟩

end Sys2Proof.Machine
end

