-- ==== Sys2Proof/Laws/Loader.lean ====
section
/-! SUPPORT. What the loader does to memory. -/

namespace Sys2Proof.Machine

/-- Words placed from `o` on leave every other address as it was. -/
theorem placeWords_read_of_outside (ws : List Word) (m : Memory) (o a : Nat) (h : a < o ∨ o + ws.length ≤ a) :
    (placeWords m o ws).read a = m.read a := by
  induction ws generalizing m o with
  | nil => rfl
  | cons w ws ih =>
    simp only [List.length_cons] at h
    rw [placeWords, ih _ _ (by omega), Memory.read_write_of_ne _ _ (by omega)]

/-- Words placed from `o` on are read back in order. -/
theorem placeWords_read (ws : List Word) (m : Memory) (o k : Nat) (h : k < ws.length) :
    (placeWords m o ws).read (o + k) = ws.getD k 0#16 := by
  induction ws generalizing m o k with
  | nil => cases h
  | cons w ws ih =>
    rw [placeWords]
    cases k with
    | zero => rw [placeWords_read_of_outside _ _ _ _ (by omega)]; exact Memory.read_write_same _ _ _
    | succ k => rw [← Nat.add_assoc, Nat.add_right_comm, ih _ _ _ (by simpa using h)]; simp

/-- Placing words that fit keeps the canonical form. -/
theorem placeWords_wf (ws : List Word) (m : Memory) (o : Nat) (hm : m.wf) (h : o + ws.length ≤ Config.memorySize) :
    (placeWords m o ws).wf := by
  induction ws generalizing m o with
  | nil => exact hm
  | cons w ws ih =>
    simp only [List.length_cons] at h
    exact ih _ _ (Memory.write_wf hm (by omega) _) (by omega)

/-- The big-endian word of two bytes as a number (R193). -/
theorem wordOfBytes_toNat (b0 b1 : Byte) : (wordOfBytes b0 b1).toNat = 256 * b0.toNat + b1.toNat := by
  rw [wordOfBytes, BitVec.toNat_append, ← Nat.shiftLeft_add_eq_or_of_lt b1.isLt, Nat.shiftLeft_eq]
  omega

end Sys2Proof.Machine
end

