-- ==== Sys2Proof/Laws/Ops.lean ====
section
/-! SUPPORT. One lemma per shared operation, saying once everything it can do. -/

namespace Sys2Proof.Machine

/-! ### Ending the run -/

theorem raiseAbort_next {e : RunError} {s t : State} (h : raiseAbort e s = .next t) :
    t = { s with status := .aborted e, trap := none } := by
  simpa [raiseAbort] using h.symm

theorem raiseAbort_abortOnly (e : RunError) (s : State) : ∃ t, raiseAbort e s = .next t ∧ abortOnly e s t :=
  ⟨_, rfl, rfl, rfl, rfl, ⟨fun _ => rfl, rfl⟩, fun _ => rfl, ⟨rfl, rfl, rfl⟩, rfl⟩

theorem stopWith_stops (x : Stop) (s : State) : stops x s (stopWith x s) := by
  cases x with
  | abort e => exact raiseAbort_abortOnly e s
  | wait => rfl

theorem stopWith_next {x : Stop} {s t : State} (h : stopWith x s = .next t) :
    ∃ e, x = .abort e ∧ t = { s with status := .aborted e, trap := none } := by
  cases x with
  | abort e => exact ⟨e, rfl, raiseAbort_next h⟩
  | wait => cases h

/-- An operation that may stop: it went on, or the run ended where it stood. -/
theorem orStop_next {α : Type} {s t : State} {r : Except Stop α} {k : α → Result}
    (h : orStop s r k = .next t) :
    (∃ a, r = .ok a ∧ k a = .next t) ∨
    (∃ e, r = .error (.abort e) ∧ t = { s with status := .aborted e, trap := none }) := by
  cases r with
  | ok a => exact .inl ⟨a, rfl, h⟩
  | error x =>
    obtain ⟨e, rfl, ht⟩ := stopWith_next h
    exact .inr ⟨e, rfl, ht⟩

theorem orStop_ok {α : Type} {s : State} {r : Except Stop α} {k : α → Result} {a : α} (h : r = .ok a) :
    orStop s r k = k a := by rw [h]; rfl

theorem orStop_error {α : Type} {s : State} {r : Except Stop α} {k : α → Result} {x : Stop}
    (h : r = .error x) : orStop s r k = stopWith x s := by rw [h]; rfl

/-! ### The host's output -/

theorem hostWrite_ok {b : Byte} {s t : State} (h : hostWrite b s = .ok t) :
    t = s.afterWrite b := by
  unfold hostWrite at h
  split at h
  · cases h
  · exact (Except.ok.inj h).symm

theorem hostWrite_of_ok {s : State} (h : writeOk s) (b : Byte) : hostWrite b s = .ok (s.afterWrite b) := by
  rw [hostWrite, show s.host.writes.headD .ok = .ok from h]

theorem hostWrite_of_fail {s : State} (h : ¬ writeOk s) (b : Byte) : hostWrite b s = .error (.abort (.ioError .write)) := by
  unfold hostWrite
  cases hh : s.host.writes.headD .ok with
  | ok => exact absurd hh h
  | fail => rfl

theorem hostWrite_error {b : Byte} {s : State} {x : Stop} (h : hostWrite b s = .error x) :
    x = .abort (.ioError .write) := by
  unfold hostWrite at h
  split at h
  · exact (Except.error.inj h).symm
  · cases h

theorem hostFlush_ok {s t : State} (h : hostFlush s = .ok t) :
    t = s.afterFlush := by
  unfold hostFlush at h
  split at h
  · cases h
  · exact (Except.ok.inj h).symm

theorem hostFlush_of_ok {s : State} (h : flushOk s) : hostFlush s = .ok s.afterFlush := by
  rw [hostFlush, show s.host.flushes.headD .ok = .ok from h]

theorem hostFlush_of_fail {s : State} (h : ¬ flushOk s) : hostFlush s = .error (.abort (.ioError .flush)) := by
  unfold hostFlush
  cases hh : s.host.flushes.headD .ok with
  | ok => exact absurd hh h
  | fail => rfl

theorem hostFlush_error {s : State} {x : Stop} (h : hostFlush s = .error x) : x = .abort (.ioError .flush) := by
  unfold hostFlush at h
  split at h
  · exact (Except.error.inj h).symm
  · cases h

/-! ### The host's input -/

/-- `s` itself: nothing is consumed. -/
theorem consumed_zero {s t : State} (hp : t.inputPos = s.inputPos) (hb : ∀ k, t.byteAt k = s.byteAt k) : consumed 0 s t :=
  ⟨hp, fun k => by rw [hb, Nat.zero_add], fun _ h => absurd h (Nat.not_lt_zero _)⟩

theorem consumed_trans {s t u : State} {n m : Nat} (h : consumed n s t) (k : consumed m t u) : consumed (n + m) s u := by
  obtain ⟨hp, hb, hn⟩ := h
  obtain ⟨kp, kb, kn⟩ := k
  refine ⟨by rw [kp, hp, Nat.add_assoc], fun i => by rw [kb, hb, Nat.add_assoc], fun i hi => ?_⟩
  by_cases hlt : i < n
  · exact hn i hlt
  · obtain ⟨b, e⟩ := kn (i - n) (by omega)
    exact ⟨b, by rw [← e, hb]; congr 1; omega⟩

theorem byteAt_waiting {s : State} {k : Nat} (h : s.byteAt k = .waiting) : s.host.inputEnd = .waiting := by
  unfold State.byteAt at h
  split at h
  · cases h
  · assumption
  · cases h
  · cases h
  · cases h

/-- The listed signals come first. -/
theorem pollSignal_of_cons {s : State} {p : PollSignal} {rest : List PollSignal} (h : s.host.polls = p :: rest) :
    s.pollSignal = p := by
  unfold State.pollSignal
  rw [h]

theorem pollSignal_waiting {s : State} (h : s.pollSignal = .waiting) : .waiting ∈ s.host.polls := by
  unfold State.pollSignal at h
  split at h
  · next hp => rw [hp, h]; exact List.mem_cons_self
  · cases h
  · split at h <;> cases h

/-- Everything `HostReadByte` can answer. -/
theorem hostReadByte_cases (s : State) :
    (∃ b, s.byteAt 0 = .byte b ∧ hostReadByte s = (.byte b, s.consume 1)) ∨
    (s.byteAt 0 = .waiting ∧ hostReadByte s = (.waiting, s)) ∨
    (s.byteAt 0 = .eof ∧ hostReadByte s = (.eof, s)) ∨
    (s.byteAt 0 = .fail ∧ hostReadByte s = (.fail, s)) := by
  unfold hostReadByte
  cases s.byteAt 0 <;> simp

/-- Everything `HostPoll` can answer: a failure, no answer, not ready with nothing consumed, or ready with one or two bytes
taken from the input stream. -/
theorem hostPoll_cases (s : State) :
    (hostPoll s = (.fail, s)) ∨
    (hostPoll s = (.waiting, s) ∧
      (s.pollSignal = .waiting ∨ s.params.kbsrPollBytes = .two ∧ s.byteAt 1 = .waiting)) ∨
    (hostPoll s = (.notReady, s.dropPoll)) ∨
    (∃ b, s.params.kbsrPollBytes = .one ∧ s.byteAt 0 = .byte b ∧
      hostPoll s = (.ready b, s.dropPoll.consume 1)) ∨
    (∃ b1 b2, s.params.kbsrPollBytes = .two ∧ s.byteAt 0 = .byte b1 ∧ s.byteAt 1 = .byte b2 ∧
      hostPoll s = (.ready (keptByte s.inputPos b1 b2), s.dropPoll.consume 2)) := by
  unfold hostPoll
  cases s.pollSignal with
  | fail => exact .inl rfl
  | waiting => exact .inr (.inl ⟨rfl, .inl rfl⟩)
  | notReady => exact .inr (.inr (.inl rfl))
  | ready =>
    cases h0 : s.byteAt 0 with
    | byte b =>
      cases hp : s.params.kbsrPollBytes with
      | one => exact .inr (.inr (.inr (.inl ⟨b, rfl, rfl, rfl⟩)))
      | two =>
        cases h1 : s.byteAt 1 with
        | byte b2 => exact .inr (.inr (.inr (.inr ⟨b, b2, rfl, rfl, rfl, rfl⟩)))
        | waiting => exact .inr (.inl ⟨rfl, .inr ⟨rfl, rfl⟩⟩)
        | eof => exact .inl rfl
        | fail => exact .inl rfl
    | eof => exact .inr (.inr (.inl rfl))
    | fail => exact .inr (.inr (.inl rfl))
    | waiting => exact .inr (.inr (.inl rfl))

theorem keptByte_eq_or (n : Nat) (b1 b2 : Byte) : keptByte n b1 b2 = b1 ∨ keptByte n b1 b2 = b2 := by
  unfold keptByte
  split
  · exact .inr rfl
  · exact .inl rfl

/-! ### The keyboard poll and reading memory -/

/-- What a poll or a read leaves alone, and how the input moves: some bytes, in order, and the position with them. -/
structure Polled (s t : State) : Prop where
  regs : t.regs = s.regs
  pc : t.pc = s.pc
  cond : t.cond = s.cond
  status : t.status = s.status
  trap : t.trap = s.trap
  output : t.output = s.output
  params : t.params = s.params
  cells : ∀ a, a ≠ Config.kbsr → a ≠ Config.kbdr → t.cell a = s.cell a
  wf : s.mem.wf → t.mem.wf
  input : ∃ n, consumed n s t
  answers : s.hostAnswers → t.hostAnswers

theorem Polled.refl (s : State) : Polled s s :=
  ⟨rfl, rfl, rfl, rfl, rfl, rfl, rfl, fun _ _ _ => rfl, id, ⟨0, consumed_zero rfl fun _ => rfl⟩, id⟩

theorem Polled.trans {s t u : State} (h : Polled s t) (k : Polled t u) : Polled s u := by
  obtain ⟨n, hi⟩ := h.input
  obtain ⟨m, ki⟩ := k.input
  exact ⟨k.regs.trans h.regs, k.pc.trans h.pc, k.cond.trans h.cond, k.status.trans h.status, k.trap.trans h.trap,
    k.output.trans h.output, k.params.trans h.params,
    fun a ha hb => (k.cells a ha hb).trans (h.cells a ha hb), fun w => k.wf (h.wf w), ⟨n + m, consumed_trans hi ki⟩,
    fun ha => k.answers (h.answers ha)⟩

theorem Polled.reg {s t : State} (h : Polled s t) (r : Reg) : t.reg r = s.reg r := congrArg (Regs.get · r) h.regs

/-- Everything a keyboard poll can do (R44, R48, R97). -/
theorem keyboardPoll_cases (s : State) :
    (keyboardPoll s = .error (.abort (.ioError .poll))) ∨
    (keyboardPoll s = .error .wait ∧
      (s.pollSignal = .waiting ∨ s.params.kbsrPollBytes = .two ∧ s.byteAt 1 = .waiting)) ∨
    (keyboardPoll s = .ok (s.dropPoll.memWrite Config.kbsr 0#16)) ∨
    (∃ b n, (∀ k, k < n → ∃ c, s.byteAt k = .byte c) ∧ keyboardPoll s =
      .ok (((s.dropPoll.consume n).memWrite Config.kbsr 0x8000#16).memWrite Config.kbdr (zext16 b))) := by
  unfold keyboardPoll
  rcases hostPoll_cases s with h | ⟨h, hw⟩ | h | ⟨b, -, hb, h⟩ | ⟨b1, b2, -, hb1, hb2, h⟩ <;> rw [h]
  · exact .inl rfl
  · exact .inr (.inl ⟨rfl, hw⟩)
  · exact .inr (.inr (.inl rfl))
  · refine .inr (.inr (.inr ⟨b, 1, fun k hk => ?_, rfl⟩))
    obtain rfl : k = 0 := by omega
    exact ⟨b, hb⟩
  · refine .inr (.inr (.inr ⟨_, 2, fun k hk => ?_, rfl⟩))
    obtain rfl | rfl : k = 0 ∨ k = 1 := by omega
    · exact ⟨b1, hb1⟩
    · exact ⟨b2, hb2⟩

/-- The ways a poll does not go on: it fails, or it has no answer. -/
theorem keyboardPoll_error {s : State} {x : Stop} (h : keyboardPoll s = .error x) :
    x = .abort (.ioError .poll) ∨
    x = .wait ∧ (s.pollSignal = .waiting ∨ s.params.kbsrPollBytes = .two ∧ s.byteAt 1 = .waiting) := by
  rcases keyboardPoll_cases s with h' | ⟨h', hw⟩ | h' | ⟨_, _, _, h'⟩ <;> rw [h'] at h
  · exact .inl (Except.error.inj h).symm
  · exact .inr ⟨(Except.error.inj h).symm, hw⟩
  · cases h
  · cases h

theorem keyboardPoll_ok {s t : State} (h : keyboardPoll s = .ok t) : Polled s t := by
  rcases keyboardPoll_cases s with h' | ⟨h', _⟩ | h' | ⟨b, n, hn, h'⟩ <;> rw [h'] at h
  · cases h
  · cases h
  · obtain rfl := Except.ok.inj h
    exact ⟨rfl, rfl, rfl, rfl, rfl, rfl, rfl, fun a ha _ => State.cell_memWrite_of_ne _ _ ha,
      fun w => State.memWrite_wf (s := s.dropPoll) w _ _, ⟨0, consumed_zero rfl fun _ => rfl⟩,
      fun h => ⟨h.1, fun hm => h.2 (List.mem_of_mem_tail hm)⟩⟩
  · obtain rfl := Except.ok.inj h
    refine ⟨rfl, rfl, rfl, rfl, rfl, rfl, rfl, fun a ha hb => ?_, fun w => ?_,
      ⟨n, rfl, fun k => s.dropPoll.consume_byteAt n k, hn⟩, fun h => ⟨h.1, fun hm => h.2 (List.mem_of_mem_tail hm)⟩⟩
    · rw [State.cell_memWrite_of_ne _ _ hb, State.cell_memWrite_of_ne _ _ ha]; rfl
    · exact State.memWrite_wf (State.memWrite_wf (s := s.dropPoll.consume n) w _ _) _ _

theorem memRead_of_ne {a : Word} (s : State) (h : a ≠ Config.kbsr) : memRead a s = .ok (s.cell a, s) := by
  rw [memRead, if_neg h]

theorem memRead_kbsr_of_ok {s t : State} (h : keyboardPoll s = .ok t) :
    memRead Config.kbsr s = .ok (t.cell Config.kbsr, t) := by
  rw [memRead, if_pos rfl, h]

theorem memRead_kbsr_of_error {s : State} {x : Stop} (h : keyboardPoll s = .error x) :
    memRead Config.kbsr s = .error x := by
  rw [memRead, if_pos rfl, h]

/-- Everything a read that succeeds can do (R41). -/
theorem memRead_ok {a v : Word} {s t : State} (h : memRead a s = .ok (v, t)) : v = t.cell a ∧ Polled s t := by
  unfold memRead at h
  split at h
  · cases hp : keyboardPoll s with
    | error e => rw [hp] at h; cases h
    | ok u =>
      rw [hp] at h
      obtain ⟨rfl, rfl⟩ := Prod.mk.inj (Except.ok.inj h)
      exact ⟨rfl, keyboardPoll_ok hp⟩
  · obtain ⟨rfl, rfl⟩ := Prod.mk.inj (Except.ok.inj h)
    exact ⟨rfl, Polled.refl s⟩

/-- A read does not go on only when its poll does not (R41, R173, R97). -/
theorem memRead_error {a : Word} {s : State} {x : Stop} (h : memRead a s = .error x) :
    a = Config.kbsr ∧ keyboardPoll s = .error x := by
  unfold memRead at h
  split at h
  · next ha =>
    cases hp : keyboardPoll s with
    | error e' =>
      rw [hp] at h
      obtain rfl := Except.error.inj h
      exact ⟨ha, rfl⟩
    | ok u => rw [hp] at h; cases h
  · cases h

/-- The only error of a read is the failed poll (R173). -/
theorem memRead_abort {a : Word} {s : State} {e : RunError} (h : memRead a s = .error (.abort e)) : e = .ioError .poll := by
  rcases keyboardPoll_error (memRead_error h).2 with h | ⟨h, -⟩
  · exact Stop.abort.inj h
  · cases h

/-- A read waits only for a host that does not answer (R97). -/
theorem memRead_wait {a : Word} {s : State} (h : memRead a s = .error .wait) : ¬ s.hostAnswers := by
  rcases keyboardPoll_error (memRead_error h).2 with h | ⟨-, h | ⟨-, h⟩⟩
  · cases h
  · exact fun ha => ha.2 (pollSignal_waiting h)
  · exact fun ha => ha.1 (byteAt_waiting h)

/-- A read away from KBSR polls nothing (R41, R47). -/
theorem memRead_same_of_ne {a v : Word} {s t : State} (ha : a ≠ Config.kbsr) (h : memRead a s = .ok (v, t)) : t = s := by
  rw [memRead_of_ne s ha] at h
  exact (Prod.mk.inj (Except.ok.inj h)).2.symm

/-- Everything a fetch that succeeds can do (R92). -/
theorem fetch_ok {w : Word} {s t : State} (h : fetch s = .ok (w, t)) :
    ∃ u, memRead s.pc s = .ok (w, u) ∧ t = u.setPC (s.pc + 1#16) := by
  unfold fetch at h
  cases hm : memRead s.pc s with
  | error e => rw [hm] at h; cases h
  | ok x =>
    obtain ⟨v, u⟩ := x
    rw [hm] at h
    obtain ⟨rfl, rfl⟩ := Prod.mk.inj (Except.ok.inj h)
    exact ⟨u, rfl, by rw [(memRead_ok hm).2.pc]⟩

theorem fetch_error {s : State} {x : Stop} (h : fetch s = .error x) : memRead s.pc s = .error x := by
  unfold fetch at h
  cases hm : memRead s.pc s with
  | error e' => rw [hm] at h; exact h ▸ rfl
  | ok x => rw [hm] at h; cases h

/-! ### The micro-steps of the trap unit -/

/-- Everything the blocking read that answers a next state can do (R141, R144). -/
theorem readStep_next {s t : State} (h : readStep s = .next t) :
    (∃ b, s.byteAt 0 = .byte b ∧ t = takeByte b (s.consume 1)) ∨
    (∃ c, (c = .eof ∨ c = .read) ∧ t = { s with status := .aborted (.ioError c), trap := none }) := by
  unfold readStep at h
  rcases hostReadByte_cases s with ⟨b, hi, hr⟩ | ⟨-, hr⟩ | ⟨-, hr⟩ | ⟨-, hr⟩ <;> rw [hr] at h
  · exact .inl ⟨b, hi, (Host.Outcome.next.inj h).symm⟩
  · cases h
  · exact .inr ⟨.eof, .inl rfl, raiseAbort_next h⟩
  · exact .inr ⟨.read, .inr rfl, raiseAbort_next h⟩

/-- The blocking read has no successor exactly while the stream has no answer (R97). -/
theorem readStep_of_waiting {s : State} (h : s.byteAt 0 = .waiting) : readStep s = .fault .waiting := by
  rw [readStep, hostReadByte, h]

theorem readStep_of_byte {s : State} {b : Byte} (h : s.byteAt 0 = .byte b) :
    readStep s = .next (takeByte b (s.consume 1)) := by
  rw [readStep, hostReadByte, h]

/-- What `takeByte` does to each field. -/
theorem takeByte_fields (b : Byte) (s : State) :
    (takeByte b s).reg .r0 = zext16 b ∧ (∀ r, r ≠ .r0 → (takeByte b s).reg r = s.reg r) ∧
    (takeByte b s).cond = (if s.params.trapReadSetsCC then condOf (zext16 b) else s.cond) ∧
    (takeByte b s).pc = s.pc ∧ (takeByte b s).mem = s.mem ∧ (takeByte b s).status = s.status ∧
    (takeByte b s).trap = none ∧ (takeByte b s).inputPos = s.inputPos ∧ (takeByte b s).output = s.output ∧
    (takeByte b s).host = s.host ∧ (takeByte b s).params = s.params := by
  unfold takeByte
  have hr := State.reg_setReg_same { s with trap := none } .r0 (zext16 b)
  have hn : ∀ r, r ≠ .r0 → (State.setReg { s with trap := none } .r0 (zext16 b)).reg r = s.reg r :=
    fun r h => State.reg_setReg_of_ne { s with trap := none } _ h
  by_cases hp : s.params.trapReadSetsCC = true
  · simp only [hp, if_true]
    exact ⟨hr, hn, congrArg condOf hr, rfl, rfl, rfl, rfl, rfl, rfl, rfl, rfl⟩
  · simp only [hp]
    exact ⟨hr, hn, rfl, rfl, rfl, rfl, rfl, rfl, rfl, rfl, rfl⟩

/-- What a step that only writes output leaves alone. -/
structure Wrote (s t : State) : Prop where
  regs : t.regs = s.regs
  pc : t.pc = s.pc
  cond : t.cond = s.cond
  mem : t.mem = s.mem
  status : t.status = s.status
  inputPos : t.inputPos = s.inputPos
  params : t.params = s.params
  bytes : ∀ k, t.byteAt k = s.byteAt k
  answers : s.hostAnswers → t.hostAnswers
  output : ∃ es, t.output = s.output ++ es

theorem Wrote.refl (s : State) : Wrote s s := ⟨rfl, rfl, rfl, rfl, rfl, rfl, rfl, fun _ => rfl, id, ⟨[], by simp⟩⟩

theorem Wrote.trans {s t u : State} (h : Wrote s t) (k : Wrote t u) : Wrote s u := by
  obtain ⟨es, he⟩ := h.output
  obtain ⟨fs, hf⟩ := k.output
  exact ⟨k.regs.trans h.regs, k.pc.trans h.pc, k.cond.trans h.cond, k.mem.trans h.mem, k.status.trans h.status,
    k.inputPos.trans h.inputPos, k.params.trans h.params, fun i => (k.bytes i).trans (h.bytes i),
    fun a => k.answers (h.answers a),
    ⟨es ++ fs, by rw [hf, he, List.append_assoc]⟩⟩

theorem hostWrite_wrote {b : Byte} {s t : State} (h : hostWrite b s = .ok t) : Wrote s t ∧ t.trap = s.trap := by
  obtain rfl := hostWrite_ok h
  exact ⟨⟨rfl, rfl, rfl, rfl, rfl, rfl, rfl, fun _ => rfl, id, ⟨_, rfl⟩⟩, rfl⟩

theorem hostFlush_wrote {s t : State} (h : hostFlush s = .ok t) : Wrote s t ∧ t.trap = s.trap := by
  obtain rfl := hostFlush_ok h
  exact ⟨⟨rfl, rfl, rfl, rfl, rfl, rfl, rfl, fun _ => rfl, id, ⟨_, rfl⟩⟩, rfl⟩

/-- How a step of a string routine ends: the routine goes on or is over, or a failed interaction ended the run. -/
structure StringStep (s t : State) : Prop where
  regs : t.regs = s.regs
  pc : t.pc = s.pc
  cond : t.cond = s.cond
  cells : ∀ a, a ≠ Config.kbsr → a ≠ Config.kbdr → t.cell a = s.cell a
  wf : s.mem.wf → t.mem.wf
  params : t.params = s.params
  output : ∃ es, t.output = s.output ++ es
  input : ∃ n, consumed n s t
  answers : s.hostAnswers → t.hostAnswers
  status : t.status = s.status ∨ (∃ c, t.status = .aborted (.ioError c) ∧ t.trap = none)

/-- A poll and then some output, whatever the trap unit's progress becomes and whether or not the run ends. -/
theorem StringStep.of {s t u : State} (p : Polled s t) (w : Wrote t u) {st : RunStatus} {tp : Option TrapProgress}
    (h : st = s.status ∨ (∃ c, st = .aborted (.ioError c) ∧ tp = none)) :
    StringStep s { u with status := st, trap := tp } := by
  refine ⟨w.regs.trans p.regs, w.pc.trans p.pc, w.cond.trans p.cond, fun a ha hb => ?_, fun hw => ?_,
    w.params.trans p.params, ?_, ?_, fun ha => w.answers (p.answers ha), h⟩
  · rw [← p.cells a ha hb]; exact congrArg (Memory.read · a.toNat) w.mem
  · show u.mem.wf
    rw [w.mem]; exact p.wf hw
  · obtain ⟨es, he⟩ := w.output
    exact ⟨es, by show u.output = _; rw [he, p.output]⟩
  · obtain ⟨n, hp, hb, hn⟩ := p.input
    exact ⟨n, w.inputPos.trans hp, fun k => (w.bytes k).trans (hb k), hn⟩

/-- The end of a string routine, after a read. -/
theorem finishString_next {s u t : State} (p : Polled s u) (h : finishString u = .next t) : StringStep s t := by
  rcases orStop_next h with ⟨v, hv, hk⟩ | ⟨e, he, rfl⟩
  · obtain rfl := (Host.Outcome.next.inj hk).symm
    have := (hostFlush_wrote hv).1
    exact .of p this (.inl (this.status.trans p.status))
  · obtain rfl := Stop.abort.inj (hostFlush_error he)
    exact .of p (.refl u) (.inr ⟨_, rfl, rfl⟩)

/-- Everything a micro-step of PUTS can do (R143, R148). -/
theorem putsStep_next {a : Word} {s t : State} (h : putsStep a s = .next t) : StringStep s t := by
  rcases orStop_next h with ⟨⟨c, u⟩, hr, hk⟩ | ⟨e, he, rfl⟩
  · have p := (memRead_ok hr).2
    dsimp only at hk
    split at hk
    · exact finishString_next p hk
    · rcases orStop_next hk with ⟨v, hv, hk⟩ | ⟨e, he, rfl⟩
      · obtain rfl := (Host.Outcome.next.inj hk).symm
        have := (hostWrite_wrote hv).1
        exact .of p this (.inl (this.status.trans p.status))
      · obtain rfl := Stop.abort.inj (hostWrite_error he)
        exact .of p (.refl u) (.inr ⟨_, rfl, rfl⟩)
  · obtain rfl := memRead_abort he
    exact .of (.refl s) (.refl s) (.inr ⟨_, rfl, rfl⟩)

/-- Everything a micro-step of PUTSP can do (R145, R148). -/
theorem putspStep_next {a : Word} {s t : State} (h : putspStep a s = .next t) : StringStep s t := by
  rcases orStop_next h with ⟨⟨c, u⟩, hr, hk⟩ | ⟨e, he, rfl⟩
  · have p := (memRead_ok hr).2
    dsimp only at hk
    split at hk
    · exact finishString_next p hk
    · rcases orStop_next hk with ⟨v, hv, hk⟩ | ⟨e, he, rfl⟩
      · have w := (hostWrite_wrote hv).1
        rcases orStop_next hk with ⟨x, hx, hk⟩ | ⟨e, he, rfl⟩
        · obtain rfl := (Host.Outcome.next.inj hk).symm
          have w2 : Wrote v x := by
            split at hx
            · obtain rfl := Except.ok.inj hx
              exact .refl v
            · exact (hostWrite_wrote hx).1
          have := w.trans w2
          exact .of p this (.inl (this.status.trans p.status))
        · have he' : e = .ioError .write := by
            split at he
            · cases he
            · exact Stop.abort.inj (hostWrite_error he)
          subst he'
          exact .of p w (.inr ⟨_, rfl, rfl⟩)
      · obtain rfl := Stop.abort.inj (hostWrite_error he)
        exact .of p (.refl u) (.inr ⟨_, rfl, rfl⟩)
  · obtain rfl := memRead_abort he
    exact .of (.refl s) (.refl s) (.inr ⟨_, rfl, rfl⟩)

/-! ### Steps that answer no next state -/

/-- The outcome is a next state, or the step waits for a host that does not answer in state `s`. -/
def NextOrWaits (s : State) (o : Result) : Prop := (∃ t, o = .next t) ∨ (o = .fault .waiting ∧ ¬ s.hostAnswers)

theorem nextOrWaits_orStop {α : Type} {s u : State} {r : Except Stop α} {k : α → Result}
    (hr : r = .error .wait → ¬ s.hostAnswers) (hk : ∀ a, r = .ok a → NextOrWaits s (k a)) :
    NextOrWaits s (orStop u r k) := by
  cases r with
  | ok a => exact hk a rfl
  | error x =>
    cases x with
    | abort e => exact .inl ⟨_, rfl⟩
    | wait => exact .inr ⟨rfl, hr rfl⟩

/-- What holds of a later state holds of an earlier one whose answers it keeps. -/
theorem NextOrWaits.mono {s u : State} {o : Result} (h : NextOrWaits u o) (k : s.hostAnswers → u.hostAnswers) :
    NextOrWaits s o := by
  rcases h with h | ⟨h, hn⟩
  · exact .inl h
  · exact .inr ⟨h, fun ha => hn (k ha)⟩

theorem nextOrWaits_write {s u v : State} {b : Byte} {k : State → Result} (hk : ∀ w, hostWrite b u = .ok w → NextOrWaits s (k w)) :
    NextOrWaits s (orStop v (hostWrite b u) k) :=
  nextOrWaits_orStop (fun h => nomatch hostWrite_error h) hk

theorem nextOrWaits_flush {s u v : State} {k : State → Result} (hk : ∀ w, hostFlush u = .ok w → NextOrWaits s (k w)) :
    NextOrWaits s (orStop v (hostFlush u) k) :=
  nextOrWaits_orStop (fun h => nomatch hostFlush_error h) hk

theorem nextOrWaits_read {a : Word} {s u v : State} {k : Word × State → Result} (hu : s.hostAnswers → u.hostAnswers)
    (hk : ∀ x, memRead a u = .ok x → NextOrWaits x.2 (k x)) : NextOrWaits s (orStop v (memRead a u) k) :=
  nextOrWaits_orStop (fun h ha => memRead_wait h (hu ha))
    fun x hx => (hk x hx).mono fun ha => (memRead_ok hx).2.answers (hu ha)

theorem readStep_nextOrWaits (s : State) : NextOrWaits s (readStep s) := by
  rw [readStep]
  rcases hostReadByte_cases s with ⟨b, -, hr⟩ | ⟨h, hr⟩ | ⟨-, hr⟩ | ⟨-, hr⟩ <;> rw [hr]
  · exact .inl ⟨_, rfl⟩
  · exact .inr ⟨rfl, fun ha => ha.1 (byteAt_waiting h)⟩
  · exact .inl ⟨_, rfl⟩
  · exact .inl ⟨_, rfl⟩

theorem finishString_nextOrWaits (s : State) : NextOrWaits s (finishString s) :=
  nextOrWaits_flush fun _ _ => .inl ⟨_, rfl⟩

theorem putsStep_nextOrWaits (a : Word) (s : State) : NextOrWaits s (putsStep a s) :=
  nextOrWaits_read id fun x _ => by
    split
    · exact finishString_nextOrWaits _
    · exact nextOrWaits_write fun _ _ => .inl ⟨_, rfl⟩

theorem putspStep_nextOrWaits (a : Word) (s : State) : NextOrWaits s (putspStep a s) :=
  nextOrWaits_read id fun x _ => by
    split
    · exact finishString_nextOrWaits _
    · refine nextOrWaits_write fun y _ => ?_
      split
      · exact .inl ⟨_, rfl⟩
      · exact nextOrWaits_write fun _ _ => .inl ⟨_, rfl⟩

/-- Every instruction answers a next state, or waits for a host that does not answer (R97). -/
theorem exec_nextOrWaits (i : Instr) (s : State) : NextOrWaits s (exec i s) := by
  cases i with
  | ld _ _ => exact nextOrWaits_read id fun _ _ => .inl ⟨_, rfl⟩
  | ldr _ _ _ => exact nextOrWaits_read id fun _ _ => .inl ⟨_, rfl⟩
  | ldi _ _ => exact nextOrWaits_read id fun _ _ => nextOrWaits_read id fun _ _ => .inl ⟨_, rfl⟩
  | sti _ _ => exact nextOrWaits_read id fun _ _ => .inl ⟨_, rfl⟩
  | trapGetc => exact readStep_nextOrWaits s
  | trapOut => exact nextOrWaits_write fun _ _ => .inl ⟨_, rfl⟩
  | trapPuts => exact putsStep_nextOrWaits _ s
  | trapPutsp => exact putspStep_nextOrWaits _ s
  | trapIn =>
    refine nextOrWaits_flush fun u hu => ?_
    have hm := (hostFlush_wrote hu).1.answers
    split
    · exact .inl ⟨_, rfl⟩
    · exact (readStep_nextOrWaits u).mono hm
    · exact (readStep_nextOrWaits u).mono hm
    · exact (readStep_nextOrWaits u).mono hm
  | trapHalt => exact nextOrWaits_flush fun _ _ => .inl ⟨_, rfl⟩
  | br _ _ => exact .inl ⟨_, rfl⟩
  | addReg _ _ _ => exact .inl ⟨_, rfl⟩
  | addImm _ _ _ => exact .inl ⟨_, rfl⟩
  | andReg _ _ _ => exact .inl ⟨_, rfl⟩
  | andImm _ _ _ => exact .inl ⟨_, rfl⟩
  | not _ _ => exact .inl ⟨_, rfl⟩
  | lea _ _ => exact .inl ⟨_, rfl⟩
  | st _ _ => exact .inl ⟨_, rfl⟩
  | str _ _ _ => exact .inl ⟨_, rfl⟩
  | jsr _ => exact .inl ⟨_, rfl⟩
  | jsrr _ => exact .inl ⟨_, rfl⟩
  | jmp _ => exact .inl ⟨_, rfl⟩
  | ret => exact .inl ⟨_, rfl⟩
  | rti _ => exact .inl ⟨_, rfl⟩
  | res _ => exact .inl ⟨_, rfl⟩
  | trapUndefinedVector _ => exact .inl ⟨_, rfl⟩

end Sys2Proof.Machine
end

