-- ==== Sys2Proof/Laws/PerInstr.lean ====
section
/-! SUPPORT. What holds of every instruction as syntax, one lemma per constructor: its encoded word lies in its row of the
opcode table (30_encoding.md R65). -/

namespace Sys2Proof.Laws.RowMatch

/-- The encoded word has the fixed bits of the instruction's row. -/
def Statement (i : Instr) : Prop := encode i &&& i.row.mask = i.row.pattern

/-- A word's opcode nibble is all that a row of mask 0xF000 fixes. -/
theorem nib (x : Word) (p : BitVec 4) (h : x.extractLsb' 12 4 = p) : x &&& 0xF000#16 = (p ++ 0#12 : Word) := by
  subst h
  apply BitVec.eq_of_getLsbD_eq
  intro i hi
  rw [BitVec.getLsbD_and, BitVec.getLsbD_append (n := 4) (m := 12)]
  interval_cases i <;> simp

theorem immMode_add (dr sr1 : Reg) (f : BitVec 5) :
    (0x1#4 ++ dr.toBits ++ sr1.toBits ++ 1#1 ++ f : Word) &&& 0xF020#16 = 0x1020#16 := by
  cases dr <;> cases sr1 <;> revert f <;> decide

theorem immMode_and (dr sr1 : Reg) (f : BitVec 5) :
    (0x5#4 ++ dr.toBits ++ sr1.toBits ++ 1#1 ++ f : Word) &&& 0xF020#16 = 0x5020#16 := by
  cases dr <;> cases sr1 <;> revert f <;> decide

theorem longForm_jsr (f : BitVec 11) : (0x4#4 ++ 1#1 ++ f : Word) &&& 0xF800#16 = 0x4800#16 := by
  apply BitVec.eq_of_getLsbD_eq
  intro i hi
  rw [BitVec.getLsbD_and, BitVec.getLsbD_append (n := 4 + 1) (m := 11)]
  interval_cases i <;> simp

theorem br (m : BitVec 3) (off : Word) : Statement (.br m off) := nib _ _ (layout_reg_off9 0x0#4 m (off.setWidth 9)).1
theorem addReg (dr sr1 sr2 : Reg) : Statement (.addReg dr sr1 sr2) := by cases dr <;> cases sr1 <;> cases sr2 <;> rfl
theorem addImm (dr sr1 : Reg) (imm : Word) : Statement (.addImm dr sr1 imm) := immMode_add dr sr1 (imm.setWidth 5)
theorem ld (dr : Reg) (off : Word) : Statement (.ld dr off) := nib _ _ (layout_reg_off9 0x2#4 dr.toBits (off.setWidth 9)).1
theorem st (sr : Reg) (off : Word) : Statement (.st sr off) := nib _ _ (layout_reg_off9 0x3#4 sr.toBits (off.setWidth 9)).1
theorem jsrr (base : Reg) : Statement (.jsrr base) := by cases base <;> rfl
theorem jsr (off : Word) : Statement (.jsr off) := longForm_jsr (off.setWidth 11)
theorem andReg (dr sr1 sr2 : Reg) : Statement (.andReg dr sr1 sr2) := by cases dr <;> cases sr1 <;> cases sr2 <;> rfl
theorem andImm (dr sr1 : Reg) (imm : Word) : Statement (.andImm dr sr1 imm) := immMode_and dr sr1 (imm.setWidth 5)
theorem ldr (dr base : Reg) (off : Word) : Statement (.ldr dr base off) := nib _ _ (layout_reg_reg_off6 0x6#4 dr.toBits base.toBits (off.setWidth 6)).1
theorem str (sr base : Reg) (off : Word) : Statement (.str sr base off) := nib _ _ (layout_reg_reg_off6 0x7#4 sr.toBits base.toBits (off.setWidth 6)).1
theorem rti (low : BitVec 12) : Statement (.rti low) := nib _ _ (layout_low12 0x8#4 low).1
theorem not (dr sr1 : Reg) : Statement (.not dr sr1) := nib _ _ (layout_reg_reg_off6 0x9#4 dr.toBits sr1.toBits 0#6).1
theorem ldi (dr : Reg) (off : Word) : Statement (.ldi dr off) := nib _ _ (layout_reg_off9 0xA#4 dr.toBits (off.setWidth 9)).1
theorem sti (sr : Reg) (off : Word) : Statement (.sti sr off) := nib _ _ (layout_reg_off9 0xB#4 sr.toBits (off.setWidth 9)).1
theorem jmp (base : Reg) : Statement (.jmp base) := by cases base <;> rfl
theorem ret : Statement (.ret) := rfl
theorem res (low : BitVec 12) : Statement (.res low) := nib _ _ (layout_low12 0xD#4 low).1
theorem lea (dr : Reg) (off : Word) : Statement (.lea dr off) := nib _ _ (layout_reg_off9 0xE#4 dr.toBits (off.setWidth 9)).1
theorem trapGetc : Statement (.trapGetc) := rfl
theorem trapOut : Statement (.trapOut) := rfl
theorem trapPuts : Statement (.trapPuts) := rfl
theorem trapIn : Statement (.trapIn) := rfl
theorem trapPutsp : Statement (.trapPutsp) := rfl
theorem trapHalt : Statement (.trapHalt) := rfl
theorem trapUndefinedVector (v : Byte) : Statement (.trapUndefinedVector v) := nib _ _ (layout_vector 0xF#4 v).1

/-- Every instruction's word lies in its row. -/
theorem all (i : Instr) : Statement i := by
  cases i with
  | br m off => exact br m off
  | addReg dr sr1 sr2 => exact addReg dr sr1 sr2
  | addImm dr sr1 imm => exact addImm dr sr1 imm
  | ld dr off => exact ld dr off
  | st sr off => exact st sr off
  | jsrr base => exact jsrr base
  | jsr off => exact jsr off
  | andReg dr sr1 sr2 => exact andReg dr sr1 sr2
  | andImm dr sr1 imm => exact andImm dr sr1 imm
  | ldr dr base off => exact ldr dr base off
  | str sr base off => exact str sr base off
  | rti low => exact rti low
  | not dr sr1 => exact not dr sr1
  | ldi dr off => exact ldi dr off
  | sti sr off => exact sti sr off
  | jmp base => exact jmp base
  | ret => exact ret
  | res low => exact res low
  | lea dr off => exact lea dr off
  | trapGetc => exact trapGetc
  | trapOut => exact trapOut
  | trapPuts => exact trapPuts
  | trapIn => exact trapIn
  | trapPutsp => exact trapPutsp
  | trapHalt => exact trapHalt
  | trapUndefinedVector v => exact trapUndefinedVector v

end Sys2Proof.Laws.RowMatch
end

