-- ==== Sys2Proof/Laws/Step.lean ====
section
/-! SUPPORT. What a step can do, said once. -/

namespace Sys2Proof.Machine

theorem step_eq_cycle (s : State) : step s = cycle s := rfl

theorem step_of_trap {s : State} {p : TrapProgress} (hs : s.status = .running) (hp : s.trap = some p) :
    step s = resumeTrap p s := by
  rw [step_eq_cycle, cycle, hs, hp]

theorem step_of_ready {s : State} (h : s.ready) : step s = instructionStep s := by
  rw [step_eq_cycle, cycle, h.1, h.2]

theorem step_at_limit {s : State} (h : s.ready) (hp : s.pc = Config.maxAddress) :
    step s = .next { s with status := .limitReached } := by
  rw [step_of_ready h, instructionStep, if_pos hp]

theorem step_of_fetch {s u : State} {w : Word} (h : s.ready) (hp : s.pc ≠ Config.maxAddress)
    (hf : fetch s = .ok (w, u)) : step s = runWord w u := by
  rw [step_of_ready h, instructionStep, if_neg hp, orStop_ok hf]

theorem step_of_fetch_error {s : State} {x : Stop} (h : s.ready) (hp : s.pc ≠ Config.maxAddress)
    (hf : fetch s = .error x) : step s = stopWith x s := by
  rw [step_of_ready h, instructionStep, if_neg hp, orStop_error hf]

/-- A decode error and the execution of the rejected row end the run alike. -/
theorem runWord_eq_exec (w : Word) (s : State) : runWord w s = exec (decodeWord w) s := by
  unfold runWord decode
  cases decodeWord w <;> rfl

theorem runWord_of_error {w : Word} {e : RunError} (h : decode w = .error e) (s : State) :
    runWord w s = raiseAbort e s := by
  rw [runWord, h]

theorem runWord_of_ok {w : Word} {i : Instr} (h : decode w = .ok i) (s : State) : runWord w s = exec i s := by
  rw [runWord, h]

/-- The fetch away from KBSR (R92). -/
theorem fetch_of_ne {s : State} (h : s.pc ≠ Config.kbsr) : fetch s = .ok (s.cell s.pc, s.setPC (s.pc + 1#16)) := by
  rw [fetch, memRead_of_ne s h]

/-- Everything a step that answers a next state can do: a micro-step of a routine, the stop at the PC limit, a failed fetch,
or the execution of the fetched word. -/
theorem step_cases {s t : State} (h : step s = .next t) :
    s.status = .running ∧
    ((∃ p, s.trap = some p ∧ resumeTrap p s = .next t) ∨
     (s.trap = none ∧ s.pc = Config.maxAddress ∧ t = { s with status := .limitReached }) ∨
     (s.trap = none ∧ s.pc ≠ Config.maxAddress ∧ memRead s.pc s = .error (.abort (.ioError .poll)) ∧
       t = { s with status := .aborted (.ioError .poll), trap := none }) ∨
     (s.trap = none ∧ s.pc ≠ Config.maxAddress ∧
       ∃ w u, memRead s.pc s = .ok (w, u) ∧ exec (decodeWord w) (u.setPC (s.pc + 1#16)) = .next t)) := by
  rw [step_eq_cycle] at h
  unfold cycle at h
  split at h
  · cases h
  · cases h
  · cases h
  · next hs =>
    refine ⟨hs, ?_⟩
    split at h
    · next p hp => exact .inl ⟨p, hp, h⟩
    · next hp =>
      unfold instructionStep at h
      split at h
      · next hl => exact .inr (.inl ⟨hp, hl, (Host.Outcome.next.inj h).symm⟩)
      · next hl =>
        rcases orStop_next h with ⟨⟨w, u⟩, hf, hk⟩ | ⟨e, he, rfl⟩
        · obtain ⟨u', hm, rfl⟩ := fetch_ok hf
          exact .inr (.inr (.inr ⟨hp, hl, w, u', hm, by rw [← runWord_eq_exec]; exact hk⟩))
        · obtain rfl := memRead_abort (fetch_error he)
          exact .inr (.inr (.inl ⟨hp, hl, fetch_error he, rfl⟩))

/-- Everything a micro-step of a routine in progress can do. -/
theorem resumeTrap_cases {p : TrapProgress} {s t : State} (h : resumeTrap p s = .next t) :
    (p = .reading ∧ readStep s = .next t) ∨ (p ≠ .reading ∧ StringStep s t) := by
  cases p with
  | puts a => exact .inr ⟨by simp, putsStep_next h⟩
  | putsp a => exact .inr ⟨by simp, putspStep_next h⟩
  | reading => exact .inl ⟨rfl, h⟩

end Sys2Proof.Machine
end

