-- ==== Sys2Proof/Tests/Slice0.lean ====
section
/-! SUPPORT. Tests. Each expected result is a worked example or a derived vector of the spec (95_test_vectors.md; the
vector's section or number stands in the docstring), or is written out by hand from the rule named. The second half shows,
for each statement with hypotheses, a concrete state and operands that meet them. -/

namespace Sys2Proof.Tests

open Sys2Proof Sys2Proof.Machine

/-! ### Well-formedness (R63, R68): each check refuses a term just outside its range and takes the last one inside -/

theorem test_imm5_range : (Instr.addImm .r1 .r1 0x0010#16).wellFormed = false ∧ (Instr.addImm .r1 .r1 0x000F#16).wellFormed = true ∧
    (Instr.andImm .r1 .r1 0xFFEF#16).wellFormed = false ∧ (Instr.andImm .r1 .r1 0xFFF0#16).wellFormed = true := by decide
theorem test_offset6_range : (Instr.ldr .r1 .r1 0x0020#16).wellFormed = false ∧ (Instr.ldr .r1 .r1 0x001F#16).wellFormed = true ∧
    (Instr.str .r1 .r1 0xFFDF#16).wellFormed = false ∧ (Instr.str .r1 .r1 0xFFE0#16).wellFormed = true := by decide
theorem test_offset9_range : (Instr.br 7#3 0x0100#16).wellFormed = false ∧ (Instr.br 7#3 0x00FF#16).wellFormed = true ∧
    (Instr.ld .r1 0xFEFF#16).wellFormed = false ∧ (Instr.ld .r1 0xFF00#16).wellFormed = true := by decide
theorem test_offset9_range_others : (Instr.st .r1 0x0100#16).wellFormed = false ∧ (Instr.ldi .r1 0x0100#16).wellFormed = false ∧
    (Instr.sti .r1 0xFEFF#16).wellFormed = false ∧ (Instr.lea .r1 0xFEFF#16).wellFormed = false := by decide
theorem test_offset11_range : (Instr.jsr 0x0400#16).wellFormed = false ∧ (Instr.jsr 0x03FF#16).wellFormed = true ∧
    (Instr.jsr 0xFBFF#16).wellFormed = false ∧ (Instr.jsr 0xFC00#16).wellFormed = true := by decide
theorem test_jmp_r7_is_ret : (Instr.jmp .r7).wellFormed = false ∧ (Instr.jmp .r6).wellFormed = true := by decide
theorem test_defined_vectors : (Instr.trapUndefinedVector 0x20#8).wellFormed = false ∧
    (Instr.trapUndefinedVector 0x25#8).wellFormed = false ∧ (Instr.trapUndefinedVector 0x1F#8).wellFormed = true ∧
    (Instr.trapUndefinedVector 0x26#8).wellFormed = true := by decide

/-! ### Decoding: every constructor from a word written out by the format of R65 -/

theorem test_decode_br : decodeWord 0b0000_100_111111110#16 = .br 0b100#3 0xFFFE#16 := by decide
theorem test_decode_add_reg : decodeWord 0b0001_000_001_0_11_010#16 = .addReg .r0 .r1 .r2 := by decide
theorem test_decode_add_imm : decodeWord 0b0001_011_101_1_10000#16 = .addImm .r3 .r5 0xFFF0#16 := by decide
theorem test_decode_ld : decodeWord 0b0010_001_100000000#16 = .ld .r1 0xFF00#16 := by decide
theorem test_decode_st : decodeWord 0b0011_010_000000001#16 = .st .r2 0x0001#16 := by decide
theorem test_decode_jsrr : decodeWord 0b0100_0_00_010_000000#16 = .jsrr .r2 := by decide
theorem test_decode_jsr : decodeWord 0b0100_1_00010000000#16 = .jsr 0x0080#16 := by decide
theorem test_decode_and_reg : decodeWord 0b0101_011_001_0_00_010#16 = .andReg .r3 .r1 .r2 := by decide
theorem test_decode_and_imm : decodeWord 0b0101_110_001_1_01111#16 = .andImm .r6 .r1 0x000F#16 := by decide
theorem test_decode_ldr : decodeWord 0b0110_010_001_100000#16 = .ldr .r2 .r1 0xFFE0#16 := by decide
theorem test_decode_str : decodeWord 0b0111_010_001_000001#16 = .str .r2 .r1 0x0001#16 := by decide
theorem test_decode_rti : decodeWord 0b1000_000000000000#16 = .rti 0#12 := by decide
theorem test_decode_not : decodeWord 0b1001_010_001_000000#16 = .not .r2 .r1 := by decide
theorem test_decode_ldi : decodeWord 0b1010_000_000000101#16 = .ldi .r0 0x0005#16 := by decide
theorem test_decode_sti : decodeWord 0b1011_001_000000010#16 = .sti .r1 0x0002#16 := by decide
theorem test_decode_jmp : decodeWord 0b1100_000_011_000000#16 = .jmp .r3 := by decide
theorem test_decode_ret : decodeWord 0b1100_000_111_000000#16 = .ret := by decide
theorem test_decode_res : decodeWord 0b1101_111111111111#16 = .res 0xFFF#12 := by decide
theorem test_decode_lea : decodeWord 0b1110_000_111111110#16 = .lea .r0 0xFFFE#16 := by decide
theorem test_decode_getc : decodeWord 0b1111_0000_00100000#16 = .trapGetc := by decide
theorem test_decode_out : decodeWord 0b1111_0000_00100001#16 = .trapOut := by decide
theorem test_decode_puts : decodeWord 0b1111_0000_00100010#16 = .trapPuts := by decide
theorem test_decode_in : decodeWord 0b1111_0000_00100011#16 = .trapIn := by decide
theorem test_decode_putsp : decodeWord 0b1111_0000_00100100#16 = .trapPutsp := by decide
theorem test_decode_halt : decodeWord 0b1111_0101_00100101#16 = .trapHalt := by decide
theorem test_decode_undefined_vector : decodeWord 0b1111_0000_00100110#16 = .trapUndefinedVector 0x26#8 := by decide

/-- Vectors 2.2: a vector outside 0x20..0x25 is the decoder's error, on either side. -/
theorem test_decode_error : decode 0xF026#16 = .error (.unknownTrapRoutine 0x26#8) ∧
    decode 0xF01F#16 = .error (.unknownTrapRoutine 0x1F#8) ∧ decode 0xF000#16 = .error (.unknownTrapRoutine 0x00#8) :=
  ⟨rfl, rfl, rfl⟩

/-- Vectors S1 and 2.1. -/
theorem test_sext : sext 0x10#5 = 0xFFF0#16 ∧ sext 0x0F#5 = 0x000F#16 ∧ sext 0x20#6 = 0xFFE0#16 ∧
    sext 0x1FD#9 = 0xFFFD#16 ∧ sext 0x400#11 = 0xFC00#16 ∧ sext 0x3FF#11 = 0x03FF#16 := by decide

/-- Vector S12. -/
theorem test_reencode : encode (decodeWord 0x1261#16) = 0x1261#16 := by decide

/-- The opcode table's numbering of a word (R60: one 16-bit word, first byte the high one in an image). -/
theorem test_table_word : decodeTableWord 16 0x1261 = some (.addImm .r1 .r1 0x0001#16) := by decide

/-- R73, R74: masks and the alias RET in assembler syntax. -/
theorem test_asm : asm (decodeWord 0x05FF#16) = "BRz #-1" ∧ asm (decodeWord 0x0007#16) = "BR(none) #7" ∧
    asm (decodeWord 0x127F#16) = "ADD R1, R1, #-1" ∧ asm (decodeWord 0xC1C0#16) = "RET" := by decide

/-! ### Single steps -/

/-- The machine with a word in memory and `PC` at it, so that `PC` is `pc` after the fetch increment. -/
def before (pc w : Word) : State := State.memWrite { State.reset with pc := pc - 1#16 } (pc - 1#16) w

/-- The same with the flags preset. -/
def beforeCC (c pc w : Word) : State := { before pc w with cond := c }

/-- The machine with input bytes to come and then an end of the input. -/
def typed (bytes : List Byte) (last : InputEnd) (s : State) : State := { s with host := { input := bytes, inputEnd := last } }

/-- The machine with the next poll's signal. -/
def polled (p : PollSignal) (bytes : List Byte) (s : State) : State := { s with host := { input := bytes, polls := [p] } }

/-- The answer is a next state with the property. -/
def gives (r : Result) (p : State → Bool) : Bool :=
  match r with
  | .next t => p t
  | .fault _ => false
  | .refused _ => false

/-- `n` steps are taken and end in a state with the property. -/
def givesAfter (n : Nat) (s : State) (p : State → Bool) : Bool :=
  match after n s with
  | some t => p t
  | none => false

/-- Vectors 2.3. -/
theorem test_add_reg_wraps : gives (step (((before 0x3001#16 0x1042#16).setReg .r1 0xFFFF#16).setReg .r2 0x0001#16))
    (fun t => t.reg .r0 == 0#16 && t.cond == 0x2#16 && t.pc == 0x3001#16) = true := by decide
theorem test_add_reg_doubles : gives (step ((before 0x3001#16 0x1482#16).setReg .r2 0x4000#16))
    (fun t => t.reg .r2 == 0x8000#16 && t.cond == 0x4#16) = true := by decide
/-- Vector S3. -/
theorem test_add_imm_wraps : gives (step ((before 0x3001#16 0x1261#16).setReg .r1 0xFFFF#16))
    (fun t => t.reg .r1 == 0#16 && t.cond == 0x2#16) = true := by decide
theorem test_add_imm_negative : gives (step (before 0x3001#16 0x1270#16))
    (fun t => t.reg .r1 == 0xFFF0#16 && t.cond == 0x4#16) = true := by decide
theorem test_and_reg : gives (step (((before 0x3001#16 0x5642#16).setReg .r1 0x00FF#16).setReg .r2 0x0F0F#16))
    (fun t => t.reg .r3 == 0x000F#16 && t.cond == 0x1#16) = true := by decide
theorem test_and_imm : gives (step ((before 0x3001#16 0x5270#16).setReg .r1 0x8765#16))
    (fun t => t.reg .r1 == 0x8760#16 && t.cond == 0x4#16) = true := by decide
theorem test_not : gives (step ((before 0x3001#16 0x947F#16).setReg .r1 0x00F0#16))
    (fun t => t.reg .r2 == 0xFF0F#16 && t.reg .r1 == 0x00F0#16 && t.cond == 0x4#16) = true := by decide

/-- Vectors S4 and S5. -/
theorem test_br_reset_flags : gives (step (before 0x3000#16 0x0E0A#16)) (fun t => t.pc == 0x3000#16) = true := by decide
theorem test_br_positive : gives (step (beforeCC 0x1#16 0x3000#16 0x020A#16)) (fun t => t.pc == 0x300A#16 && t.cond == 0x1#16) = true := by decide
/-- Vectors 2.4. -/
theorem test_jmp : gives (step ((before 0x3001#16 0xC0C0#16).setReg .r3 0x4000#16)) (fun t => t.pc == 0x4000#16) = true := by decide
theorem test_ret : gives (step ((before 0x3001#16 0xC1C0#16).setReg .r7 0x3002#16)) (fun t => t.pc == 0x3002#16) = true := by decide
/-- Vector S6. -/
theorem test_jsr : gives (step (before 0x3000#16 0x4805#16))
    (fun t => t.reg .r7 == 0x3000#16 && t.pc == 0x3005#16 && t.cond == 0#16) = true := by decide
theorem test_jsr_wraps : gives (step (beforeCC 0x4#16 0x0001#16 0x4C00#16))
    (fun t => t.reg .r7 == 0x0001#16 && t.pc == 0xFC01#16 && t.cond == 0x4#16) = true := by decide
theorem test_jsrr_r7_default : gives (step ((before 0x3001#16 0x41C0#16).setReg .r7 0x5000#16))
    (fun t => t.reg .r7 == 0x3001#16 && t.pc == 0x3001#16) = true := by decide
theorem test_jsrr_r7_read_first : gives (step { (before 0x3001#16 0x41C0#16).setReg .r7 0x5000#16 with params := { jsrrReadBeforeLink := true } })
    (fun t => t.reg .r7 == 0x3001#16 && t.pc == 0x5000#16) = true := by decide

/-- Vectors 2.5. -/
theorem test_ld_negative_offset : gives (step (before 0x3001#16 0x2300#16))
    (fun t => t.reg .r1 == 0#16 && t.cond == 0x2#16) = true := by decide
theorem test_ld : gives (step ((before 0x3001#16 0x2206#16).memWrite 0x3007#16 0x3010#16))
    (fun t => t.reg .r1 == 0x3010#16 && t.cond == 0x1#16) = true := by decide
/-- Vector S7. -/
theorem test_ldi : gives (step (((before 0x3000#16 0xA005#16).memWrite 0x3005#16 0x0001#16).memWrite 0x0001#16 0x0017#16))
    (fun t => t.reg .r0 == 0x0017#16 && t.cond == 0x1#16) = true := by decide
theorem test_ldi_polls : gives (step (polled .ready [0x61#8] ((before 0x3001#16 0xA004#16).memWrite 0x3005#16 0xFE00#16)))
    (fun t => t.reg .r0 == 0x8000#16 && t.cond == 0x4#16 && t.cell 0xFE02#16 == 0x0061#16 && t.inputPos == 1) = true := by decide
theorem test_ldr_wraps : gives (step ((before 0x3001#16 0x647F#16).memWrite 0xFFFF#16 0x8000#16))
    (fun t => t.reg .r2 == 0x8000#16 && t.cond == 0x4#16) = true := by decide
theorem test_ldr_base_is_destination : gives (step (((before 0x3001#16 0x6240#16).setReg .r1 0x3010#16).memWrite 0x3010#16 0x0005#16))
    (fun t => t.reg .r1 == 0x0005#16 && t.cond == 0x1#16) = true := by decide
theorem test_lea_does_not_poll : gives (step (polled .ready [0x61#8] (before 0xFDFF#16 0xE001#16)))
    (fun t => t.reg .r0 == 0xFE00#16 && t.cond == 0x4#16 && t.inputPos == 0) = true := by decide
theorem test_lea_zero : gives (step (before 0x0001#16 0xE1FF#16)) (fun t => t.reg .r0 == 0#16 && t.cond == 0x2#16) = true := by decide
theorem test_st : gives (step ((beforeCC 0x1#16 0x3001#16 0x3401#16).setReg .r2 0x00AB#16))
    (fun t => t.cell 0x3002#16 == 0x00AB#16 && t.cond == 0x1#16) = true := by decide
theorem test_sti_to_kbsr_is_plain : gives (step (polled .ready [0x61#8] (((before 0x3001#16 0xB202#16).memWrite 0x3003#16 0xFE00#16).setReg .r1 0x1234#16)))
    (fun t => t.cell 0xFE00#16 == 0x1234#16 && t.inputPos == 0) = true := by decide
theorem test_sti : gives (step (((before 0x3001#16 0xB202#16).memWrite 0x3003#16 0x4000#16).setReg .r1 0x0007#16))
    (fun t => t.cell 0x4000#16 == 0x0007#16) = true := by decide
theorem test_str : gives (step (((before 0x3001#16 0x7441#16).setReg .r1 0x3010#16).setReg .r2 0xFFF0#16))
    (fun t => t.cell 0x3011#16 == 0xFFF0#16) = true := by decide
theorem test_str_base_is_source : gives (step ((before 0x3002#16 0x7270#16).setReg .r1 0x3010#16))
    (fun t => t.cell 0x3000#16 == 0x3010#16) = true := by decide

/-- Vectors 2.6. -/
theorem test_getc : gives (step (typed [0xE9#8] .waiting (beforeCC 0x2#16 0x3001#16 0xF020#16)))
    (fun t => t.reg .r0 == 0x00E9#16 && t.cond == 0x2#16 && t.output == []) = true := by decide
theorem test_getc_eof : gives (step (typed [] .eof (before 0x3001#16 0xF020#16)))
    (fun t => t.status == .aborted (.ioError .eof) && t.reg .r0 == 0#16) = true := by decide
/-- R97: a read that the host has not answered has no successor, and neither has a poll. -/
theorem test_waits : step (typed [] .waiting (before 0x3001#16 0xF020#16)) = .fault .waiting ∧
    step (polled .waiting [] (before 0x3001#16 0xA004#16 |>.memWrite 0x3005#16 0xFE00#16)) = .fault .waiting := ⟨rfl, rfl⟩
/-- R58, R144: IN has flushed what was written before it when it waits. -/
theorem test_in_waits_after_its_flush : gives (step (typed [] .waiting { before 0x3001#16 0xF023#16 with output := [.write 0x3F#8] }))
    (fun t => t.output == [.write 0x3F#8, .flush] && t.trap == some .reading && t.status == .running) = true := by decide
theorem test_out : gives (step ((before 0x3001#16 0xF021#16).setReg .r0 0x1241#16)) (fun t => t.output == [.write 0x41#8]) = true := by decide
theorem test_in_flushes_first : gives (step (typed [0x79#8] .waiting { before 0x3001#16 0xF023#16 with output := [.write 0x3F#8] }))
    (fun t => t.output == [.write 0x3F#8, .flush] && t.reg .r0 == 0x0079#16) = true := by decide
theorem test_puts_wraps : givesAfter 3 ((((before 0x3001#16 0xF022#16).setReg .r0 0xFFFF#16).memWrite 0xFFFF#16 0x41#16).memWrite 0x0000#16 0x42#16)
    (fun t => t.output == [.write 0x41#8, .write 0x42#8, .flush] && t.trap == none && t.pc == 0x3001#16) = true := by decide
theorem test_puts_zero_low_byte : givesAfter 2 (((before 0x3001#16 0xF022#16).setReg .r0 0x4000#16).memWrite 0x4000#16 0x4100#16)
    (fun t => t.output == [.write 0x00#8, .flush]) = true := by decide
/-- The string of the PUTSP vectors. -/
def packed : State := (((before 0x3001#16 0xF024#16).setReg .r0 0x4000#16).memWrite 0x4000#16 0x6948#16).memWrite 0x4001#16 0x0021#16
theorem test_putsp_writes_zero_high : givesAfter 3 packed
    (fun t => t.output == [.write 0x48#8, .write 0x69#8, .write 0x21#8, .write 0x00#8, .flush]) = true := by decide
theorem test_putsp_skips_zero_high : givesAfter 3 { packed with params := { putspSkipZeroHigh := true } }
    (fun t => t.output == [.write 0x48#8, .write 0x69#8, .write 0x21#8, .flush]) = true := by decide
theorem test_halt : gives (step (before 0x3001#16 0xF025#16))
    (fun t => t.status == .halted && t.output == [.flush] && t.pc == 0x3001#16) = true := by decide
theorem test_undefined_vector : gives (step (before 0x3001#16 0xF026#16))
    (fun t => t.status == .aborted (.unknownTrapRoutine 0x26#8) && t.pc == 0x3001#16 && t.output == []) = true := by decide
/-- Vectors 2.7. -/
theorem test_rti : gives (step (before 0x3001#16 0x8000#16))
    (fun t => t.status == .aborted (.reservedOpcode 0x8000#16) && t.pc == 0x3001#16) = true := by decide
theorem test_res : gives (step (before 0x3001#16 0xD123#16))
    (fun t => t.status == .aborted (.reservedOpcode 0xD123#16) && t.pc == 0x3001#16) = true := by decide
/-- Vectors 2.8. -/
theorem test_pc_limit : gives (step { State.reset with pc := 0xFFFF#16 }) (fun t => t.status == .limitReached && t.pc == 0xFFFF#16) = true := by decide
theorem test_fetch_at_fffe : gives (step (before 0xFFFF#16 0x1261#16))
    (fun t => t.reg .r1 == 1#16 && t.pc == 0xFFFF#16 && t.status == .running) = true := by decide
theorem test_fetch_polls : gives (step (polled .ready [0x20#8] (before 0xFE01#16 0x1261#16)))
    (fun t => t.status == .aborted (.reservedOpcode 0x8000#16) && t.pc == 0xFE01#16 && t.cell 0xFE02#16 == 0x0020#16) = true := by decide
theorem test_fetch_poll_fails : gives (step (polled .fail [] (before 0xFE01#16 0x1261#16)))
    (fun t => t.status == .aborted (.ioError .poll) && t.pc == 0xFE00#16) = true := by decide
/-- Vectors 2.9 and S10. -/
theorem test_loader_words : (match boot {} [] {} { bytes := [0x40#8, 0x00#8, 0x12#8, 0x34#8, 0xAB#8, 0xCD#8] } with
    | .ok s => s.cell 0x4000#16 == 0x1234#16 && s.cell 0x4001#16 == 0xABCD#16 && s.pc == 0x3000#16
    | .error _ => false) = true := by decide
theorem test_loader_errors : load { bytes := [0x30#8] } [] = .error .short ∧ load { bytes := [0x30#8, 0x00#8, 0x10#8] } [] = .error .odd ∧
    load { bytes := [0xFF#8, 0xFF#8, 0x00#8, 0x01#8, 0x00#8, 0x02#8] } [] = .error .overflow := ⟨rfl, rfl, rfl⟩
/-- Vector S11. -/
theorem test_halt_program : (match boot {} [] {} { bytes := [0x30#8, 0x00#8, 0xF0#8, 0x25#8] } with
    | .ok s => gives (step s) (fun t => t.status == .halted && t.pc == 0x3001#16 && t.output == [.flush])
    | .error _ => false) = true := by decide
/-- A placed word is run by the very next step from reset (log entry 7). -/
theorem test_placed_word : gives (step (State.reset.withFetchWord 16 0x127F)) (fun t => t.reg .r1 == 0xFFFF#16 && t.pc == 0x3001#16) = true := by decide

/-! ### Hypotheses can be met -/

theorem witness_SignExtensionCopiesTheTopBit : 0 < 5 ∧ 5 ≤ 16 ∧ (0x10#5).getLsbD (5 - 1) = true ∧ (0x0F#5).getLsbD (5 - 1) = false := by decide
theorem witness_DecodeOfEncodeIsTheInstruction : (Instr.ldr .r1 .r2 0xFFE0#16).wellFormed = true ∧
    (∀ v, Instr.ldr .r1 .r2 0xFFE0#16 ≠ .trapUndefinedVector v) ∧ (Instr.trapUndefinedVector 0x26#8).wellFormed = true :=
  ⟨by decide, (fun _ h => nomatch h), by decide⟩
theorem witness_ReencodingPreservesOperandFields : (0x105A#16).extractLsb' 12 4 ≠ 0x8#4 ∧ (0x105A#16).extractLsb' 12 4 ≠ 0xD#4 ∧
    decode 0x105A#16 = .ok (.addReg .r0 .r1 .r2) := ⟨by decide, by decide, rfl⟩
/-- The last word of each format. -/
theorem witness_EveryWordDecodesByItsFormat :
    0x0FFF#16 &&& 0xF000#16 = 0x0000#16 ∧ 0x1FDF#16 &&& 0xF020#16 = 0x1000#16 ∧ 0x1FFF#16 &&& 0xF020#16 = 0x1020#16 ∧
    0x2FFF#16 &&& 0xF000#16 = 0x2000#16 ∧ 0x3FFF#16 &&& 0xF000#16 = 0x3000#16 ∧ 0x47FF#16 &&& 0xF800#16 = 0x4000#16 ∧
    0x4FFF#16 &&& 0xF800#16 = 0x4800#16 ∧ 0x5FDF#16 &&& 0xF020#16 = 0x5000#16 ∧ 0x5FFF#16 &&& 0xF020#16 = 0x5020#16 ∧
    0x6FFF#16 &&& 0xF000#16 = 0x6000#16 ∧ 0x7FFF#16 &&& 0xF000#16 = 0x7000#16 ∧ 0x8FFF#16 &&& 0xF000#16 = 0x8000#16 ∧
    0x9FFF#16 &&& 0xF000#16 = 0x9000#16 ∧ 0xAFFF#16 &&& 0xF000#16 = 0xA000#16 ∧ 0xBFFF#16 &&& 0xF000#16 = 0xB000#16 ∧
    0xCFBF#16 &&& 0xF000#16 = 0xC000#16 ∧ 0xCFBF#16 &&& 0x01C0#16 ≠ 0x01C0#16 ∧ 0xCFFF#16 &&& 0xF1C0#16 = 0xC1C0#16 ∧
    0xDFFF#16 &&& 0xF000#16 = 0xD000#16 ∧ 0xEFFF#16 &&& 0xF000#16 = 0xE000#16 ∧ 0xFF20#16 &&& 0xF0FF#16 = 0xF020#16 ∧
    0xFF21#16 &&& 0xF0FF#16 = 0xF021#16 ∧ 0xFF22#16 &&& 0xF0FF#16 = 0xF022#16 ∧ 0xFF23#16 &&& 0xF0FF#16 = 0xF023#16 ∧
    0xFF24#16 &&& 0xF0FF#16 = 0xF024#16 ∧ 0xFF25#16 &&& 0xF0FF#16 = 0xF025#16 := by decide
theorem witness_DontCareBitsDoNotChangeTheInstruction : 0x1042#16 &&& careMask 0x1042#16 = 0x105A#16 &&& careMask 0x1042#16 ∧
    ((0x8ABC#16).extractLsb' 12 4 = 0x8#4 ∧ 0x8ABC#16 &&& 0xF000#16 = 0x8000#16 &&& 0xF000#16) ∧
    (0xD123#16).extractLsb' 12 4 = 0xD#4 ∧ 0xD123#16 &&& 0xF000#16 = 0xDFFF#16 &&& 0xF000#16 := by decide
/-- One word at the last address fits (vector 2.9). -/
theorem witness_LoaderPlacesTheImageWords : [0x00#8, 0x01#8].length = 2 * 1 ∧ 256 * (0xFF#8).toNat + (0xFF#8).toNat + 1 ≤ 65536 := by decide
theorem witness_LoadFailsExactlyOnBadImages : load { bytes := [], readFails := true } [] = .error .io ∧ load { bytes := [] } [] = .error .short :=
  ⟨rfl, rfl⟩
theorem witness_ReadsSeeTheLastWrite : State.reset.mem.wf := ⟨List.Pairwise.nil, (fun _ h => nomatch h)⟩

/-- A machine whose next poll is ready with a byte. -/
def keyDown : State := polled .ready [0x61#8, 0x62#8] State.reset
/-- A machine whose next poll finds nothing. -/
def keyUp : State := polled .notReady [0x61#8] State.reset
/-- A machine whose next poll fails. -/
def keyFails : State := polled .fail [] State.reset
/-- A machine whose next poll has no answer. -/
def keyWaits : State := polled .waiting [] State.reset
/-- A machine whose next poll is ready, with some bytes left before the stream's end. -/
def lastKeys (bytes : List Byte) (last : InputEnd) : State :=
  { State.reset with host := { input := bytes, inputEnd := last, polls := [.ready] } }

theorem witness_OnlyReadsOfKbsrPoll : 0xFE02#16 ≠ 0xFE00#16 ∧ (∃ t, keyboardPoll keyDown = .ok t) ∧
    (∃ e, keyboardPoll keyFails = .error (.abort e)) ∧ keyboardPoll keyWaits = .error .wait := ⟨by decide, ⟨_, rfl⟩, ⟨_, rfl⟩, rfl⟩
theorem witness_PollFillsKbsrAndKbdr : keyDown.params.kbsrPollBytes = .one ∧ keyDown.pollSignal = .ready ∧
    keyDown.byteAt 0 = .byte 0x61#8 ∧ keyUp.pollSignal = .notReady ∧ keyFails.pollSignal = .fail ∧
    keyWaits.pollSignal = .waiting := by decide
theorem witness_PollFillsKbsrAndKbdr_nothing_left : (lastKeys [] .eof).pollSignal = .ready ∧ ∀ b, (lastKeys [] .eof).byteAt 0 ≠ .byte b :=
  ⟨rfl, (fun _ h => nomatch h)⟩
/-- A machine that polls two bytes at a time. -/
def twoBytes (s : State) : State := { s with params := { kbsrPollBytes := .two } }
theorem witness_TwoBytePollKeepsOneOfItsBytes : (twoBytes keyDown).params.kbsrPollBytes = .two ∧ (twoBytes keyDown).pollSignal = .ready ∧
    (twoBytes keyDown).byteAt 0 = .byte 0x61#8 ∧ (twoBytes keyDown).byteAt 1 = .byte 0x62#8 := by decide
/-- A lone byte, whatever follows it. -/
theorem witness_TwoBytePollKeepsOneOfItsBytes_lone (last : InputEnd) : (twoBytes (lastKeys [0x61#8] last)).params.kbsrPollBytes = .two ∧
    (twoBytes (lastKeys [0x61#8] last)).pollSignal = .ready ∧ (twoBytes (lastKeys [0x61#8] last)).byteAt 0 = .byte 0x61#8 :=
  ⟨rfl, rfl, rfl⟩
theorem witness_TwoBytePollKeepsOneOfItsBytes_ends : (twoBytes (lastKeys [0x61#8] .waiting)).byteAt 1 = .waiting ∧
    (twoBytes (lastKeys [0x61#8] .eof)).byteAt 1 = .eof ∧ (twoBytes (lastKeys [0x61#8] .fail)).byteAt 1 = .fail := by decide
theorem witness_StoredKbsrIsNeverReadBack : ∃ x t, memRead 0xFE00#16 (keyDown.memWrite 0xFE00#16 0x1234#16) = .ok (x, t) := ⟨_, _, rfl⟩

theorem witness_LdLdrLoadTheWord : BitVec.ofNat 16 (State.reset.pc.toNat + (0x0001#16).toNat) ≠ 0xFE00#16 ∧
    BitVec.ofNat 16 (keyDown.pc.toNat + (0xCE00#16).toNat) = 0xFE00#16 ∧
    (∃ u, keyboardPoll keyDown = .ok u) ∧ (∃ e, keyboardPoll keyFails = .error (.abort e)) ∧ keyboardPoll keyWaits = .error .wait :=
  ⟨by decide, by decide, ⟨_, rfl⟩, ⟨_, rfl⟩, rfl⟩
/-- An LDR at the base address 0xFE00. -/
theorem witness_LdLdrLoadTheWord_ldr :
    BitVec.ofNat 16 (((keyDown.setReg .r1 0xFE00#16).reg .r1).toNat + (0x0000#16).toNat) = 0xFE00#16 ∧
    BitVec.ofNat 16 (((keyDown.setReg .r1 0xFE00#16).reg .r1).toNat + (0x0002#16).toNat) ≠ 0xFE00#16 ∧
    ∃ u, keyboardPoll (keyDown.setReg .r1 0xFE00#16) = .ok u := ⟨by decide, by decide, ⟨_, rfl⟩⟩
/-- For LDI and STI: a pointer cell at KBSR reached with offset -1 from 0xFE01, and one beside it. -/
theorem witness_LdiLoadsThroughThePointer : ({ keyDown with pc := 0xFE01#16 } : State).pc + 0xFFFF#16 = 0xFE00#16 ∧
    ({ keyDown with pc := 0xFE01#16 } : State).pc + 0x0000#16 ≠ 0xFE00#16 ∧
    (∃ u, keyboardPoll { keyDown with pc := 0xFE01#16 } = .ok u) ∧
    ∃ e, keyboardPoll { keyFails with pc := 0xFE01#16 } = .error e := ⟨by decide, by decide, ⟨_, rfl⟩, ⟨_, rfl⟩⟩
theorem witness_StiStoresThroughThePointer : ({ keyFails with pc := 0xFE01#16 } : State).pc + 0xFFFF#16 = 0xFE00#16 ∧
    ({ keyFails with pc := 0xFE01#16 } : State).pc + 0x0001#16 ≠ 0xFE00#16 ∧
    (∃ u, keyboardPoll { keyUp with pc := 0xFE01#16 } = .ok u) ∧
    ∃ e, keyboardPoll { keyFails with pc := 0xFE01#16 } = .error e := ⟨by decide, by decide, ⟨_, rfl⟩, ⟨_, rfl⟩⟩
theorem witness_BranchIsTakenOnMaskMatch :
    (∃ i, i < 3 ∧ (0b010#3).getLsbD i = true ∧ (beforeCC 0x2#16 0x3001#16 0#16).cond.getLsbD i = true) ∧
    (∀ i, i < 3 → (0b101#3).getLsbD i = true → (beforeCC 0x2#16 0x3001#16 0#16).cond.getLsbD i = false) ∧
    State.reset.cond = 0x0000#16 := ⟨⟨1, by decide⟩, by decide, by decide⟩

theorem witness_GetcReadsOneByte : (typed [0x41#8] .eof State.reset).byteAt 0 = .byte 0x41#8 ∧
    (typed [] .eof State.reset).byteAt 0 = .eof ∧ (typed [] .fail State.reset).byteAt 0 = .fail ∧
    (typed [] .waiting State.reset).byteAt 0 = .waiting ∧ State.reset.params.trapReadSetsCC = false ∧
    ({ typed [0x41#8] .eof State.reset with params := { trapReadSetsCC := true } } : State).params.trapReadSetsCC = true := by decide

/-- A machine whose next write and flush fail. -/
def sinkFails : State := { State.reset with host := { writes := [.fail], flushes := [.fail], input := [0x41#8] } }
theorem witness_InFlushesThenReads : (flushOk (typed [0x41#8] .eof State.reset) ∧ (typed [0x41#8] .eof State.reset).byteAt 0 = .byte 0x41#8) ∧
    (flushOk (typed [] .waiting State.reset) ∧ (typed [] .waiting State.reset).byteAt 0 = .waiting) ∧
    (flushOk (typed [] .eof State.reset) ∧ (typed [] .eof State.reset).byteAt 0 ≠ .waiting) ∧ ¬ flushOk sinkFails :=
  ⟨⟨rfl, rfl⟩, ⟨rfl, rfl⟩, ⟨rfl, by decide⟩, (fun h => nomatch (h : OutAnswer.fail = .ok))⟩
theorem witness_InFlushesThenReads_next : flushOk State.reset ∧ (∃ t, exec .trapIn (typed [] .waiting State.reset) = .next t) ∧
    ∃ t, exec .trapIn (typed [0x41#8] .eof State.reset) = .next t := ⟨rfl, ⟨_, rfl⟩, _, rfl⟩
theorem witness_OutWritesTheLowByte : writeOk State.reset ∧ ¬ writeOk sinkFails := ⟨rfl, (fun h => nomatch (h : OutAnswer.fail = .ok))⟩

/-- A machine with a string of one word, 'A' and 'B' packed, at 0x4000, in the middle of a routine. -/
def inString (p : TrapProgress) (host : HostScript) : State :=
  { (State.reset.setReg .r0 0x4000#16).memWrite 0x4000#16 0x4241#16 with trap := some p, host := host }
theorem witness_PutsTakesOneWordPerMicroStep : (inString (.puts 0x4000#16) {}).status = .running ∧
    (inString (.puts 0x4000#16) {}).trap = some (.puts 0x4000#16) ∧ 0x4000#16 = (inString (.puts 0x4000#16) {}).reg .r0 ∧
    (∃ u, memRead 0x4000#16 (inString (.puts 0x4000#16) {}) = .ok (0x4241#16, u) ∧ writeOk u) ∧
    (∃ u, memRead 0x4000#16 (inString (.puts 0x4000#16) { writes := [.fail] }) = .ok (0x4241#16, u) ∧ ¬ writeOk u) ∧
    (∃ u, memRead 0x4001#16 (inString (.puts 0x4001#16) {}) = .ok (0x0000#16, u) ∧ flushOk u) ∧
    (∃ u, memRead 0x4001#16 (inString (.puts 0x4001#16) { flushes := [.fail] }) = .ok (0x0000#16, u) ∧ ¬ flushOk u) ∧
    (∃ e, memRead 0xFE00#16 (inString (.puts 0xFE00#16) { polls := [.fail] }) = .error e) :=
  ⟨rfl, rfl, rfl, ⟨_, rfl, rfl⟩, ⟨_, rfl, (fun h => nomatch (h : OutAnswer.fail = .ok))⟩, ⟨_, rfl, rfl⟩,
    ⟨_, rfl, (fun h => nomatch (h : OutAnswer.fail = .ok))⟩, ⟨_, rfl⟩⟩
theorem witness_PutspTakesOneWordPerMicroStep : (inString (.putsp 0x4000#16) {}).status = .running ∧
    (inString (.putsp 0x4000#16) {}).trap = some (.putsp 0x4000#16) ∧ 0x4000#16 = (inString (.putsp 0x4000#16) {}).reg .r0 ∧
    (∃ u, memRead 0x4000#16 (inString (.putsp 0x4000#16) { writes := [.ok, .ok, .fail] }) = .ok (0x4241#16, u) ∧ writeOk u ∧
      u.host.writes.tail.headD .ok = .ok) ∧
    (∃ u, memRead 0x4001#16 (inString (.putsp 0x4001#16) {}) = .ok (0x0000#16, u) ∧ flushOk u) ∧
    (∃ u, memRead 0x4001#16 (inString (.putsp 0x4001#16) { flushes := [.fail] }) = .ok (0x0000#16, u) ∧ ¬ flushOk u) ∧
    (∃ e, memRead 0xFE00#16 (inString (.putsp 0xFE00#16) { polls := [.fail] }) = .error e) :=
  ⟨rfl, rfl, rfl, ⟨_, rfl, rfl, rfl⟩, ⟨_, rfl, rfl⟩,
    ⟨_, rfl, (fun h => nomatch (h : OutAnswer.fail = .ok))⟩, ⟨_, rfl⟩⟩
/-- A word whose zero high byte is skipped needs one write that succeeds. -/
theorem witness_PutspTakesOneWordPerMicroStep_skip :
    ({ packed with params := { putspSkipZeroHigh := true } } : State).params.putspSkipZeroHigh = true ∧
    (0x0021#16).toNat < 256 ∧
    ∃ u, memRead 0x4001#16 { packed with params := { putspSkipZeroHigh := true }, host := { writes := [.ok, .fail] } } = .ok (0x0021#16, u) ∧ writeOk u :=
  ⟨rfl, by decide, _, rfl, rfl⟩
theorem witness_PutspKeepsTheBytesBeforeAFailedWrite : 0x4000#16 = (inString (.putsp 0x4000#16) {}).reg .r0 ∧
    (inString (.putsp 0x4000#16) {}).status = .running ∧ (inString (.putsp 0x4000#16) {}).trap = some (.putsp 0x4000#16) ∧
    (∃ u, memRead 0x4000#16 (inString (.putsp 0x4000#16) { writes := [.fail] }) = .ok (0x4241#16, u) ∧ ¬ writeOk u) ∧
    (∃ u, memRead 0x4000#16 (inString (.putsp 0x4000#16) { writes := [.ok, .fail] }) = .ok (0x4241#16, u) ∧ writeOk u ∧
      u.host.writes.tail.headD .ok ≠ .ok) ∧ 256 ≤ (0x4241#16).toNat ∧ 0x4241#16 ≠ 0x0000#16 :=
  ⟨rfl, rfl, rfl, ⟨_, rfl, (fun h => nomatch (h : OutAnswer.fail = .ok))⟩,
    ⟨_, rfl, rfl, (fun h => nomatch (h : OutAnswer.fail = .ok))⟩, by decide, by decide⟩
theorem witness_PutsWritesTheWholeString : (inString (.puts 0x4000#16) {}).status = .running ∧
    0x4000#16 = (inString (.puts 0x4000#16) {}).reg .r0 ∧ (inString (.puts 0x4000#16) {}).trap = some (.puts 0x4000#16) ∧
    (∀ k, k ≤ [0x4241#16].length → BitVec.ofNat 16 ((0x4000#16).toNat + k) ≠ 0xFE00#16) ∧
    (∀ k, k < [0x4241#16].length → (inString (.puts 0x4000#16) {}).cell (BitVec.ofNat 16 ((0x4000#16).toNat + k)) = [0x4241#16].getD k 0#16) ∧
    (∀ c, c ∈ [0x4241#16] → c ≠ 0x0000#16) ∧
    (inString (.puts 0x4000#16) {}).cell (BitVec.ofNat 16 ((0x4000#16).toNat + [0x4241#16].length)) = 0x0000#16 ∧
    (∀ x, x ∈ (inString (.puts 0x4000#16) { writes := [.ok, .fail] }).host.writes.take [0x4241#16].length → x = .ok) ∧
    flushOk (inString (.puts 0x4000#16) {}) := by
  refine ⟨rfl, rfl, rfl, ?_, ?_, by simp, rfl, ?_, rfl⟩
  · intro k hk; obtain rfl | rfl : k = 0 ∨ k = 1 := by simp at hk; omega
    all_goals decide
  · intro k hk; obtain rfl : k = 0 := by simpa using hk
    rfl
  · decide
theorem witness_PutspWritesTheWholeString : (inString (.putsp 0x4000#16) {}).status = .running ∧
    0x4000#16 = (inString (.putsp 0x4000#16) {}).reg .r0 ∧ (inString (.putsp 0x4000#16) {}).trap = some (.putsp 0x4000#16) ∧
    (∀ k, k < [0x4241#16].length → (inString (.putsp 0x4000#16) {}).cell (BitVec.ofNat 16 ((0x4000#16).toNat + k)) = [0x4241#16].getD k 0#16) ∧
    (∀ k, k ≤ [0x4241#16].length → BitVec.ofNat 16 ((0x4000#16).toNat + k) ≠ 0xFE00#16) ∧
    (∀ c, c ∈ [0x4241#16] → c ≠ 0x0000#16) ∧
    (inString (.putsp 0x4000#16) {}).cell (BitVec.ofNat 16 ((0x4000#16).toNat + [0x4241#16].length)) = 0x0000#16 ∧
    (∀ x, x ∈ (inString (.putsp 0x4000#16) { writes := [.ok, .ok, .fail] }).host.writes.take (putspBytes false [0x4241#16]).length → x = .ok) ∧
    flushOk (inString (.putsp 0x4000#16) {}) := by
  refine ⟨rfl, rfl, rfl, ?_, witness_PutsWritesTheWholeString.2.2.2.1, by simp, rfl, ?_, rfl⟩
  · intro k hk; obtain rfl : k = 0 := by simpa using hk
    rfl
  · decide
theorem witness_HaltFlushesAndHalts : flushOk State.reset ∧ ¬ flushOk sinkFails := ⟨rfl, (fun h => nomatch (h : OutAnswer.fail = .ok))⟩
theorem witness_HaltEndsTheRunWithoutAFetch : (before 0x3001#16 0xF025#16).ready ∧ (before 0x3001#16 0xF025#16).pc ≠ 0xFFFF#16 ∧
    (before 0x3001#16 0xF025#16).pc ≠ 0xFE00#16 ∧
    decode ((before 0x3001#16 0xF025#16).cell (before 0x3001#16 0xF025#16).pc) = .ok .trapHalt ∧
    decode ((before 0x3001#16 0xFF25#16).cell (before 0x3001#16 0xFF25#16).pc) = .ok .trapHalt ∧
    flushOk (before 0x3001#16 0xF025#16) := ⟨⟨rfl, rfl⟩, by decide, by decide, rfl, rfl, rfl⟩
theorem witness_ReservedOpcodesAbort : (0x8ABC#16).extractLsb' 12 4 = 0x8#4 ∧ (0xDFFF#16).extractLsb' 12 4 = 0xD#4 := by decide
theorem witness_DecodeFailureAbortsAfterTheIncrement : (before 0x3001#16 0xF026#16).ready ∧ (before 0x3001#16 0xF026#16).pc ≠ 0xFFFF#16 ∧
    (∃ u, fetch (before 0x3001#16 0xF026#16) = .ok (0xF026#16, u)) ∧ ∃ e, decode 0xF026#16 = .error e :=
  ⟨⟨rfl, rfl⟩, by decide, ⟨_, rfl⟩, ⟨_, rfl⟩⟩
theorem witness_UnknownInstructionNeverArises : ∃ t, step State.reset = .next t := ⟨_, rfl⟩
theorem witness_ErrorsArePrecise : ∃ t e, step (before 0x3001#16 0xF026#16) = .next t ∧ t.status = .aborted e := ⟨_, _, rfl, rfl⟩
theorem witness_StepRunsTheDecodedInstruction : (before 0x3001#16 0x1261#16).ready ∧ (before 0x3001#16 0x1261#16).pc ≠ 0xFFFF#16 ∧
    (∃ u, fetch (before 0x3001#16 0x1261#16) = .ok (0x1261#16, u)) ∧ (before 0x3001#16 0x1261#16).pc ≠ 0xFE00#16 ∧
    decode ((before 0x3001#16 0x1261#16).cell (before 0x3001#16 0x1261#16).pc) = .ok (.addImm .r1 .r1 0x0001#16) :=
  ⟨⟨rfl, rfl⟩, by decide, ⟨_, rfl⟩, by decide, rfl⟩
/-- A fetch at KBSR: 0x8000 decodes to RTI and 0 to a branch that is never taken. -/
theorem witness_StepRunsTheDecodedInstruction_kbsr : ({ keyUp with pc := 0xFE00#16 } : State).ready ∧
    ∃ u i, keyboardPoll { keyUp with pc := 0xFE00#16 } = .ok u ∧ decode (u.cell 0xFE00#16) = .ok i := ⟨⟨rfl, rfl⟩, _, _, rfl, rfl⟩
theorem witness_OnlyControlTransfersMoveThePC : (∃ w u, fetch State.reset = .ok (w, u)) ∧
    (transfersControl .trapHalt = false ∧ ∃ t, exec .trapHalt State.reset = .next t) ∧
    ∃ p t, (inString (.puts 0x4000#16) {}).trap = some p ∧ step (inString (.puts 0x4000#16) {}) = .next t :=
  ⟨⟨_, _, rfl⟩, ⟨rfl, _, rfl⟩, ⟨_, _, rfl, rfl⟩⟩
theorem witness_PcLimitEndsTheRun : ({ State.reset with pc := 0xFFFF#16 } : State).ready ∧
    ({ State.reset with pc := 0xFFFF#16 } : State).pc = 0xFFFF#16 := ⟨⟨rfl, rfl⟩, rfl⟩
theorem witness_FailedFetchPollLeavesThePC : ({ keyFails with pc := 0xFE00#16 } : State).ready ∧
    ({ keyFails with pc := 0xFE00#16 } : State).pc = 0xFE00#16 ∧ (∃ e, keyboardPoll { keyFails with pc := 0xFE00#16 } = .error (.abort e)) ∧
    ({ keyWaits with pc := 0xFE00#16 } : State).ready ∧ keyboardPoll { keyWaits with pc := 0xFE00#16 } = .error .wait :=
  ⟨⟨rfl, rfl⟩, rfl, ⟨_, rfl⟩, ⟨rfl, rfl⟩, rfl⟩
theorem witness_RunningMachinesStepAndEndedRunsDoNot : State.reset.status = .running ∧ State.reset.hostAnswers ∧
    ({ State.reset with status := .halted } : State).status = .halted ∧
    ({ State.reset with status := .limitReached } : State).status = .limitReached ∧
    ({ State.reset with status := .aborted (.ioError .eof) } : State).status = .aborted (.ioError .eof) :=
  ⟨rfl, ⟨by decide, by decide⟩, rfl, rfl, rfl⟩
theorem witness_WaitingReadStaysUntilAByteArrives : (inString .reading {}).status = .running ∧
    (inString .reading {}).trap = some .reading ∧ (inString .reading { inputEnd := .waiting }).byteAt 0 = .waiting ∧
    (inString .reading { input := [0x41#8] }).byteAt 0 = .byte 0x41#8 ∧
    (inString .reading { inputEnd := .eof }).byteAt 0 = .eof ∧ (inString .reading { inputEnd := .fail }).byteAt 0 = .fail := by decide
theorem witness_WaitingReadStaysUntilAByteArrives_getc : (typed [] .waiting (before 0x3001#16 0xF020#16)).ready ∧
    (typed [] .waiting (before 0x3001#16 0xF020#16)).pc ≠ 0xFFFF#16 ∧ (typed [] .waiting (before 0x3001#16 0xF020#16)).pc ≠ 0xFE00#16 ∧
    decode ((typed [] .waiting (before 0x3001#16 0xF020#16)).cell 0x3000#16) = .ok .trapGetc ∧
    (typed [] .waiting (before 0x3001#16 0xF020#16)).byteAt 0 = .waiting := ⟨⟨rfl, rfl⟩, by decide, by decide, rfl, rfl⟩
theorem witness_WaitingReadStaysUntilAByteArrives_poll : keyWaits.pc + 0xCE00#16 = 0xFE00#16 ∧ keyWaits.pollSignal = .waiting := by decide
theorem witness_StoredWordIsFetchedNext : State.reset.ready ∧ State.reset.pc ≠ 0xFFFF#16 ∧ State.reset.pc ≠ 0xFE00#16 :=
  ⟨⟨rfl, rfl⟩, by decide, by decide⟩
theorem witness_reset_inv : State.reset.Inv := ⟨witness_ReadsSeeTheLastWrite, .inl rfl, fun _ => rfl, (fun _ h => nomatch h)⟩
theorem witness_StepKeepsTheInvariant : State.reset.Inv ∧ ∃ t, step State.reset = .next t := ⟨witness_reset_inv, _, rfl⟩
theorem witness_CondIsOneHotOnceSet :
    (setsFlags (.not .r1 .r1) = true ∧ ∃ t, exec (.not .r1 .r1) State.reset = .next t) ∧
    (∃ t, readsInput .trapGetc = true ∧ (typed [0x41#8] .eof { State.reset with params := { trapReadSetsCC := true } }).params.trapReadSetsCC = true ∧
      exec .trapGetc (typed [0x41#8] .eof { State.reset with params := { trapReadSetsCC := true } }) = .next t ∧ t.trap = none) ∧
    (oneHot (beforeCC 0x4#16 0x3001#16 0x1261#16).cond ∧ ∃ t, step (beforeCC 0x4#16 0x3001#16 0x1261#16) = .next t) ∧
    (State.reset.cond = 0x0000#16 ∧ ∃ t, step State.reset = .next t) ∧
    (setsFlags (.jmp .r1) = false ∧ readsInput (.jmp .r1) = false ∧ ∃ t, exec (.jmp .r1) State.reset = .next t) :=
  ⟨⟨rfl, _, rfl⟩, ⟨_, rfl, rfl, rfl, rfl⟩, ⟨.inr (.inr rfl), _, rfl⟩, ⟨rfl, _, rfl⟩, ⟨rfl, rfl, _, rfl⟩⟩
theorem witness_OnlyListedInstructionsWriteRegisters :
    (∃ u w, fetch { keyDown with pc := 0xFE00#16 } = .ok (w, u)) ∧ (∃ u, keyboardPoll keyDown = .ok u) ∧
    (writtenReg (.jsr 0x0001#16) ≠ some .r0 ∧ ∃ t, exec (.jsr 0x0001#16) State.reset = .next t) ∧
    (∃ p t, (inString .reading { input := [0x41#8] }).trap = some p ∧ step (inString .reading { input := [0x41#8] }) = .next t ∧ Reg.r1 ≠ .r0) ∧
    (∃ t, ({ State.reset with pc := 0xFFFF#16 } : State).ready ∧ step { State.reset with pc := 0xFFFF#16 } = .next t) ∧
    ∃ t e, step (before 0x3001#16 0x8000#16) = .next t ∧ t.status = .aborted e :=
  ⟨⟨_, _, rfl⟩, ⟨_, rfl⟩, ⟨by decide, _, rfl⟩, ⟨_, _, rfl, rfl, by decide⟩, ⟨_, ⟨rfl, rfl⟩, rfl⟩, ⟨_, _, rfl, rfl⟩⟩
theorem witness_OnlyListedInstructionsWriteFlags : (∃ u w, fetch { keyDown with pc := 0xFE00#16 } = .ok (w, u)) ∧
    (∃ t, exec (.not .r1 .r1) State.reset = .next t ∧ setsFlags (.not .r1 .r1) = true ∧ ∀ e, t.status ≠ .aborted e) ∧
    (∃ t, exec .trapGetc (typed [0x41#8] .eof State.reset) = .next t ∧ setsFlags .trapGetc = false ∧
      (typed [0x41#8] .eof State.reset).params.trapReadSetsCC = false) ∧
    ∃ p t, (inString (.puts 0x4000#16) {}).trap = some p ∧ step (inString (.puts 0x4000#16) {}) = .next t ∧ p ≠ .reading :=
  ⟨⟨_, _, rfl⟩, ⟨_, rfl, rfl, (fun _ h => nomatch h)⟩, ⟨_, rfl, rfl, rfl⟩, ⟨_, _, rfl, rfl, by decide⟩⟩
theorem witness_OnlyBranchReadsCond : (∀ mask off, Instr.jsrr .r2 ≠ .br mask off) ∧ ∃ t, exec (.jsrr .r2) State.reset = .next t :=
  ⟨(fun _ _ h => nomatch h), _, rfl⟩
theorem witness_OnlyStoresAndPollsWriteMemory : (∃ t, exec (.st .r1 0x0001#16) State.reset = .next t) ∧
    storeAddress (.st .r1 0x0001#16) State.reset ≠ some 0xFE00#16 ∧ 0xFE00#16 ∉ readAddresses (.st .r1 0x0001#16) State.reset ∧
    (∃ t, exec (.ld .r1 0xCE00#16) keyDown = .next t) ∧ storeAddress (.ld .r1 0xCE00#16) keyDown ≠ some 0xFE01#16 ∧
    0xFE01#16 ≠ 0xFE00#16 ∧ 0xFE01#16 ≠ 0xFE02#16 :=
  ⟨⟨_, rfl⟩, by decide, by decide, ⟨_, rfl⟩, by decide, by decide, by decide⟩
theorem witness_OnlyStoresAndPollsWriteMemory_steps : (∃ u w, fetch State.reset = .ok (w, u)) ∧ State.reset.pc ≠ 0xFE00#16 ∧
    ∃ p t, (inString (.puts 0x4000#16) {}).trap = some p ∧ step (inString (.puts 0x4000#16) {}) = .next t ∧ p.readAddress ≠ some 0xFE00#16 :=
  ⟨⟨_, _, rfl⟩, by decide, _, _, rfl, rfl, by decide⟩
theorem witness_HostsMayAnswerForEver : keyDown.host.input = 0x61#8 :: [0x62#8] ∧ State.reset.host.input = [] ∧
    State.reset.host.inputEnd = .free ∧ (typed [] .waiting State.reset).host.inputEnd = .waiting ∧
    (typed [] .eof State.reset).host.inputEnd = .eof ∧ (typed [] .fail State.reset).host.inputEnd = .fail ∧
    ({ State.reset with host := { pollsEnd := .whenByte } } : State).host.pollsEnd = .whenByte ∧ State.reset.host.polls = [] ∧
    State.reset.host.pollsEnd = .free ∧ keyDown.host.polls = .ready :: [] := by decide
theorem witness_HostsMayAnswerForEver_poll : ∃ t, keyboardPoll keyDown = .ok t := ⟨_, rfl⟩
theorem witness_StepsAppendOutputAndConsumeInputInOrder : ∃ t, step (typed [0x41#8] .eof (before 0x3001#16 0xF020#16)) = .next t := ⟨_, rfl⟩

end Sys2Proof.Tests
end

section
/-! PROOFS. The family of 00_scope.md: sign extension (R8), the arbitrary initial memory (R6, R35), the host's draws (R13). -/

namespace Sys2Proof

/-! ### Sign extension (R8) -/

/-- A field whose top bit is 0 is not changed by its sign extension. -/
theorem sext_of_msb_false {n : Nat} {f : BitVec n} (h : f.msb = false) : sext f = f.setWidth 16 :=
  BitVec.signExtend_eq_setWidth_of_msb_false h

/-- The bits of `0xFFFF << n` are those from bit `n` up. -/
theorem getLsbD_ones_shiftLeft {n i : Nat} (hi : i < 16) : (0xFFFF#16 <<< n).getLsbD i = decide (n ≤ i) := by
  rw [show 0xFFFF#16 = BitVec.allOnes 16 from rfl, BitVec.getLsbD_shiftLeft, BitVec.getLsbD_allOnes]
  by_cases hn : n ≤ i
  · simp [hi, hn, Nat.sub_lt_of_lt hi]
  · simp [hn, Nat.lt_of_not_le hn]

/-- A field whose top bit is 1 gets ones in every bit above its width. -/
theorem sext_of_msb_true {n : Nat} {f : BitVec n} (h : f.msb = true) :
    sext f = f.setWidth 16 ||| (0xFFFF#16 <<< n) := by
  refine BitVec.eq_of_getLsbD_eq fun i hi => ?_
  rw [sext, BitVec.getLsbD_signExtend, BitVec.getLsbD_or, BitVec.getLsbD_setWidth, getLsbD_ones_shiftLeft hi]
  by_cases hin : i < n
  · simp [hi, hin]
  · simp [hi, hin, h, Nat.le_of_not_lt hin]

/-- Settles O2, by the field's top bit. -/
theorem signExtensionCopiesTheTopBit : Obligations.SignExtensionCopiesTheTopBit := by
  intro n f _ _
  rw [← BitVec.msb_eq_getLsbD_last]
  split
  · next h => exact sext_of_msb_true h
  · next h => exact sext_of_msb_false (Bool.eq_false_of_not_eq_true h)

end Sys2Proof

namespace Sys2Proof.Machine

/-! ### Initial memory (R6, R35) -/

/-- The words of a `MEM_INIT`, by rising address. -/
def wordsOfMemInit (f : Word → Word) : List Word := (List.range Config.memorySize).map fun a => f (BitVec.ofNat 16 a)

theorem wordsOfMemInit_length (f : Word → Word) : (wordsOfMemInit f).length = Config.memorySize := by
  rw [wordsOfMemInit, List.length_map, List.length_range]

theorem wordsOfMemInit_getD (f : Word → Word) (a : Word) : (wordsOfMemInit f).getD a.toNat 0#16 = f a := by
  rw [wordsOfMemInit, List.getD_eq_getElem?_getD, List.getElem?_map, List.getElem?_range (show a.toNat < Config.memorySize from a.isLt)]
  simp

/-- The memory that lists a `MEM_INIT`: its words placed in the empty memory from address 0 on. -/
def memoryOfMemInit (f : Word → Word) : Memory := placeWords [] 0 (wordsOfMemInit f)

theorem memoryOfMemInit_wf (f : Word → Word) : (memoryOfMemInit f).wf :=
  placeWords_wf _ _ _ ⟨.nil, fun _ h => nomatch h⟩ (by rw [wordsOfMemInit_length, Nat.zero_add])

theorem memoryOfMemInit_read (f : Word → Word) (a : Word) : (memoryOfMemInit f).read a.toNat = f a := by
  have h := placeWords_read (wordsOfMemInit f) [] 0 a.toNat (by rw [wordsOfMemInit_length]; exact a.isLt)
  rwa [Nat.zero_add, wordsOfMemInit_getD] at h

/-- Settles O10, by placing all 65536 words. -/
theorem everyMemInitIsSomeMemory : Obligations.EveryMemInitIsSomeMemory :=
  fun f => ⟨memoryOfMemInit f, memoryOfMemInit_wf f, memoryOfMemInit_read f⟩

/-! ### The host's draws (R13) -/

/-- The listed bytes come first. -/
theorem byteAt_of_listed {s : State} {k : Nat} {b : Byte} (h : s.host.input[k]? = some b) : s.byteAt k = .byte b := by
  unfold State.byteAt
  rw [h]

/-- After the listed bytes the stream answers what its end says. -/
theorem byteAt_of_unlisted {s : State} {k : Nat} (h : s.host.input[k]? = none) :
    (s.host.inputEnd = .waiting → s.byteAt k = .waiting) ∧ (s.host.inputEnd = .eof → s.byteAt k = .eof) ∧
    (s.host.inputEnd = .fail → s.byteAt k = .fail) ∧
    (s.host.inputEnd = .free → s.byteAt k = .byte (Config.inputByte (s.inputPos + k))) := by
  unfold State.byteAt
  rw [h]
  exact ⟨fun e => by rw [e], fun e => by rw [e], fun e => by rw [e], fun e => by rw [e]⟩

/-- A stream that never ends has a byte at every position, listed or free. -/
theorem byteAt_of_free {s : State} (h : s.host.inputEnd = .free) (k : Nat) : ∃ b, s.byteAt k = .byte b := by
  cases hk : s.host.input[k]? with
  | some b => exact ⟨b, byteAt_of_listed hk⟩
  | none =>
    obtain ⟨-, -, -, hfree⟩ := byteAt_of_unlisted hk
    exact ⟨_, hfree h⟩

/-- After the listed signals, polls that follow the stream are all ready. -/
theorem pollSignal_of_whenByte {s : State} (h : s.host.polls = []) (he : s.host.pollsEnd = .whenByte) :
    s.pollSignal = .ready := by
  unfold State.pollSignal
  rw [h, he]

/-- After the listed signals, free polls are each ready or not. -/
theorem pollSignal_of_free {s : State} (h : s.host.polls = []) (he : s.host.pollsEnd = .free) :
    s.pollSignal = .ready ∨ s.pollSignal = .notReady := by
  unfold State.pollSignal
  rw [h, he]
  cases Config.pollReady s.host.pollCount
  · exact .inr rfl
  · exact .inl rfl

/-- A poll that goes on uses up one listed signal and leaves the ends of the script as they are. -/
theorem keyboardPoll_ok_script {s t : State} (h : keyboardPoll s = .ok t) :
    t.host.polls = s.host.polls.tail ∧ t.host.pollsEnd = s.host.pollsEnd ∧ t.host.inputEnd = s.host.inputEnd := by
  rcases keyboardPoll_cases s with h' | ⟨h', _⟩ | h' | ⟨b, n, _, h'⟩ <;> rw [h'] at h
  · cases h
  · cases h
  · obtain rfl := Except.ok.inj h
    exact ⟨rfl, rfl, rfl⟩
  · obtain rfl := Except.ok.inj h
    exact ⟨rfl, rfl, rfl⟩

/-- A ready signal with the bytes it asks for is an answered poll, in the one-byte and in the two-byte form (R44, R48). -/
theorem hostPoll_of_ready {s : State} (hs : s.pollSignal = .ready) (hb : ∀ k, ∃ b, s.byteAt k = .byte b) :
    ∃ b n, hostPoll s = (.ready b, s.dropPoll.consume n) := by
  obtain ⟨b1, h1⟩ := hb 0
  obtain ⟨b2, h2⟩ := hb 1
  unfold hostPoll
  cases hp : s.params.kbsrPollBytes with
  | one => exact ⟨b1, 1, by simp only [hs, h1]⟩
  | two => exact ⟨keptByte s.inputPos b1 b2, 2, by simp only [hs, h1, h2]⟩

/-- A ready poll of a stream that does not end sets bit 15 of KBSR (R44). -/
theorem keyboardPoll_of_ready {s : State} (hs : s.pollSignal = .ready) (hb : ∀ k, ∃ b, s.byteAt k = .byte b) :
    ∃ t, keyboardPoll s = .ok t ∧ t.cell Config.kbsr = 0x8000#16 := by
  obtain ⟨b, n, h⟩ := hostPoll_of_ready hs hb
  refine ⟨_, by rw [keyboardPoll, h], ?_⟩
  rw [State.cell_memWrite_of_ne _ _ (by decide), State.cell_memWrite_same]

/-- Settles O60, clause by clause; the host that is ready for ever is the last one. -/
theorem hostsMayAnswerForEver : Obligations.HostsMayAnswerForEver := by
  refine ⟨fun s b rest h => ?_, fun s k h => ?_, fun s p rest h => ⟨pollSignal_of_cons h, fun t ht => ?_⟩,
    fun s h => ⟨pollSignal_of_whenByte h, pollSignal_of_free h⟩, fun s hi hp he => ?_⟩
  · exact byteAt_of_listed (by rw [h]; rfl)
  · obtain ⟨hwaiting, heof, hfail, hfree⟩ := byteAt_of_unlisted (s := s) (k := k) (by rw [h]; rfl)
    exact ⟨hwaiting, heof, hfail, fun e => ⟨_, hfree e⟩⟩
  · rw [(keyboardPoll_ok_script ht).1, h, List.tail_cons]
  · obtain ⟨t, ht, hk⟩ := keyboardPoll_of_ready (pollSignal_of_whenByte hp he) (byteAt_of_free hi)
    obtain ⟨hpolls, hend, hinput⟩ := keyboardPoll_ok_script ht
    exact ⟨t, ht, hk, hinput.trans hi, by rw [hpolls, hp, List.tail_nil], hend.trans he⟩

end Sys2Proof.Machine
end

section
/-! PROOFS. The family of 10_state.md: what an instruction, a micro-step and a step leave of the state, said once each, and from
that the invariant, the writers of the registers, of `PC` and of `COND`, output and input, progress, and reset. -/

namespace Sys2Proof.Machine

/-! ### What every part of a step keeps -/

/-- What every operation and every step does: memory stays canonical, the parameters stay, the log grows, input is consumed in
order, and a host that answers goes on answering (R6, R33, R34, R40, R44, R97). -/
structure Advance (s t : State) : Prop where
  wf : s.mem.wf → t.mem.wf
  params : t.params = s.params
  output : ∃ es, t.output = s.output ++ es
  input : ∃ n, consumed n s t
  answers : s.hostAnswers → t.hostAnswers

theorem Advance.trans {s t u : State} (h : Advance s t) (k : Advance t u) : Advance s u := by
  obtain ⟨es, he⟩ := h.output
  obtain ⟨fs, hf⟩ := k.output
  obtain ⟨n, hn⟩ := h.input
  obtain ⟨m, hm⟩ := k.input
  exact ⟨k.wf ∘ h.wf, k.params.trans h.params, ⟨es ++ fs, by rw [hf, he, List.append_assoc]⟩, ⟨n + m, consumed_trans hn hm⟩,
    k.answers ∘ h.answers⟩

/-- `Advance` looks at no register, no flag, not at `PC`, the status or the trap unit. -/
theorem Advance.of_eq {s t u : State} (h : Advance s t) (hm : u.mem = t.mem) (hp : u.params = t.params)
    (ho : u.output = t.output) (hi : u.inputPos = t.inputPos) (hh : u.host = t.host) : Advance s u := by
  obtain ⟨n, hpos, hbytes, hlisted⟩ := h.input
  refine ⟨fun w => hm ▸ h.wf w, hp.trans h.params, by rw [ho]; exact h.output, ⟨n, hi.trans hpos, fun k => ?_, hlisted⟩, ?_⟩
  · rw [← hbytes k, State.byteAt, State.byteAt, hh, hi]
  · unfold State.hostAnswers; rw [hh]; exact h.answers

theorem Polled.advance {s t : State} (h : Polled s t) : Advance s t :=
  ⟨h.wf, h.params, ⟨[], by rw [h.output, List.append_nil]⟩, h.input, h.answers⟩

theorem Wrote.advance {s t : State} (h : Wrote s t) : Advance s t :=
  ⟨fun w => h.mem ▸ w, h.params, h.output, ⟨0, consumed_zero h.inputPos h.bytes⟩, h.answers⟩

/-- Taking a byte that the stream holds (R33, R44). -/
theorem Advance.consume_one {s : State} {b : Byte} (h : s.byteAt 0 = .byte b) : Advance s (s.consume 1) :=
  ⟨id, rfl, ⟨[], by simp⟩, ⟨1, rfl, fun k => s.consume_byteAt 1 k, fun k hk => ⟨b, by rwa [Nat.lt_one_iff.mp hk]⟩⟩, id⟩

/-- An `Advance` that writes no register, no flag and not `PC`. -/
structure Quiet (s t : State) : Prop extends Advance s t where
  regs : t.regs = s.regs
  pc : t.pc = s.pc
  cond : t.cond = s.cond

theorem Quiet.reg {s t : State} (h : Quiet s t) (r : Reg) : t.reg r = s.reg r := congrArg (Regs.get · r) h.regs

theorem Polled.quiet {s t : State} (h : Polled s t) : Quiet s t := ⟨h.advance, h.regs, h.pc, h.cond⟩

theorem Wrote.quiet {s t : State} (h : Wrote s t) : Quiet s t := ⟨h.advance, h.regs, h.pc, h.cond⟩

theorem StringStep.quiet {s t : State} (h : StringStep s t) : Quiet s t :=
  ⟨⟨h.wf, h.params, h.output, h.input, h.answers⟩, h.regs, h.pc, h.cond⟩

theorem Quiet.refl (s : State) : Quiet s s := (Polled.refl s).quiet

/-- The run status and the trap unit do not matter to `Quiet`. -/
theorem Quiet.withControl {s t : State} (h : Quiet s t) (st : RunStatus) (tp : Option TrapProgress) :
    Quiet s { t with status := st, trap := tp } :=
  ⟨h.toAdvance.of_eq rfl rfl rfl rfl rfl, h.regs, h.pc, h.cond⟩

theorem Quiet.memWrite {s t : State} (h : Quiet s t) (a v : Word) : Quiet s (t.memWrite a v) :=
  ⟨⟨fun w => State.memWrite_wf (h.wf w) a v, h.params, h.output, h.input, h.answers⟩, h.regs, h.pc, h.cond⟩

/-! ### What an instruction can do -/

/-- Everything an instruction that answers a next state can have done: a result and its flags, a control transfer (linking or
not), an input byte in `R0`, an aborted run, or none of these. -/
inductive InstrEffect (i : Instr) (s : State) : State → Prop
  | result {u : State} {dr : Reg} (v : Word) (hf : setsFlags i = true) (hr : writtenReg i = some dr) (q : Quiet s u)
      (hs : u.status = s.status) : InstrEffect i s (writeResult dr v u)
  | transfer {u : State} (a : Word) (hc : transfersControl i = true)
      (hu : u = s ∨ writtenReg i = some .r7 ∧ u = link s) : InstrEffect i s (u.setPC a)
  | byte {u : State} {b : Byte} (hi : readsInput i = true) (w : Wrote s u) (hb : u.byteAt 0 = .byte b) :
      InstrEffect i s (takeByte b (u.consume 1))
  | abort {t : State} {e : RunError} (q : Quiet s t) (he : reachableError e = true) (hs : t.status = .aborted e)
      (ht : t.trap = none) : InstrEffect i s t
  | quiet {t : State} (q : Quiet s t) (hf : setsFlags i = false) (hi : readsInput i = true → t.trap = some .reading)
      (hs : t.status = s.status ∨ i = .trapHalt ∧ t.status = .halted ∧ t.trap = s.trap) : InstrEffect i s t

section
variable {i : Instr} {s t u : State}

/-- An abort in a state that differs quietly from the first one (R174). -/
theorem InstrEffect.of_abort {e : RunError} (q : Quiet s u) (he : reachableError e = true) :
    InstrEffect i s { u with status := .aborted e, trap := none } :=
  .abort (q.withControl _ _) he rfl rfl

/-- An operation that may stop, inside an instruction. -/
theorem orStop_effect {α : Type} {r : Except Stop α} {k : α → Result} (h : orStop u r k = .next t) (q : Quiet s u)
    (he : ∀ e, r = .error (.abort e) → reachableError e = true)
    (hk : ∀ a, r = .ok a → k a = .next t → InstrEffect i s t) : InstrEffect i s t := by
  rcases orStop_next h with ⟨a, hr, ha⟩ | ⟨e, hr, rfl⟩
  · exact hk a hr ha
  · exact .of_abort q (he e hr)

theorem memRead_effect {a : Word} {k : Word × State → Result} (h : orStop u (memRead a u) k = .next t) (q : Quiet s u)
    (hk : ∀ v w, Polled u w → k (v, w) = .next t → InstrEffect i s t) : InstrEffect i s t :=
  orStop_effect h q (fun _ he => memRead_abort he ▸ rfl) fun x hx => hk x.1 x.2 (memRead_ok hx).2

theorem hostWrite_effect {b : Byte} {k : State → Result} (h : orStop u (hostWrite b u) k = .next t) (q : Quiet s u)
    (hk : ∀ w, Wrote u w ∧ w.trap = u.trap → k w = .next t → InstrEffect i s t) : InstrEffect i s t :=
  orStop_effect h q (fun _ he => Stop.abort.inj (hostWrite_error he) ▸ rfl) fun w hw => hk w (hostWrite_wrote hw)

theorem hostFlush_effect {k : State → Result} (h : orStop u (hostFlush u) k = .next t) (q : Quiet s u)
    (hk : ∀ w, Wrote u w ∧ w.trap = u.trap → k w = .next t → InstrEffect i s t) : InstrEffect i s t :=
  orStop_effect h q (fun _ he => Stop.abort.inj (hostFlush_error he) ▸ rfl) fun w hw => hk w (hostFlush_wrote hw)

theorem raiseAbort_effect {e : RunError} (h : raiseAbort e s = .next t) (he : reachableError e = true) :
    InstrEffect i s t := by
  obtain rfl := raiseAbort_next h
  exact .of_abort (.refl s) he

theorem setPC_effect {a : Word} (h : (.next (u.setPC a) : Result) = .next t) (hc : transfersControl i = true)
    (hu : u = s ∨ writtenReg i = some .r7 ∧ u = link s) : InstrEffect i s t := by
  obtain rfl := Host.Outcome.next.inj h
  exact .transfer a hc hu

theorem result_effect {dr : Reg} {v : Word} (h : (.next (writeResult dr v s) : Result) = .next t) (hf : setsFlags i = true)
    (hr : writtenReg i = some dr) : InstrEffect i s t := by
  obtain rfl := Host.Outcome.next.inj h
  exact .result v hf hr (.refl s) rfl

theorem loadResult_effect {dr : Reg} {ea : Word} (h : loadResult dr ea u = .next t) (p : Polled s u)
    (hf : setsFlags i = true) (hr : writtenReg i = some dr) : InstrEffect i s t :=
  memRead_effect h p.quiet fun v w pw hk => by
    obtain rfl := Host.Outcome.next.inj hk
    exact .result v hf hr (p.trans pw).quiet (p.trans pw).status

theorem readStep_effect (h : readStep u = .next t) (w : Wrote s u) (hi : readsInput i = true) : InstrEffect i s t := by
  rcases readStep_next h with ⟨b, hb, rfl⟩ | ⟨c, -, rfl⟩
  · exact .byte hi w hb
  · exact .of_abort w.quiet rfl

theorem StringStep.effect (h : StringStep s t) (hf : setsFlags i = false) (hi : readsInput i = false) :
    InstrEffect i s t := by
  rcases h.status with hs | ⟨c, hs, ht⟩
  · exact .quiet h.quiet hf (fun hr => absurd (hi.symm.trans hr) (by decide)) (.inl hs)
  · exact .abort h.quiet rfl hs ht

/-- A store, after a read of the pointer or none. -/
theorem store_effect {a v : Word} (h : (.next (u.memWrite a v) : Result) = .next t) (p : Polled s u)
    (hf : setsFlags i = false) (hi : readsInput i = false) : InstrEffect i s t := by
  obtain rfl := Host.Outcome.next.inj h
  exact .quiet (p.quiet.memWrite a v) hf (fun hr => absurd (hi.symm.trans hr) (by decide)) (.inl p.status)

theorem execBr_effect {mask : BitVec 3} {off : Word} (h : exec (.br mask off) s = .next t) :
    InstrEffect (.br mask off) s t := by
  obtain rfl := Host.Outcome.next.inj h
  split
  · exact .transfer _ rfl (.inl rfl)
  · exact .transfer s.pc rfl (.inl rfl)

theorem execJsrr_effect {base : Reg} (h : exec (.jsrr base) s = .next t) : InstrEffect (.jsrr base) s t := by
  obtain rfl := Host.Outcome.next.inj h
  split
  · exact .transfer _ rfl (.inr ⟨rfl, rfl⟩)
  · exact .transfer _ rfl (.inr ⟨rfl, rfl⟩)

theorem execTrapIn_effect (h : exec .trapIn s = .next t) : InstrEffect .trapIn s t :=
  hostFlush_effect h (.refl s) fun u hu hk => by
    split at hk
    · obtain rfl := Host.Outcome.next.inj hk
      exact .quiet (hu.1.quiet.withControl _ _) rfl (fun _ => rfl) (.inl hu.1.status)
    · exact readStep_effect hk hu.1 rfl
    · exact readStep_effect hk hu.1 rfl
    · exact readStep_effect hk hu.1 rfl

end

/-- Everything an instruction can do, by its constructor (R94). -/
theorem exec_effect {i : Instr} {s t : State} (h : exec i s = .next t) : InstrEffect i s t := by
  cases i with
  | addReg _ _ _ => exact result_effect h rfl rfl
  | addImm _ _ _ => exact result_effect h rfl rfl
  | andReg _ _ _ => exact result_effect h rfl rfl
  | andImm _ _ _ => exact result_effect h rfl rfl
  | not _ _ => exact result_effect h rfl rfl
  | lea _ _ => exact result_effect h rfl rfl
  | ld _ _ => exact loadResult_effect h (.refl s) rfl rfl
  | ldr _ _ _ => exact loadResult_effect h (.refl s) rfl rfl
  | ldi _ _ => exact memRead_effect h (.refl s) fun _ _ p hk => loadResult_effect hk p rfl rfl
  | st _ _ => exact store_effect h (.refl s) rfl rfl
  | str _ _ _ => exact store_effect h (.refl s) rfl rfl
  | sti _ _ => exact memRead_effect h (.refl s) fun _ _ p hk => store_effect hk p rfl rfl
  | br _ _ => exact execBr_effect h
  | jmp _ => exact setPC_effect h rfl (.inl rfl)
  | ret => exact setPC_effect h rfl (.inl rfl)
  | jsr _ => exact setPC_effect h rfl (.inr ⟨rfl, rfl⟩)
  | jsrr _ => exact execJsrr_effect h
  | rti _ => exact raiseAbort_effect h rfl
  | res _ => exact raiseAbort_effect h rfl
  | trapUndefinedVector _ => exact raiseAbort_effect h rfl
  | trapGetc => exact readStep_effect h (.refl s) rfl
  | trapIn => exact execTrapIn_effect h
  | trapPuts => exact (putsStep_next h).effect rfl rfl
  | trapPutsp => exact (putspStep_next h).effect rfl rfl
  | trapOut =>
    exact hostWrite_effect h (.refl s) fun u hu hk => by
      obtain rfl := Host.Outcome.next.inj hk
      exact .quiet hu.1.quiet rfl nofun (.inl hu.1.status)
  | trapHalt =>
    exact hostFlush_effect h (.refl s) fun u hu hk => by
      obtain rfl := Host.Outcome.next.inj hk
      exact .quiet (hu.1.quiet.withControl _ _) rfl nofun (.inr ⟨rfl, rfl, hu.2⟩)

/-- The instruction whose routine is in progress (R148). -/
def TrapProgress.instr : TrapProgress → Instr
  | .puts _ => .trapPuts
  | .putsp _ => .trapPutsp
  | .reading => .trapIn

/-- A later micro-step does nothing that its instruction cannot do. -/
theorem resumeTrap_effect {p : TrapProgress} {s t : State} (h : resumeTrap p s = .next t) : InstrEffect p.instr s t := by
  cases p with
  | puts _ => exact (putsStep_next h).effect rfl rfl
  | putsp _ => exact (putspStep_next h).effect rfl rfl
  | reading => exact readStep_effect h (.refl s) rfl

/-- A step while a routine is in progress is one of its micro-steps. -/
theorem step_effect_of_trap {p : TrapProgress} {s t : State} (hp : s.trap = some p) (h : step s = .next t) :
    InstrEffect p.instr s t := by
  obtain ⟨hs, -⟩ := step_cases h
  rw [step_of_trap hs hp] at h
  exact resumeTrap_effect h

/-! ### The classes of instructions -/

theorem setsFlags_of_transfersControl {i : Instr} (h : transfersControl i = true) : setsFlags i = false := by
  cases i <;> cases h <;> rfl

theorem setsFlags_of_readsInput {i : Instr} (h : readsInput i = true) : setsFlags i = false := by
  cases i <;> cases h <;> rfl

theorem readsInput_of_transfersControl {i : Instr} (h : transfersControl i = true) : readsInput i = false := by
  cases i <;> cases h <;> rfl

theorem writtenReg_of_readsInput {i : Instr} (h : readsInput i = true) : writtenReg i = some .r0 := by
  cases i <;> cases h <;> rfl

/-! ### The writers of the registers, of `PC` and of `COND` (R22, R23, R27) -/

section
variable {i : Instr} {s t : State}

theorem InstrEffect.reg (h : InstrEffect i s t) {r : Reg} (hr : writtenReg i ≠ some r) : t.reg r = s.reg r := by
  cases h with
  | @result u dr v _ hw q _ =>
    have hne : r ≠ dr := fun e => hr (e ▸ hw)
    rw [writeResult_reg_of_ne _ _ _ hne, q.reg]
  | transfer a _ hu =>
    rcases hu with rfl | ⟨hw, rfl⟩
    · rfl
    · have hne : r ≠ .r7 := fun e => hr (e ▸ hw)
      exact State.reg_setReg_of_ne s _ hne
  | @byte u b hi w _ =>
    have hne : r ≠ .r0 := fun e => hr (e ▸ writtenReg_of_readsInput hi)
    obtain ⟨-, hreg, -⟩ := takeByte_fields b (u.consume 1)
    exact (hreg r hne).trans (w.quiet.reg r)
  | abort q _ _ _ => exact q.reg r
  | quiet q _ _ _ => exact q.reg r

theorem InstrEffect.pc (h : InstrEffect i s t) (hc : transfersControl i = false) : t.pc = s.pc := by
  cases h with
  | result _ _ _ q _ => exact q.pc
  | transfer _ ht _ => rw [hc] at ht; cases ht
  | @byte u b _ w _ =>
    obtain ⟨-, -, -, hpc, -⟩ := takeByte_fields b (u.consume 1)
    exact hpc.trans w.pc
  | abort q _ _ _ => exact q.pc
  | quiet q _ _ _ => exact q.pc

/-- Nothing else writes `COND` (R27). -/
theorem InstrEffect.cond (h : InstrEffect i s t) (hf : setsFlags i = false)
    (hi : readsInput i = false ∨ s.params.trapReadSetsCC = false) : t.cond = s.cond := by
  cases h with
  | result _ hf' _ _ _ => rw [hf] at hf'; cases hf'
  | transfer _ _ hu =>
    rcases hu with rfl | ⟨-, rfl⟩
    · rfl
    · rfl
  | @byte u b hr w _ =>
    obtain ⟨-, -, hcond, -⟩ := takeByte_fields b (u.consume 1)
    have hp : (u.consume 1).params.trapReadSetsCC = false := by
      rw [State.consume_params, w.params]
      exact hi.resolve_left (by rw [hr]; decide)
    rw [hcond, hp]
    exact w.cond
  | abort q _ _ _ => exact q.cond
  | quiet q _ _ _ => exact q.cond

/-- A flag-setting instruction that is not aborted leaves the flags of its destination register (R26, R27). -/
theorem InstrEffect.flags (h : InstrEffect i s t) (hf : setsFlags i = true) :
    (∃ r, writtenReg i = some r ∧ t.cond = condOf (t.reg r)) ∨ ∃ e, t.status = .aborted e := by
  cases h with
  | @result u dr v _ hw _ _ => exact .inl ⟨dr, hw, by rw [writeResult_cond, writeResult_reg_same]⟩
  | transfer _ hc _ => rw [setsFlags_of_transfersControl hc] at hf; cases hf
  | byte hi _ _ => rw [setsFlags_of_readsInput hi] at hf; cases hf
  | abort _ _ hs _ => exact .inr ⟨_, hs⟩
  | quiet _ hf' _ _ => rw [hf] at hf'; cases hf'

/-- GETC and IN under `TRAP_READ_SETS_CC` leave the flags of `R0`, unless IN waits or the run is aborted (R27, D16). -/
theorem InstrEffect.flags_of_input (h : InstrEffect i s t) (hi : readsInput i = true)
    (hp : s.params.trapReadSetsCC = true) (ht : t.trap = none) : oneHot t.cond ∨ ∃ e, t.status = .aborted e := by
  cases h with
  | result _ hf _ _ _ => rw [setsFlags_of_readsInput hi] at hf; cases hf
  | transfer _ hc _ => rw [readsInput_of_transfersControl hc] at hi; cases hi
  | @byte u b _ w _ =>
    obtain ⟨-, -, hcond, -⟩ := takeByte_fields b (u.consume 1)
    rw [State.consume_params, w.params, if_pos hp] at hcond
    exact .inl (hcond ▸ condOf_oneHot _)
  | abort _ _ hs _ => exact .inr ⟨_, hs⟩
  | quiet _ _ hw _ => rw [hw hi] at ht; cases ht

end

/-! ### What every step does -/

/-- Everything the invariants need of a step: `COND` is kept or set to one flag, and the run goes on, ends normally with the
trap unit idle, or is aborted with a reachable error, no register written and the trap unit idle. -/
structure Moved (s t : State) : Prop extends Advance s t where
  cond : t.cond = s.cond ∨ oneHot t.cond
  ends : t.status = s.status ∨ (t.status.normalEnd = true ∧ t.trap = none) ∨
    ∃ e, reachableError e = true ∧ t.status = .aborted e ∧ t.trap = none ∧ t.regs = s.regs

theorem Moved.of_abort {s t : State} {e : RunError} (q : Quiet s t) (he : reachableError e = true)
    (hs : t.status = .aborted e) (ht : t.trap = none) : Moved s t :=
  ⟨q.toAdvance, .inl q.cond, .inr (.inr ⟨e, he, hs, ht, q.regs⟩)⟩

/-- An instruction moves the machine on; HALT ends the run, so it must not run inside another routine. -/
theorem InstrEffect.moved {i : Instr} {s t : State} (h : InstrEffect i s t) (hh : i = .trapHalt → s.trap = none) :
    Moved s t := by
  cases h with
  | @result u dr v _ _ q hs =>
    exact ⟨q.toAdvance.of_eq rfl rfl rfl rfl rfl, .inr (by rw [writeResult_cond]; exact condOf_oneHot v), .inl hs⟩
  | transfer _ _ hu =>
    have q := (Quiet.refl s).toAdvance
    rcases hu with rfl | ⟨-, rfl⟩
    · exact ⟨q.of_eq rfl rfl rfl rfl rfl, .inl rfl, .inl rfl⟩
    · exact ⟨q.of_eq rfl rfl rfl rfl rfl, .inl rfl, .inl rfl⟩
  | @byte u b _ w hb =>
    obtain ⟨-, -, hcond, -, hmem, hstatus, -, hpos, hout, hhost, hpar⟩ := takeByte_fields b (u.consume 1)
    refine ⟨(w.advance.trans (.consume_one hb)).of_eq hmem hpar hout hpos hhost, ?_, .inl (hstatus.trans w.status)⟩
    split at hcond
    · exact .inr (hcond ▸ condOf_oneHot _)
    · exact .inl (hcond.trans w.cond)
  | abort q he hs ht => exact .of_abort q he hs ht
  | quiet q _ _ hs =>
    refine ⟨q.toAdvance, .inl q.cond, ?_⟩
    rcases hs with hs | ⟨hi, hs, ht⟩
    · exact .inl hs
    · exact .inr (.inl ⟨by rw [hs]; rfl, ht.trans (hh hi)⟩)

/-- A fetch and then an instruction (R92, R94). -/
theorem Moved.after_fetch {s u t : State} {a : Word} (p : Polled s u) (h : Moved (u.setPC a) t) : Moved s t := by
  have hu : Advance s (u.setPC a) := p.advance.of_eq rfl rfl rfl rfl rfl
  refine ⟨hu.trans h.toAdvance, ?_, ?_⟩
  · rw [← p.cond]; exact h.cond
  · rw [← p.status, ← p.regs]; exact h.ends

/-- Every step moves the machine on (R90, R148). -/
theorem step_moved {s t : State} (h : step s = .next t) : s.status = .running ∧ Moved s t := by
  obtain ⟨hs, hcase⟩ := step_cases h
  refine ⟨hs, ?_⟩
  rcases hcase with ⟨p, -, hr⟩ | ⟨ht, -, rfl⟩ | ⟨-, -, -, rfl⟩ | ⟨ht, -, w, u, hm, hx⟩
  · exact (resumeTrap_effect hr).moved (by cases p <;> nofun)
  · exact ⟨(Quiet.refl s).toAdvance.of_eq rfl rfl rfl rfl rfl, .inl rfl, .inr (.inl ⟨rfl, ht⟩)⟩
  · exact .of_abort ((Quiet.refl s).withControl _ _) rfl rfl rfl
  · have p := (memRead_ok hm).2
    exact .after_fetch p ((exec_effect hx).moved fun _ => p.trap.trans ht)

theorem fetch_polled {s t : State} {w : Word} (h : fetch s = .ok (w, t)) :
    ∃ u, Polled s u ∧ t = u.setPC (s.pc + 1#16) := by
  obtain ⟨u, hm, rfl⟩ := fetch_ok h
  exact ⟨u, (memRead_ok hm).2, rfl⟩

/-! ### The invariant (R25, R31, R171, R172) -/

/-- A step's end is the start of no routine, and its error is a reachable one. -/
theorem Moved.ends_of_running {s t : State} (h : Moved s t) (hs : s.status = .running) :
    (t.status ≠ .running → t.trap = none) ∧ ∀ e, t.status = .aborted e → reachableError e = true := by
  rcases h.ends with ht | ⟨hn, ht⟩ | ⟨e, he, ha, ht, -⟩
  · rw [ht, hs]; exact ⟨fun hne => absurd rfl hne, nofun⟩
  · exact ⟨fun _ => ht, fun e ha => by rw [ha] at hn; cases hn⟩
  · refine ⟨fun _ => ht, fun e' ha' => ?_⟩
    obtain rfl := RunStatus.aborted.inj (ha.symm.trans ha')
    exact he

/-- Settles O52, from what every step does. -/
theorem stepKeepsTheInvariant : Obligations.StepKeepsTheInvariant := by
  intro s t ⟨hmem, hcond, _⟩ h
  obtain ⟨hs, m⟩ := step_moved h
  refine ⟨m.wf hmem, ?_, m.ends_of_running hs⟩
  rcases m.cond with hc | hc
  · rw [hc]; exact hcond
  · exact .inr hc

theorem State.create_inv (p : Config.Params) {m : Memory} (h : HostScript) (hm : m.wf) : (State.create p m h).Inv :=
  ⟨hm, .inl rfl, fun hn => absurd rfl hn, nofun⟩

/-- Settles O53: a created machine runs, with no flag set. -/
theorem creationMeetsTheInvariant : Obligations.CreationMeetsTheInvariant :=
  ⟨fun p _ h hm => State.create_inv p h hm, State.create_inv {} {} ⟨.nil, nofun⟩⟩

theorem State.create_reg (p : Config.Params) (m : Memory) (h : HostScript) (r : Reg) :
    (State.create p m h).reg r = 0x0000#16 := by
  cases r <;> rfl

/-- Settles O9: every field of a created machine is the argument or the constant it is given. -/
theorem creationLeavesTheResetValues : Obligations.CreationLeavesTheResetValues :=
  ⟨fun p m h => ⟨State.create_reg p m h, rfl, rfl, rfl, rfl, rfl, rfl, fun _ => rfl, rfl⟩, {}, [], {}, rfl, rfl, rfl, rfl⟩

/-! ### The statements about the writers -/

/-- Settles O18: SetCC computes the flags of the register as it stands after the write. -/
theorem setCCFollowsTheWrittenRegister : Obligations.SetCCFollowsTheWrittenRegister := by
  refine ⟨fun r s => ?_, fun dr v s => ?_⟩
  · rw [updateFlags_cond]
    exact ⟨condOf_flagsOf _, condOf_oneHot _⟩
  · rw [writeResult_cond, writeResult_reg_same]
    exact condOf_flagsOf v

/-- Settles O45, from what an instruction and a micro-step can do. -/
theorem onlyControlTransfersMoveThePC : Obligations.OnlyControlTransfersMoveThePC := by
  refine ⟨fun s u w h => ?_, fun i s t hc h => (exec_effect h).pc hc, fun s t p hp h => ?_⟩
  · obtain ⟨_, -, rfl⟩ := fetch_polled h
    rfl
  · exact (step_effect_of_trap hp h).pc (by cases p <;> rfl)

/-- Settles O55; the last clause is that an aborted step wrote no register. -/
theorem onlyListedInstructionsWriteRegisters : Obligations.OnlyListedInstructionsWriteRegisters := by
  refine ⟨fun s u w h r => ?_, fun s u h r => (keyboardPoll_ok h).reg r, fun i s t h r hr => (exec_effect h).reg hr,
    fun s t p hp h r hr => ?_, fun s t hs hpc h r => ?_, fun s t e h he r => ?_⟩
  · obtain ⟨_, p, rfl⟩ := fetch_polled h
    exact p.reg r
  · have hw : writtenReg p.instr ≠ some r := by
      cases p with
      | puts _ => nofun
      | putsp _ => nofun
      | reading => exact fun e => hr.elim (fun h0 => h0 (Option.some.inj e).symm) (fun hn => hn rfl)
    exact (step_effect_of_trap hp h).reg hw
  · rw [step_at_limit hs hpc] at h
    obtain rfl := Host.Outcome.next.inj h
    rfl
  · obtain ⟨hs, m⟩ := step_moved h
    rcases m.ends with ht | ⟨hn, -⟩ | ⟨_, -, -, -, hregs⟩
    · rw [ht, hs] at he; cases he
    · rw [he] at hn; cases hn
    · exact congrArg (Regs.get · r) hregs

/-- Settles O56, from what an instruction and a micro-step can do. -/
theorem onlyListedInstructionsWriteFlags : Obligations.OnlyListedInstructionsWriteFlags := by
  refine ⟨fun s u w h => ?_, fun i s t h => ⟨fun hf hn => ?_, (exec_effect h).cond⟩, fun s t p hp h hr => ?_⟩
  · obtain ⟨_, p, rfl⟩ := fetch_polled h
    exact p.cond
  · rcases (exec_effect h).flags hf with ⟨r, hw, hc⟩ | ⟨e, he⟩
    · exact ⟨r, hw, hc ▸ condOf_flagsOf _⟩
    · exact absurd he (hn e)
  · refine (step_effect_of_trap hp h).cond (by cases p <;> rfl) (hr.imp_left fun hne => ?_)
    cases p with
    | puts _ => rfl
    | putsp _ => rfl
    | reading => exact absurd rfl hne

theorem maskMatches_of_cond_zero (mask : BitVec 3) {s : State} (h : s.cond = 0x0000#16) : maskMatches mask s = false := by
  rw [maskMatches, h, BitVec.and_zero]
  rfl

/-- Settles O54, from what an instruction and a step can do. -/
theorem condIsOneHotOnceSet : Obligations.CondIsOneHotOnceSet := by
  refine ⟨fun i s t hf h => ?_, fun i s t hi hp h ht => (exec_effect h).flags_of_input hi hp ht, fun s t hc h => ?_,
    fun s t hc h => ?_, fun i s t hf hi h => (exec_effect h).cond hf (.inl hi), fun mask off s hc => ?_, rfl⟩
  · rcases (exec_effect h).flags hf with ⟨r, -, hr⟩ | he
    · exact .inl (hr ▸ condOf_oneHot _)
    · exact .inr he
  · rcases (step_moved h).2.cond with he | ho
    · rw [he]; exact hc
    · exact ho
  · exact (step_moved h).2.cond.imp_left fun he => he.trans hc
  · show execBr mask off s = _
    rw [execBr, maskMatches_of_cond_zero mask hc]
    rfl

/-! ### Output, input, parameters, and progress -/

/-- Settles O59, from what every step does. -/
theorem stepsAppendOutputAndConsumeInputInOrder : Obligations.StepsAppendOutputAndConsumeInputInOrder := by
  intro s t h
  obtain ⟨-, m⟩ := step_moved h
  exact ⟨m.output, m.input, m.params⟩

theorem resumeTrap_nextOrWaits (p : TrapProgress) (s : State) : NextOrWaits s (resumeTrap p s) := by
  cases p with
  | puts a => exact putsStep_nextOrWaits a s
  | putsp a => exact putspStep_nextOrWaits a s
  | reading => exact readStep_nextOrWaits s

/-- An instruction step answers a next state, or waits for a host that does not answer (R97). -/
theorem instructionStep_nextOrWaits (s : State) : NextOrWaits s (instructionStep s) := by
  unfold instructionStep
  split
  · exact .inl ⟨_, rfl⟩
  · refine nextOrWaits_orStop (fun h => memRead_wait (fetch_error h)) fun x hx => ?_
    obtain ⟨u, p, hu⟩ := fetch_polled (t := x.2) hx
    rw [runWord_eq_exec]
    refine (exec_nextOrWaits _ _).mono fun ha => ?_
    rw [hu]
    exact p.answers ha

theorem step_nextOrWaits {s : State} (hs : s.status = .running) : NextOrWaits s (step s) := by
  cases ht : s.trap with
  | some p => rw [step_of_trap hs ht]; exact resumeTrap_nextOrWaits p s
  | none => rw [step_of_ready ⟨hs, ht⟩]; exact instructionStep_nextOrWaits s

/-- Settles O48: a running step goes on or waits, and waits for no host that answers. -/
theorem runningMachinesStepAndEndedRunsDoNot : Obligations.RunningMachinesStepAndEndedRunsDoNot := by
  intro s
  refine ⟨fun hs => (step_nextOrWaits hs).imp_right And.left, fun hs ha => ?_, fun hs => ?_, fun hs => ?_, fun e hs => ?_⟩
  · rcases step_nextOrWaits hs with ⟨t, ht⟩ | ⟨-, hn⟩
    · exact ⟨t, ht, (step_moved ht).2.answers ha⟩
    · exact absurd ha hn
  · rw [step_eq_cycle, cycle, hs]
  · rw [step_eq_cycle, cycle, hs]
  · rw [step_eq_cycle, cycle, hs]

/-! ### Who reads `COND` (R28) -/

/-- The state with another value in `COND`. -/
def State.withCond (c : Word) (s : State) : State := { s with cond := c }

/-- `o'` answers what `o` answers, with `COND` equal in both or still at its two first values, `d` and `c`. -/
def AlikeButCond (c d : Word) (o o' : Result) : Prop :=
  ∀ t, o = .next t → ∃ u, o' = .next u ∧ { u with cond := t.cond } = t ∧ (u.cond = t.cond ∨ (u.cond = c ∧ t.cond = d))

section
variable (c : Word)

theorem AlikeButCond.refl (d : Word) (o : Result) : AlikeButCond c d o o :=
  fun t h => ⟨t, h, rfl, .inl rfl⟩

theorem AlikeButCond.next {d : Word} {s : State} (h : s.cond = d) : AlikeButCond c d (.next s) (.next (s.withCond c)) := by
  intro t ht
  obtain rfl := Host.Outcome.next.inj ht
  exact ⟨s.withCond c, rfl, rfl, .inr ⟨rfl, h⟩⟩

theorem stopWith_alike {d : Word} {s : State} (x : Stop) (h : s.cond = d) :
    AlikeButCond c d (stopWith x s) (stopWith x (s.withCond c)) := by
  cases x with
  | abort e => exact .next c (s := { s with status := .aborted e, trap := none }) h
  | wait => exact nofun

/-- An operation that reads no `COND` (it commutes with `f`), and what comes after it. -/
theorem orStop_alike {α : Type} {d : Word} {s : State} {r r' : Except Stop α} {k k' : α → Result} {f : α → α}
    (h : s.cond = d) (hr : r' = r.map f) (hk : ∀ a, r = .ok a → AlikeButCond c d (k a) (k' (f a))) :
    AlikeButCond c d (orStop s r k) (orStop (s.withCond c) r' k') := by
  subst hr
  cases r with
  | ok a => exact hk a rfl
  | error x => exact stopWith_alike c x h

/-! The operations commute with a change of `COND`. -/

variable (s : State)

theorem hostPoll_withCond : hostPoll (s.withCond c) = ((hostPoll s).1, (hostPoll s).2.withCond c) := by
  have hsig : (s.withCond c).pollSignal = s.pollSignal := rfl
  have hbyte : ∀ k, (s.withCond c).byteAt k = s.byteAt k := fun _ => rfl
  have hpar : (s.withCond c).params = s.params := rfl
  unfold hostPoll
  rw [hsig, hbyte, hbyte, hpar]
  cases s.pollSignal with
  | fail => rfl
  | waiting => rfl
  | notReady => rfl
  | ready =>
    cases s.byteAt 0 with
    | eof => rfl
    | fail => rfl
    | waiting => rfl
    | byte b =>
      cases s.params.kbsrPollBytes with
      | one => rfl
      | two => cases s.byteAt 1 <;> rfl

theorem keyboardPoll_withCond : keyboardPoll (s.withCond c) = (keyboardPoll s).map (State.withCond c) := by
  unfold keyboardPoll
  rw [hostPoll_withCond]
  obtain ⟨a, u⟩ := hostPoll s
  cases a <;> rfl

theorem memRead_withCond (a : Word) :
    memRead a (s.withCond c) = (memRead a s).map fun x => (x.1, x.2.withCond c) := by
  unfold memRead
  rw [keyboardPoll_withCond]
  split
  · cases keyboardPoll s <;> rfl
  · rfl

theorem hostWrite_withCond (b : Byte) : hostWrite b (s.withCond c) = (hostWrite b s).map (State.withCond c) := by
  have hhost : (s.withCond c).host = s.host := rfl
  unfold hostWrite
  rw [hhost]
  cases s.host.writes.headD .ok <;> rfl

theorem hostFlush_withCond : hostFlush (s.withCond c) = (hostFlush s).map (State.withCond c) := by
  have hhost : (s.withCond c).host = s.host := rfl
  unfold hostFlush
  rw [hhost]
  cases s.host.flushes.headD .ok <;> rfl

theorem hostReadByte_withCond : hostReadByte (s.withCond c) = ((hostReadByte s).1, (hostReadByte s).2.withCond c) := by
  have hbyte : (s.withCond c).byteAt 0 = s.byteAt 0 := rfl
  unfold hostReadByte
  rw [hbyte]
  cases s.byteAt 0 <;> rfl

/-! So the parts of the instructions answer alike. -/

variable {c s} {d : Word} (h : s.cond = d)
include h

theorem memRead_alike {a : Word} {k k' : Word × State → Result}
    (hk : ∀ v u, u.cond = d → AlikeButCond c d (k (v, u)) (k' (v, u.withCond c))) :
    AlikeButCond c d (orStop s (memRead a s) k) (orStop (s.withCond c) (memRead a (s.withCond c)) k') :=
  orStop_alike c h (memRead_withCond c s a) fun x hx => hk x.1 x.2 ((memRead_ok hx).2.cond.trans h)

theorem hostWrite_alike {b : Byte} {k k' : State → Result}
    (hk : ∀ u, u.cond = d → AlikeButCond c d (k u) (k' (u.withCond c))) :
    AlikeButCond c d (orStop s (hostWrite b s) k) (orStop (s.withCond c) (hostWrite b (s.withCond c)) k') :=
  orStop_alike c h (hostWrite_withCond c s b) fun u hu => hk u ((hostWrite_wrote hu).1.cond.trans h)

theorem hostFlush_alike {k k' : State → Result}
    (hk : ∀ u, u.cond = d → AlikeButCond c d (k u) (k' (u.withCond c))) :
    AlikeButCond c d (orStop s (hostFlush s) k) (orStop (s.withCond c) (hostFlush (s.withCond c)) k') :=
  orStop_alike c h (hostFlush_withCond c s) fun u hu => hk u ((hostFlush_wrote hu).1.cond.trans h)

/-- A load computes its flags from the word it read. -/
theorem loadResult_alike (dr : Reg) (ea : Word) :
    AlikeButCond c d (loadResult dr ea s) (loadResult dr ea (s.withCond c)) :=
  memRead_alike h fun v u _ => .refl c d (.next (writeResult dr v u))

theorem takeByte_alike (b : Byte) : AlikeButCond c d (.next (takeByte b s)) (.next (takeByte b (s.withCond c))) := by
  have hpar : (s.withCond c).params = s.params := rfl
  unfold takeByte
  dsimp only
  rw [hpar]
  split
  · exact .refl c d (.next (updateFlags .r0 (State.setReg { s with trap := none } .r0 (zext16 b))))
  · exact .next c (s := State.setReg { s with trap := none } .r0 (zext16 b)) h

theorem readStep_alike : AlikeButCond c d (readStep s) (readStep (s.withCond c)) := by
  unfold readStep
  rw [hostReadByte_withCond]
  rcases hostReadByte_cases s with ⟨b, -, hr⟩ | ⟨-, hr⟩ | ⟨-, hr⟩ | ⟨-, hr⟩ <;> rw [hr]
  · exact takeByte_alike (s := s.consume 1) h b
  · exact stopWith_alike c .wait h
  · exact stopWith_alike c (.abort (.ioError .eof)) h
  · exact stopWith_alike c (.abort (.ioError .read)) h

theorem finishString_alike : AlikeButCond c d (finishString s) (finishString (s.withCond c)) :=
  hostFlush_alike h fun u hu => .next c (s := { u with trap := none }) hu

theorem putsStep_alike (a : Word) : AlikeButCond c d (putsStep a s) (putsStep a (s.withCond c)) :=
  memRead_alike h fun v u hu => by
    dsimp only
    split
    · exact finishString_alike hu
    · exact hostWrite_alike hu fun w hw => .next c (s := { w with trap := some (.puts (a + 1#16)) }) hw

theorem putspStep_alike (a : Word) : AlikeButCond c d (putspStep a s) (putspStep a (s.withCond c)) :=
  memRead_alike h fun v u hu => by
    dsimp only
    split
    · exact finishString_alike hu
    · refine hostWrite_alike hu fun w hw => ?_
      have hskip : skipsHigh v (w.withCond c) = skipsHigh v w := rfl
      rw [hskip]
      split
      · exact .next c (s := { w with trap := some (.putsp (a + 1#16)) }) hw
      · exact hostWrite_alike hw fun x hx => .next c (s := { x with trap := some (.putsp (a + 1#16)) }) hx

theorem execTrapIn_alike : AlikeButCond c d (execTrapIn s) (execTrapIn (s.withCond c)) :=
  hostFlush_alike h fun u hu => by
    have hbyte : (u.withCond c).byteAt 0 = u.byteAt 0 := rfl
    rw [hbyte]
    cases u.byteAt 0 with
    | waiting => exact .next c (s := { u with trap := some .reading }) hu
    | byte _ => exact readStep_alike hu
    | eof => exact readStep_alike hu
    | fail => exact readStep_alike hu

theorem execJsrr_alike (base : Reg) : AlikeButCond c d (execJsrr base s) (execJsrr base (s.withCond c)) := by
  have hpar : (s.withCond c).params = s.params := rfl
  unfold execJsrr
  rw [hpar]
  split
  · exact .next c (s := (link s).setPC (s.reg base)) h
  · exact .next c (s := jumpTo base (link s)) h

end

/-- Every instruction but BR answers alike whatever `COND` holds, by its constructor (R28). -/
theorem exec_alike (c : Word) {i : Instr} (hi : ∀ mask off, i ≠ .br mask off) (s : State) :
    AlikeButCond c s.cond (exec i s) (exec i (s.withCond c)) := by
  cases i with
  | br mask off => exact absurd rfl (hi mask off)
  | addReg dr a b => exact .refl c _ (execAddReg dr a b s)
  | addImm dr a v => exact .refl c _ (execAddImm dr a v s)
  | andReg dr a b => exact .refl c _ (execAndReg dr a b s)
  | andImm dr a v => exact .refl c _ (execAndImm dr a v s)
  | not dr a => exact .refl c _ (execNot dr a s)
  | lea dr off => exact .refl c _ (execLea dr off s)
  | ld dr off => exact loadResult_alike rfl dr (pcRelative off s)
  | ldr dr base off => exact loadResult_alike rfl dr (baseOffset base off s)
  | ldi dr off => exact memRead_alike (s := s) rfl fun v u hu => loadResult_alike hu dr v
  | st sr off => exact .next c (s := s.memWrite (pcRelative off s) (s.reg sr)) rfl
  | str sr base off => exact .next c (s := s.memWrite (baseOffset base off s) (s.reg sr)) rfl
  | sti sr off => exact memRead_alike (s := s) rfl fun v u hu => .next c (s := u.memWrite v (u.reg sr)) hu
  | jmp base => exact .next c (s := jumpTo base s) rfl
  | ret => exact .next c (s := jumpTo .r7 s) rfl
  | jsr off => exact .next c (s := (link s).setPC (pcRelative off s)) rfl
  | jsrr base => exact execJsrr_alike rfl base
  | rti low => exact stopWith_alike c (.abort (.reservedOpcode (0x8#4 ++ low))) rfl
  | res low => exact stopWith_alike c (.abort (.reservedOpcode (0xD#4 ++ low))) rfl
  | trapUndefinedVector v => exact stopWith_alike c (.abort (.unknownTrapRoutine v)) rfl
  | trapGetc => exact readStep_alike rfl
  | trapIn => exact execTrapIn_alike rfl
  | trapPuts => exact putsStep_alike rfl (s.reg .r0)
  | trapPutsp => exact putspStep_alike rfl (s.reg .r0)
  | trapOut => exact hostWrite_alike (s := s) rfl fun u hu => .next c hu
  | trapHalt => exact hostFlush_alike (s := s) rfl fun u hu => .next c (s := { u with status := .halted }) hu

/-- Settles O57, instruction by instruction. -/
theorem onlyBranchReadsCond : Obligations.OnlyBranchReadsCond :=
  fun _ s t c hi h => exec_alike c hi s t h

end Sys2Proof.Machine
end

section
/-! PROOFS. The family of 20_memory.md: reads after stores (R42, R54), which reads poll (R41), the keyboard poll (R44, R48),
stores to KBSR and KBDR (R45, R46), a store to the next instruction (R56), and what writes memory (R42, R44, R51). -/

namespace Sys2Proof.Machine

/-! ### Reads after stores (R42, R54) -/

/-- A word after one more store: the stored one at its address, and as before elsewhere. -/
theorem State.cell_memWrite (s : State) (a v b : Word) :
    (s.memWrite a v).cell b = if a = b then v else s.cell b := by
  split
  · next h => rw [h, State.cell_memWrite_same]
  · next h => exact State.cell_memWrite_of_ne s v (Ne.symm h)

/-- Settles O13, by induction on the stores from the last one back. -/
theorem readsSeeTheLastWrite : Obligations.ReadsSeeTheLastWrite := by
  intro ws s a
  induction ws using List.reverseRecOn with
  | nil => exact ⟨rfl, id⟩
  | append_singleton ws w ih =>
    obtain ⟨hcell, hwf⟩ := ih
    rw [List.foldl_append, List.foldl_cons, List.foldl_nil, List.reverse_append]
    refine ⟨?_, fun h => State.memWrite_wf (hwf h) _ _⟩
    rw [State.cell_memWrite, hcell]
    by_cases hw : w.1 = a <;> simp [hw]

/-! ### Which reads poll (R41) -/

/-- Settles O14, from what a read is at KBSR and elsewhere. -/
theorem onlyReadsOfKbsrPoll : Obligations.OnlyReadsOfKbsrPoll := by
  refine fun a s => ⟨memRead_of_ne s, fun t ha ht => ?_, fun x ha hx => ⟨?_, ?_⟩⟩
  · rw [ha]; exact memRead_kbsr_of_ok ht
  · rw [ha]; exact memRead_kbsr_of_error hx
  · exact (keyboardPoll_error hx).imp_right And.left

/-! ### The keyboard poll (R44, R48) -/

theorem zext16_toNat (b : Byte) : (zext16 b).toNat = b.toNat := BitVec.toNat_setWidth_of_le (by decide)

section
variable {s : State}

theorem hostPoll_of_fail (h : s.pollSignal = .fail) : hostPoll s = (.fail, s) := by
  rw [hostPoll, h]

theorem hostPoll_of_waiting (h : s.pollSignal = .waiting) : hostPoll s = (.waiting, s) := by
  rw [hostPoll, h]

theorem hostPoll_of_notReady (h : s.pollSignal = .notReady) : hostPoll s = (.notReady, s.dropPoll) := by
  rw [hostPoll, h]

/-- A ready signal with no byte in the stream is not ready (log entry 5). -/
theorem hostPoll_of_no_byte (h : s.pollSignal = .ready) (hb : ∀ b, s.byteAt 0 ≠ .byte b) :
    hostPoll s = (.notReady, s.dropPoll) := by
  rw [hostPoll, h]
  cases h0 : s.byteAt 0 with
  | byte b => exact absurd h0 (hb b)
  | eof => rfl
  | fail => rfl
  | waiting => rfl

theorem hostPoll_one {b : Byte} (h : s.pollSignal = .ready) (hp : s.params.kbsrPollBytes = .one)
    (h0 : s.byteAt 0 = .byte b) : hostPoll s = (.ready b, s.dropPoll.consume 1) := by
  simp only [hostPoll, h, h0, hp]

/-- The two-byte poll after its first byte: what the second read answers (R48, log entry 6). -/
theorem hostPoll_two {b1 : Byte} (h : s.pollSignal = .ready) (hp : s.params.kbsrPollBytes = .two)
    (h0 : s.byteAt 0 = .byte b1) :
    (∀ b2, s.byteAt 1 = .byte b2 → hostPoll s = (.ready (keptByte s.inputPos b1 b2), s.dropPoll.consume 2)) ∧
    (s.byteAt 1 = .waiting → hostPoll s = (.waiting, s)) ∧
    (s.byteAt 1 = .eof ∨ s.byteAt 1 = .fail → hostPoll s = (.fail, s)) := by
  refine ⟨fun b2 h1 => ?_, fun h1 => ?_, fun h1 => ?_⟩
  · simp only [hostPoll, h, h0, hp, h1]
  · simp only [hostPoll, h, h0, hp, h1]
  · rcases h1 with h1 | h1 <;> simp only [hostPoll, h, h0, hp, h1]

theorem keyboardPoll_of_hostPoll_fail (h : hostPoll s = (.fail, s)) :
    keyboardPoll s = .error (.abort (.ioError .poll)) := by
  rw [keyboardPoll, h]

theorem keyboardPoll_of_hostPoll_waiting (h : hostPoll s = (.waiting, s)) : keyboardPoll s = .error .wait := by
  rw [keyboardPoll, h]

/-- A poll's use of the host's answers, and a memory that differs at the two keyboard cells alone, are what
`pollOnly` says. -/
theorem pollOnly_of_cells {n : Nat} {m : Memory}
    (h : ∀ a : Word, a ≠ Config.kbsr → a ≠ Config.kbdr → m.read a.toNat = s.cell a) :
    pollOnly n s { s.dropPoll.consume n with mem := m } :=
  ⟨h, rfl, rfl, rfl, ⟨fun _ => rfl, rfl⟩, rfl, rfl, rfl, rfl⟩

/-- The poll that is not ready writes KBSR alone (R44). -/
theorem keyboardPoll_of_hostPoll_notReady (h : hostPoll s = (.notReady, s.dropPoll)) :
    ∃ t, keyboardPoll s = .ok t ∧ t.cell Config.kbsr = 0x0000#16 ∧ t.cell Config.kbdr = s.cell Config.kbdr ∧
      pollOnly 0 s t := by
  refine ⟨s.dropPoll.memWrite Config.kbsr 0#16, by rw [keyboardPoll, h], State.cell_memWrite_same _ _ _,
    State.cell_memWrite_of_ne _ _ (by decide), pollOnly_of_cells fun a ha _ => ?_⟩
  exact s.dropPoll.cell_memWrite_of_ne 0#16 ha

/-- The ready poll sets bit 15 of KBSR and puts its byte into KBDR (R44). -/
theorem keyboardPoll_of_hostPoll_ready {b : Byte} {n : Nat} (h : hostPoll s = (.ready b, s.dropPoll.consume n)) :
    ∃ t, keyboardPoll s = .ok t ∧ t.cell Config.kbsr = 0x8000#16 ∧ (t.cell Config.kbdr).toNat = b.toNat ∧
      pollOnly n s t := by
  refine ⟨((s.dropPoll.consume n).memWrite Config.kbsr 0x8000#16).memWrite Config.kbdr (zext16 b),
    by rw [keyboardPoll, h], ?_, ?_, pollOnly_of_cells fun a ha hb => ?_⟩
  · rw [State.cell_memWrite_of_ne _ _ (by decide), State.cell_memWrite_same]
  · rw [State.cell_memWrite_same, zext16_toNat]
  · exact (State.cell_memWrite_of_ne _ _ hb).trans (s.cell_memWrite_of_ne _ ha)

end

/-- Settles O15, by the answer of the host's poll. -/
theorem pollFillsKbsrAndKbdr : Obligations.PollFillsKbsrAndKbdr := by
  refine fun s => ⟨fun b hp h h0 => ?_, fun h => ?_, fun h => ?_, fun h => ?_⟩
  · exact keyboardPoll_of_hostPoll_ready (hostPoll_one h hp h0)
  · rcases h with h | ⟨h, hb⟩
    · exact keyboardPoll_of_hostPoll_notReady (hostPoll_of_notReady h)
    · exact keyboardPoll_of_hostPoll_notReady (hostPoll_of_no_byte h hb)
  · exact keyboardPoll_of_hostPoll_fail (hostPoll_of_fail h)
  · exact keyboardPoll_of_hostPoll_waiting (hostPoll_of_waiting h)

/-- Settles O16, by the answer of the second read. -/
theorem twoBytePollKeepsOneOfItsBytes : Obligations.TwoBytePollKeepsOneOfItsBytes := by
  intro s b1 hp h h0
  obtain ⟨hbyte, hwaiting, hends⟩ := hostPoll_two h hp h0
  refine ⟨fun b2 h1 => ?_, fun h1 => keyboardPoll_of_hostPoll_waiting (hwaiting h1),
    fun h1 => keyboardPoll_of_hostPoll_fail (hends h1)⟩
  obtain ⟨t, ht, hkbsr, hkbdr, hpoll⟩ := keyboardPoll_of_hostPoll_ready (hbyte b2 h1)
  refine ⟨t, ht, hkbsr, ?_, hpoll⟩
  rcases keptByte_eq_or s.inputPos b1 b2 with hk | hk
  · exact .inl (hk ▸ hkbdr)
  · exact .inr (hk ▸ hkbdr)

/-! ### Stores to KBSR and KBDR (R45, R46) -/

/-- A poll that goes on leaves one of two words in KBSR, whatever stood there (R44, D9). -/
theorem keyboardPoll_kbsr {s t : State} (h : keyboardPoll s = .ok t) :
    t.cell Config.kbsr = 0x8000#16 ∨ t.cell Config.kbsr = 0x0000#16 := by
  rcases keyboardPoll_cases s with h' | ⟨h', -⟩ | h' | ⟨b, n, -, h'⟩ <;> rw [h'] at h
  · cases h
  · cases h
  · obtain rfl := Except.ok.inj h
    exact .inr (State.cell_memWrite_same _ _ _)
  · obtain rfl := Except.ok.inj h
    exact .inl (by rw [State.cell_memWrite_of_ne _ _ (by decide), State.cell_memWrite_same])

/-- A read of KBSR returns what its poll left there (R41, R47). -/
theorem memRead_kbsr_ok {v : Word} {s t : State} (h : memRead Config.kbsr s = .ok (v, t)) :
    keyboardPoll s = .ok t ∧ v = t.cell Config.kbsr := by
  cases hp : keyboardPoll s with
  | error x => rw [memRead_kbsr_of_error hp] at h; cases h
  | ok u =>
    rw [memRead_kbsr_of_ok hp] at h
    obtain ⟨rfl, rfl⟩ := Prod.mk.inj (Except.ok.inj h)
    exact ⟨rfl, rfl⟩

/-- Settles O17: the poll overwrites a stored KBSR, and nothing overwrites a stored KBDR. -/
theorem storedKbsrIsNeverReadBack : Obligations.StoredKbsrIsNeverReadBack := by
  refine ⟨fun s t v x h => ?_, fun s v => ?_⟩
  · obtain ⟨hp, rfl⟩ := memRead_kbsr_ok h
    exact keyboardPoll_kbsr hp
  · rw [memRead_of_ne _ (by decide), State.cell_memWrite_same]

/-! ### A store to the next instruction (R56) -/

/-- The step after a store at `PC` executes the stored word, unless `PC` is the limit or KBSR (R56, R91, R92). -/
theorem step_memWrite_pc {s : State} (hs : s.ready) (hmax : s.pc ≠ Config.maxAddress) (hkbsr : s.pc ≠ Config.kbsr)
    (v : Word) : step (s.memWrite s.pc v) = exec (decodeWord v) ((s.memWrite s.pc v).setPC (s.pc + 1#16)) := by
  have hf : fetch (s.memWrite s.pc v) = .ok (v, (s.memWrite s.pc v).setPC (s.pc + 1#16)) := by
    rw [fetch_of_ne (s := s.memWrite s.pc v) hkbsr, State.memWrite_pc, State.cell_memWrite_same]
  rw [step_of_fetch (s := s.memWrite s.pc v) hs hmax hf, runWord_eq_exec]

/-- Settles O50: with offset 0, ST's address is `PC` itself. -/
theorem storedWordIsFetchedNext : Obligations.StoredWordIsFetchedNext := by
  intro sr s hs hmax hkbsr
  have ha : pcRelative 0x0000#16 s = s.pc := BitVec.add_zero s.pc
  have hexec : exec (.st sr 0x0000#16) s = .next (s.memWrite s.pc (s.reg sr)) := by
    show execSt sr 0x0000#16 s = _
    rw [execSt, ha]
  exact ⟨_, hexec, rfl, step_memWrite_pc hs hmax hkbsr (s.reg sr)⟩

/-! ### What writes memory (R42, R44, R51) -/

/-- No poll by a read at one of the addresses `rs` reaches the word at `a`: it is neither keyboard cell, or none of them is
KBSR (R44, R47). -/
def ClearOfPolls (a : Word) (rs : List Word) : Prop :=
  (a ≠ Config.kbsr ∧ a ≠ Config.kbdr) ∨ Config.kbsr ∉ rs

/-- Every next state that `o` answers has the word of `s` at `a`. -/
def KeepsCell (a : Word) (s : State) (o : Result) : Prop := ∀ t, o = .next t → t.cell a = s.cell a

theorem State.cell_of_mem_eq {s t : State} (h : t.mem = s.mem) (a : Word) : t.cell a = s.cell a :=
  congrArg (Memory.read · a.toNat) h

/-- A read writes no word but those its poll reaches (R41, R44). -/
theorem memRead_cell {a r v : Word} {rs : List Word} {s t : State} (ha : ClearOfPolls a rs) (hr : r ∈ rs)
    (h : memRead r s = .ok (v, t)) : t.cell a = s.cell a := by
  rcases ha with ⟨hkbsr, hkbdr⟩ | hrs
  · exact (memRead_ok h).2.cells a hkbsr hkbdr
  · have hne : r ≠ Config.kbsr := fun e => hrs (e ▸ hr)
    rw [memRead_same_of_ne hne h]

section
variable {a : Word} {s u : State}

theorem KeepsCell.next (h : u.cell a = s.cell a) : KeepsCell a s (.next u) := by
  intro t ht
  rw [← Host.Outcome.next.inj ht, h]

/-- What is kept from a later state on is kept from an earlier one with the same word. -/
theorem KeepsCell.of_cell_eq {o : Result} (k : KeepsCell a u o) (h : u.cell a = s.cell a) : KeepsCell a s o :=
  fun t ht => (k t ht).trans h

theorem raiseAbort_keepsCell (e : RunError) : KeepsCell a s (raiseAbort e s) := .next rfl

/-- An operation that may stop, and what comes after it. -/
theorem orStop_keepsCell {α : Type} {r : Except Stop α} {k : α → Result}
    (hk : ∀ x, r = .ok x → KeepsCell a s (k x)) : KeepsCell a s (orStop s r k) := by
  intro t h
  rcases orStop_next h with ⟨x, hr, hx⟩ | ⟨e, -, rfl⟩
  · exact hk x hr t hx
  · rfl

theorem memRead_keepsCell {r : Word} {rs : List Word} {k : Word × State → Result} (ha : ClearOfPolls a rs) (hr : r ∈ rs)
    (hk : ∀ v u, memRead r s = .ok (v, u) → KeepsCell a u (k (v, u))) : KeepsCell a s (orStop s (memRead r s) k) :=
  orStop_keepsCell fun x hx => (hk x.1 x.2 hx).of_cell_eq (memRead_cell ha hr hx)

theorem hostWrite_keepsCell {b : Byte} {k : State → Result} (hk : ∀ u, KeepsCell a u (k u)) :
    KeepsCell a s (orStop s (hostWrite b s) k) :=
  orStop_keepsCell fun u hu => (hk u).of_cell_eq (State.cell_of_mem_eq (hostWrite_wrote hu).1.mem a)

theorem hostFlush_keepsCell {k : State → Result} (hk : ∀ u, KeepsCell a u (k u)) :
    KeepsCell a s (orStop s (hostFlush s) k) :=
  orStop_keepsCell fun u hu => (hk u).of_cell_eq (State.cell_of_mem_eq (hostFlush_wrote hu).1.mem a)

theorem loadResult_keepsCell {dr : Reg} {ea : Word} {rs : List Word} (ha : ClearOfPolls a rs) (hr : ea ∈ rs) :
    KeepsCell a s (loadResult dr ea s) :=
  memRead_keepsCell ha hr fun _ _ _ => .next rfl

theorem store_keepsCell {b v : Word} (h : b ≠ a) : KeepsCell a s (.next (s.memWrite b v)) :=
  .next (State.cell_memWrite_of_ne s v (Ne.symm h))

theorem readStep_keepsCell : KeepsCell a s (readStep s) := by
  intro t h
  rcases readStep_next h with ⟨b, -, rfl⟩ | ⟨c, -, rfl⟩
  · obtain ⟨-, -, -, -, hmem, -⟩ := takeByte_fields b (s.consume 1)
    exact State.cell_of_mem_eq hmem a
  · rfl

theorem finishString_keepsCell : KeepsCell a s (finishString s) :=
  hostFlush_keepsCell fun _ => .next rfl

theorem putsStep_keepsCell {r : Word} (ha : ClearOfPolls a [r]) : KeepsCell a s (putsStep r s) :=
  memRead_keepsCell ha (List.mem_singleton_self r) fun v u _ => by
    dsimp only
    split
    · exact finishString_keepsCell
    · exact hostWrite_keepsCell fun _ => .next rfl

theorem putspStep_keepsCell {r : Word} (ha : ClearOfPolls a [r]) : KeepsCell a s (putspStep r s) :=
  memRead_keepsCell ha (List.mem_singleton_self r) fun v u _ => by
    dsimp only
    split
    · exact finishString_keepsCell
    · refine hostWrite_keepsCell fun w => ?_
      split
      · exact .next rfl
      · exact hostWrite_keepsCell fun _ => .next rfl

theorem execBr_keepsCell (mask : BitVec 3) (off : Word) : KeepsCell a s (execBr mask off s) := by
  unfold execBr
  split <;> exact .next rfl

theorem execJsrr_keepsCell (base : Reg) : KeepsCell a s (execJsrr base s) := by
  unfold execJsrr
  split <;> exact .next rfl

theorem execTrapIn_keepsCell : KeepsCell a s (execTrapIn s) :=
  hostFlush_keepsCell fun u => by
    split
    · exact .next rfl
    · exact readStep_keepsCell
    · exact readStep_keepsCell
    · exact readStep_keepsCell

/-- LDI reads its pointer cell and then the address it holds; if the pointer cell is KBSR, it is listed itself (R121). -/
theorem execLdi_keepsCell {dr : Reg} {off : Word} (ha : ClearOfPolls a (readAddresses (.ldi dr off) s)) :
    KeepsCell a s (execLdi dr off s) :=
  memRead_keepsCell ha List.mem_cons_self fun v u hu => by
    have hv : ClearOfPolls a [v] := by
      refine ha.imp_right fun hrs => ?_
      have hne : pcRelative off s ≠ Config.kbsr := fun e => hrs (e ▸ List.mem_cons_self)
      rw [memRead_of_ne s hne] at hu
      obtain ⟨rfl, -⟩ := Prod.mk.inj (Except.ok.inj hu)
      exact fun h => hrs (List.mem_cons_of_mem _ h)
    exact loadResult_keepsCell hv (List.mem_singleton_self v)

theorem storeAddress_sti {sr : Reg} {off v : Word} (h : indirect off s = .ok (v, u)) :
    storeAddress (.sti sr off) s = some v := by
  rw [storeAddress, h]

/-- STI stores to the address its pointer read gives (R125). -/
theorem execSti_keepsCell {sr : Reg} {off : Word} (hst : storeAddress (.sti sr off) s ≠ some a)
    (ha : ClearOfPolls a (readAddresses (.sti sr off) s)) : KeepsCell a s (execSti sr off s) :=
  memRead_keepsCell ha List.mem_cons_self fun v u hu => by
    have hne : v ≠ a := fun e => hst (e ▸ storeAddress_sti hu)
    exact store_keepsCell hne

end

/-- An instruction keeps every word but the one it stores to and those its polls reach, by its constructor (R42, R44). -/
theorem exec_keepsCell {i : Instr} {a : Word} {s : State} (hst : storeAddress i s ≠ some a)
    (ha : ClearOfPolls a (readAddresses i s)) : KeepsCell a s (exec i s) := by
  cases i with
  | addReg _ _ _ => exact .next rfl
  | addImm _ _ _ => exact .next rfl
  | andReg _ _ _ => exact .next rfl
  | andImm _ _ _ => exact .next rfl
  | not _ _ => exact .next rfl
  | lea _ _ => exact .next rfl
  | ld _ _ => exact loadResult_keepsCell ha List.mem_cons_self
  | ldr _ _ _ => exact loadResult_keepsCell ha List.mem_cons_self
  | ldi _ _ => exact execLdi_keepsCell ha
  | st _ _ => exact store_keepsCell fun e => hst (congrArg some e)
  | str _ _ _ => exact store_keepsCell fun e => hst (congrArg some e)
  | sti _ _ => exact execSti_keepsCell hst ha
  | br mask off => exact execBr_keepsCell mask off
  | jmp _ => exact .next rfl
  | ret => exact .next rfl
  | jsr _ => exact .next rfl
  | jsrr base => exact execJsrr_keepsCell base
  | rti _ => exact raiseAbort_keepsCell _
  | res _ => exact raiseAbort_keepsCell _
  | trapUndefinedVector _ => exact raiseAbort_keepsCell _
  | trapGetc => exact readStep_keepsCell
  | trapIn => exact execTrapIn_keepsCell
  | trapPuts => exact putsStep_keepsCell ha
  | trapPutsp => exact putspStep_keepsCell ha
  | trapOut => exact hostWrite_keepsCell fun _ => .next rfl
  | trapHalt => exact hostFlush_keepsCell fun _ => .next rfl

/-- A micro-step reads the address that its routine's progress holds, if any (R148). -/
theorem resumeTrap_keepsCell {p : TrapProgress} {a : Word} {s : State} (ha : ClearOfPolls a p.readAddress.toList) :
    KeepsCell a s (resumeTrap p s) := by
  cases p with
  | puts r => exact putsStep_keepsCell ha
  | putsp r => exact putspStep_keepsCell ha
  | reading => exact readStep_keepsCell

/-- Settles O58, from what an instruction, a fetch and a micro-step keep. -/
theorem onlyStoresAndPollsWriteMemory : Obligations.OnlyStoresAndPollsWriteMemory := by
  refine ⟨fun i s t h a hst ha => exec_keepsCell hst ha t h, fun s u w h a ha => ?_, fun s t p hp h a ha => ?_⟩
  · obtain ⟨v, hm, rfl⟩ := fetch_ok h
    have hclear : ClearOfPolls a [s.pc] := ha.imp_right fun hne hmem => hne (List.mem_singleton.mp hmem).symm
    rw [State.setPC_cell]
    exact memRead_cell hclear (List.mem_singleton_self s.pc) hm
  · obtain ⟨hs, -⟩ := step_cases h
    rw [step_of_trap hs hp] at h
    have hclear : ClearOfPolls a p.readAddress.toList := ha.imp_right fun hne hmem => hne (Option.mem_toList.mp hmem)
    exact resumeTrap_keepsCell hclear t h

end Sys2Proof.Machine
end

section
/-! PROOFS. The family of 30_encoding.md: fields under masks, the formats of R65 and the decoder's arms, decode after encode
(R71) and encode after decode (R72), don't-care bits (R67), decode errors (R68). -/

namespace Sys2Proof

/-! ### Fields and mode bits under a mask -/

section
variable {w m p : Word}

/-- A mask with ones all over a field keeps the field. -/
theorem field_kept {s l : Nat} (hm : m.extractLsb' s l = BitVec.allOnes l) :
    (w &&& m).extractLsb' s l = w.extractLsb' s l := by
  rw [BitVec.extractLsb'_and, hm, BitVec.and_allOnes]

/-- A mask with zeros all over a field clears the field. -/
theorem field_cleared {s l : Nat} (hm : m.extractLsb' s l = 0#l) : (w &&& m).extractLsb' s l = 0#l := by
  rw [BitVec.extractLsb'_and, hm, BitVec.and_zero]

/-- A row that fixes every bit of a field fixes the field. -/
theorem field_of_row {s l : Nat} {f : BitVec l} (h : w &&& m = p) (hm : m.extractLsb' s l = BitVec.allOnes l)
    (hp : p.extractLsb' s l = f) : w.extractLsb' s l = f := by
  rw [← field_kept hm, h, hp]

/-- A row that fixes a bit fixes it to the pattern's. -/
theorem bit_of_row {i : Nat} {b : Bool} (h : w &&& m = p) (hm : m.getLsbD i = true) (hp : p.getLsbD i = b) :
    w.getLsbD i = b := by
  rw [← hp, ← h, BitVec.getLsbD_and, hm, Bool.and_true]

/-- A row that fixes the four opcode bits fixes the opcode (R61). -/
theorem opcodeOf_of_row {op : BitVec 4} (h : w &&& m = p) (hm : opcodeOf m = 0xF#4) (hp : opcodeOf p = op) :
    opcodeOf w = op :=
  field_of_row h hm hp

/-- Words that agree under a mask agree on each bit that it keeps. -/
theorem bit_of_masked {x : Word} {i : Nat} (h : w &&& m = x &&& m) (hm : m.getLsbD i = true) :
    w.getLsbD i = x.getLsbD i :=
  bit_of_row h hm (by rw [BitVec.getLsbD_and, hm, Bool.and_true])

end

/-- A one-bit field is its bit. -/
theorem bit_field (w : Word) (i : Nat) : w.extractLsb' i 1 = BitVec.ofBool (w.getLsbD i) := by
  ext k hk
  obtain rfl : k = 0 := by omega
  simp

/-- A word has no bit outside a mask exactly when the mask keeps it whole. -/
theorem and_eq_self_iff_and_not_eq_zero (w m : Word) : w &&& m = w ↔ w &&& ~~~m = 0#16 := by
  constructor
  · intro h
    rw [← h, BitVec.and_assoc, BitVec.and_not_self]
    exact BitVec.and_zero
  · intro h
    calc w &&& m = (w &&& m) ||| (w &&& ~~~m) := by rw [h, BitVec.or_zero]
      _ = w := by rw [← BitVec.and_or_distrib_left, BitVec.or_not_self, BitVec.and_allOnes]

/-! ### Sign-extended fields (R63) -/

/-- A sign-extended field lies in the range of its width. -/
theorem fitsSigned_sext {n : Nat} (f : BitVec n) (h : n ≤ 16) : fitsSigned n (sext f) = true := by
  rw [fitsSigned, sext, BitVec.toInt_signExtend_of_le h, Bool.and_eq_true, decide_eq_true_eq, decide_eq_true_eq]
  exact ⟨f.le_toInt, f.toInt_lt⟩

/-- The low bits of a sign-extended field are the field. -/
theorem setWidth_sext {n : Nat} (f : BitVec n) (h : n ≤ 16) : (sext f).setWidth n = f := by
  ext i hi
  rw [BitVec.getElem_setWidth, sext, BitVec.getLsbD_signExtend, if_pos hi, BitVec.getLsbD_eq_getElem hi]
  simp [Nat.lt_of_lt_of_le hi h]

/-! ### The decoder's arms -/

theorem decodeJmp_of_ne {base : Reg} (h : base ≠ .r7) : decodeJmp base = .jmp base := if_neg h

theorem decodeJmp_ne_rejected (base : Reg) (v : Byte) : decodeJmp base ≠ .trapUndefinedVector v := by
  unfold decodeJmp
  split <;> nofun

theorem encode_decodeJmp (base : Reg) : encode (decodeJmp base) = 0xC#4 ++ 0#3 ++ base.toBits ++ 0#6 := by
  unfold decodeJmp
  split
  · next h => rw [h]; rfl
  · rfl

theorem wellFormed_decodeJmp (base : Reg) : (decodeJmp base).wellFormed = true := by
  unfold decodeJmp
  split
  · rfl
  · next h => exact decide_eq_true h

theorem definedVector_eq_false_iff (v : Byte) : definedVector v = false ↔ v.toNat < 0x20 ∨ 0x25 < v.toNat := by
  simp only [definedVector, Bool.and_eq_false_iff, decide_eq_false_iff_not, Nat.not_le]

theorem decodeTrap_of_undefined {v : Byte} (h : definedVector v = false) : decodeTrap v = .trapUndefinedVector v := by
  rw [definedVector_eq_false_iff] at h
  unfold decodeTrap
  split
  case h_7 => rfl
  all_goals omega

/-- A vector names one of the six routines or is rejected (R68). -/
theorem decodeTrap_cases (v : Byte) :
    definedVector v = false ∧ decodeTrap v = .trapUndefinedVector v ∨
      v = 0x20#8 ∨ v = 0x21#8 ∨ v = 0x22#8 ∨ v = 0x23#8 ∨ v = 0x24#8 ∨ v = 0x25#8 := by
  cases h : definedVector v with
  | false => exact .inl ⟨rfl, decodeTrap_of_undefined h⟩
  | true =>
    simp only [definedVector, Bool.and_eq_true, decide_eq_true_eq] at h
    bv_omega

theorem encode_decodeTrap (v : Byte) : encode (decodeTrap v) = 0xF#4 ++ 0#4 ++ v := by
  rcases decodeTrap_cases v with ⟨-, h⟩ | rfl | rfl | rfl | rfl | rfl | rfl
  · rw [h, encode]
  all_goals rfl

theorem decodeTrap_eq_rejected_iff {v u : Byte} :
    decodeTrap v = .trapUndefinedVector u ↔ definedVector v = false ∧ u = v := by
  rcases decodeTrap_cases v with ⟨hv, h⟩ | rfl | rfl | rfl | rfl | rfl | rfl
  · rw [h, Instr.trapUndefinedVector.injEq, eq_comm, and_iff_right hv]
  all_goals exact ⟨nofun, nofun⟩

theorem wellFormed_decodeTrap (v : Byte) : (decodeTrap v).wellFormed = true := by
  rcases decodeTrap_cases v with ⟨hv, h⟩ | rfl | rfl | rfl | rfl | rfl | rfl
  · rw [h, Instr.wellFormed, hv]; rfl
  all_goals rfl

/-! ### The formats (R60-R66) -/

/-- What a word decodes to, by its opcode and mode bit: one constructor for each arm of the decoder. -/
inductive WordFormat (w : Word) : Instr → Prop
  | br (h : opcodeOf w = 0x0#4) : WordFormat w (.br (fieldMask w) (fieldPCoffset9 w))
  | addReg (h : opcodeOf w = 0x1#4) (hm : immediateMode w = false) :
      WordFormat w (.addReg (fieldDR w) (fieldSR1 w) (fieldSR2 w))
  | addImm (h : opcodeOf w = 0x1#4) (hm : immediateMode w = true) :
      WordFormat w (.addImm (fieldDR w) (fieldSR1 w) (fieldImm5 w))
  | ld (h : opcodeOf w = 0x2#4) : WordFormat w (.ld (fieldDR w) (fieldPCoffset9 w))
  | st (h : opcodeOf w = 0x3#4) : WordFormat w (.st (fieldDR w) (fieldPCoffset9 w))
  | jsrr (h : opcodeOf w = 0x4#4) (hl : longForm w = false) : WordFormat w (.jsrr (fieldSR1 w))
  | jsr (h : opcodeOf w = 0x4#4) (hl : longForm w = true) : WordFormat w (.jsr (fieldPCoffset11 w))
  | andReg (h : opcodeOf w = 0x5#4) (hm : immediateMode w = false) :
      WordFormat w (.andReg (fieldDR w) (fieldSR1 w) (fieldSR2 w))
  | andImm (h : opcodeOf w = 0x5#4) (hm : immediateMode w = true) :
      WordFormat w (.andImm (fieldDR w) (fieldSR1 w) (fieldImm5 w))
  | ldr (h : opcodeOf w = 0x6#4) : WordFormat w (.ldr (fieldDR w) (fieldSR1 w) (fieldOffset6 w))
  | str (h : opcodeOf w = 0x7#4) : WordFormat w (.str (fieldDR w) (fieldSR1 w) (fieldOffset6 w))
  | rti (h : opcodeOf w = 0x8#4) : WordFormat w (.rti (w.extractLsb' 0 12))
  | not (h : opcodeOf w = 0x9#4) : WordFormat w (.not (fieldDR w) (fieldSR1 w))
  | ldi (h : opcodeOf w = 0xA#4) : WordFormat w (.ldi (fieldDR w) (fieldPCoffset9 w))
  | sti (h : opcodeOf w = 0xB#4) : WordFormat w (.sti (fieldDR w) (fieldPCoffset9 w))
  | jmp (h : opcodeOf w = 0xC#4) : WordFormat w (decodeJmp (fieldSR1 w))
  | res (h : opcodeOf w = 0xD#4) : WordFormat w (.res (w.extractLsb' 0 12))
  | lea (h : opcodeOf w = 0xE#4) : WordFormat w (.lea (fieldDR w) (fieldPCoffset9 w))
  | trap (h : opcodeOf w = 0xF#4) : WordFormat w (decodeTrap (fieldVector w))

/-- A word has one format: what it decodes to. -/
theorem WordFormat.decodeWord_eq {w : Word} {i : Instr} (f : WordFormat w i) : decodeWord w = i := by
  cases f <;> simp [decodeWord, *]

/-- Every word has a format. -/
theorem wordFormat_decodeWord (w : Word) : WordFormat w (decodeWord w) := by
  unfold decodeWord
  split
  · next h => exact .br (BitVec.eq_of_toNat_eq h)
  · next h =>
    split
    · next hm => exact .addImm (BitVec.eq_of_toNat_eq h) hm
    · next hm => exact .addReg (BitVec.eq_of_toNat_eq h) (Bool.eq_false_of_not_eq_true hm)
  · next h => exact .ld (BitVec.eq_of_toNat_eq h)
  · next h => exact .st (BitVec.eq_of_toNat_eq h)
  · next h =>
    split
    · next hl => exact .jsr (BitVec.eq_of_toNat_eq h) hl
    · next hl => exact .jsrr (BitVec.eq_of_toNat_eq h) (Bool.eq_false_of_not_eq_true hl)
  · next h =>
    split
    · next hm => exact .andImm (BitVec.eq_of_toNat_eq h) hm
    · next hm => exact .andReg (BitVec.eq_of_toNat_eq h) (Bool.eq_false_of_not_eq_true hm)
  · next h => exact .ldr (BitVec.eq_of_toNat_eq h)
  · next h => exact .str (BitVec.eq_of_toNat_eq h)
  · next h => exact .rti (BitVec.eq_of_toNat_eq h)
  · next h => exact .not (BitVec.eq_of_toNat_eq h)
  · next h => exact .ldi (BitVec.eq_of_toNat_eq h)
  · next h => exact .sti (BitVec.eq_of_toNat_eq h)
  · next h => exact .jmp (BitVec.eq_of_toNat_eq h)
  · next h => exact .res (BitVec.eq_of_toNat_eq h)
  · next h => exact .lea (BitVec.eq_of_toNat_eq h)
  · simp only [imp_false] at *
    exact .trap (by bv_omega)

/-! ### `decode` and `decodeWord` -/

theorem decode_of_ne_rejected {w : Word} {i : Instr} (h : decodeWord w = i) (hi : ∀ v, i ≠ .trapUndefinedVector v) :
    decode w = .ok i := by
  unfold decode
  rw [h]
  split
  · next v => exact absurd rfl (hi v)
  · rfl

theorem decode_of_rejected {w : Word} {v : Byte} (h : decodeWord w = .trapUndefinedVector v) :
    decode w = .error (.unknownTrapRoutine v) := by
  rw [decode, h]

/-- A word of a format that is no rejection decodes to what the format says. -/
theorem WordFormat.decode_eq {w : Word} {i : Instr} (f : WordFormat w i) (hi : ∀ v, i ≠ .trapUndefinedVector v) :
    decode w = .ok i :=
  decode_of_ne_rejected f.decodeWord_eq hi

theorem decodeWord_of_decode_ok {w : Word} {i : Instr} (h : decode w = .ok i) : decodeWord w = i := by
  unfold decode at h
  split at h
  · cases h
  · exact Except.ok.inj h

theorem ne_rejected_of_decode_ok {w : Word} {i : Instr} (h : decode w = .ok i) (v : Byte) :
    i ≠ .trapUndefinedVector v := by
  rintro rfl
  rw [decode_of_rejected (decodeWord_of_decode_ok h)] at h
  cases h

/-- Every decode error is a rejected vector's. -/
theorem decode_eq_error_iff {w : Word} {e : RunError} :
    decode w = .error e ↔ ∃ v, decodeWord w = .trapUndefinedVector v ∧ e = .unknownTrapRoutine v := by
  constructor
  · intro h
    unfold decode at h
    split at h
    · next v hv => exact ⟨v, hv, (Except.error.inj h).symm⟩
    · cases h
  · rintro ⟨v, hv, rfl⟩
    exact decode_of_rejected hv

/-- The decoder rejects exactly the TRAP words whose vector names no routine (R68, R147). -/
theorem decodeWord_eq_rejected_iff {w : Word} {v : Byte} :
    decodeWord w = .trapUndefinedVector v ↔
      opcodeOf w = 0xF#4 ∧ definedVector (fieldVector w) = false ∧ v = fieldVector w := by
  constructor
  · intro h
    have f := wordFormat_decodeWord w
    rw [h] at f
    generalize hi : Instr.trapUndefinedVector v = i at f
    cases f
    case trap hop => exact ⟨hop, decodeTrap_eq_rejected_iff.mp hi.symm⟩
    case jmp => exact absurd hi.symm (decodeJmp_ne_rejected _ _)
    all_goals cases hi
  · rintro ⟨hop, hv, rfl⟩
    rw [(WordFormat.trap hop).decodeWord_eq, decodeTrap_of_undefined hv]

/-! ### The fields of the encoder's layouts (R61-R65) -/

/-- A register written into a field is read back (R62). -/
theorem ofBits_of_field {b : BitVec 3} {r : Reg} (h : b = r.toBits) : Reg.ofBits b = r := by
  rw [h, Reg.ofBits_toBits]

section
variable (op : BitVec 4) (r q t : Reg)

/-! What the accessors read of an encoded word: one lemma for each layout, its fixed bits written as the encoder writes them. -/

theorem fields_reg_off9 {off : Word} (h : fitsSigned 9 off = true) :
    opcodeOf (op ++ r.toBits ++ off.setWidth 9) = op ∧ fieldDR (op ++ r.toBits ++ off.setWidth 9) = r ∧
    fieldPCoffset9 (op ++ r.toBits ++ off.setWidth 9) = off := by
  obtain ⟨hop, hr, hoff⟩ := layout_reg_off9 op r.toBits (off.setWidth 9)
  exact ⟨hop, ofBits_of_field hr, (congrArg sext hoff).trans (sext_setWidth (by decide) (by decide) h)⟩

theorem fields_reg_reg_off6 (f : BitVec 6) :
    opcodeOf (op ++ r.toBits ++ q.toBits ++ f) = op ∧ fieldDR (op ++ r.toBits ++ q.toBits ++ f) = r ∧
    fieldSR1 (op ++ r.toBits ++ q.toBits ++ f) = q ∧ fieldOffset6 (op ++ r.toBits ++ q.toBits ++ f) = sext f := by
  obtain ⟨hop, hr, hq, hf⟩ := layout_reg_reg_off6 op r.toBits q.toBits f
  exact ⟨hop, ofBits_of_field hr, ofBits_of_field hq, congrArg sext hf⟩

theorem fields_reg_reg_imm5 {imm : Word} (h : fitsSigned 5 imm = true) :
    opcodeOf (op ++ r.toBits ++ q.toBits ++ 1#1 ++ imm.setWidth 5) = op ∧
    fieldDR (op ++ r.toBits ++ q.toBits ++ 1#1 ++ imm.setWidth 5) = r ∧
    fieldSR1 (op ++ r.toBits ++ q.toBits ++ 1#1 ++ imm.setWidth 5) = q ∧
    immediateMode (op ++ r.toBits ++ q.toBits ++ 1#1 ++ imm.setWidth 5) = true ∧
    fieldImm5 (op ++ r.toBits ++ q.toBits ++ 1#1 ++ imm.setWidth 5) = imm := by
  simp (disch := decide) only [opcodeOf, fieldDR, fieldSR1, immediateMode, BitVec.getLsbD_eq_extractLsb', fieldImm5,
    low_field, high_field, Nat.reduceSub, whole_field, Reg.ofBits_toBits, beq_self_eq_true, true_and]
  exact sext_setWidth (by decide) (by decide) h

theorem fields_reg_reg_reg :
    opcodeOf (op ++ r.toBits ++ q.toBits ++ 0#1 ++ 0#2 ++ t.toBits) = op ∧
    fieldDR (op ++ r.toBits ++ q.toBits ++ 0#1 ++ 0#2 ++ t.toBits) = r ∧
    fieldSR1 (op ++ r.toBits ++ q.toBits ++ 0#1 ++ 0#2 ++ t.toBits) = q ∧
    immediateMode (op ++ r.toBits ++ q.toBits ++ 0#1 ++ 0#2 ++ t.toBits) = false ∧
    fieldSR2 (op ++ r.toBits ++ q.toBits ++ 0#1 ++ 0#2 ++ t.toBits) = t := by
  simp (disch := decide) only [opcodeOf, fieldDR, fieldSR1, immediateMode, BitVec.getLsbD_eq_extractLsb', fieldSR2,
    low_field, high_field, Nat.reduceSub, whole_field, Reg.ofBits_toBits, true_and, and_true]
  rfl

theorem fields_base :
    opcodeOf (op ++ 0#1 ++ 0#2 ++ q.toBits ++ 0#6) = op ∧ longForm (op ++ 0#1 ++ 0#2 ++ q.toBits ++ 0#6) = false ∧
    fieldSR1 (op ++ 0#1 ++ 0#2 ++ q.toBits ++ 0#6) = q := by
  simp (disch := decide) only [opcodeOf, longForm, BitVec.getLsbD_eq_extractLsb', fieldSR1, low_field, high_field,
    Nat.reduceSub, whole_field, Reg.ofBits_toBits, true_and, and_true]
  rfl

theorem fields_off11 {off : Word} (h : fitsSigned 11 off = true) :
    opcodeOf (op ++ 1#1 ++ off.setWidth 11) = op ∧ longForm (op ++ 1#1 ++ off.setWidth 11) = true ∧
    fieldPCoffset11 (op ++ 1#1 ++ off.setWidth 11) = off := by
  simp (disch := decide) only [opcodeOf, longForm, BitVec.getLsbD_eq_extractLsb', fieldPCoffset11, low_field, high_field,
    Nat.reduceSub, whole_field, beq_self_eq_true, true_and]
  exact sext_setWidth (by decide) (by decide) h

end

/-! ### Decoding an encoded instruction (R71) -/

/-- The word of a well-formed instruction has the instruction's own format, and its fields hold the operands. -/
theorem decodeWord_encode {i : Instr} (h : i.wellFormed = true) : decodeWord (encode i) = i := by
  cases i with
  | br mask off =>
    obtain ⟨hop, hmask, hoff⟩ := layout_reg_off9 0x0#4 mask (off.setWidth 9)
    have hsext : fieldPCoffset9 _ = off := (congrArg sext hoff).trans (sext_setWidth (by decide) (by decide) h)
    exact (WordFormat.br hop).decodeWord_eq.trans (congrArg₂ Instr.br hmask hsext)
  | addReg dr sr1 sr2 =>
    obtain ⟨hop, hdr, hsr1, hm, hsr2⟩ := fields_reg_reg_reg 0x1#4 dr sr1 sr2
    exact (WordFormat.addReg hop hm).decodeWord_eq.trans (by rw [hdr, hsr1, hsr2])
  | addImm dr sr1 imm =>
    obtain ⟨hop, hdr, hsr1, hm, himm⟩ := fields_reg_reg_imm5 0x1#4 dr sr1 h
    exact (WordFormat.addImm hop hm).decodeWord_eq.trans (by rw [hdr, hsr1, himm])
  | ld r off =>
    obtain ⟨hop, hr, hoff⟩ := fields_reg_off9 0x2#4 r h
    exact (WordFormat.ld hop).decodeWord_eq.trans (congrArg₂ Instr.ld hr hoff)
  | st r off =>
    obtain ⟨hop, hr, hoff⟩ := fields_reg_off9 0x3#4 r h
    exact (WordFormat.st hop).decodeWord_eq.trans (congrArg₂ Instr.st hr hoff)
  | jsrr base =>
    obtain ⟨hop, hl, hbase⟩ := fields_base 0x4#4 base
    exact (WordFormat.jsrr hop hl).decodeWord_eq.trans (congrArg Instr.jsrr hbase)
  | jsr off =>
    obtain ⟨hop, hl, hoff⟩ := fields_off11 0x4#4 h
    exact (WordFormat.jsr hop hl).decodeWord_eq.trans (congrArg Instr.jsr hoff)
  | andReg dr sr1 sr2 =>
    obtain ⟨hop, hdr, hsr1, hm, hsr2⟩ := fields_reg_reg_reg 0x5#4 dr sr1 sr2
    exact (WordFormat.andReg hop hm).decodeWord_eq.trans (by rw [hdr, hsr1, hsr2])
  | andImm dr sr1 imm =>
    obtain ⟨hop, hdr, hsr1, hm, himm⟩ := fields_reg_reg_imm5 0x5#4 dr sr1 h
    exact (WordFormat.andImm hop hm).decodeWord_eq.trans (by rw [hdr, hsr1, himm])
  | ldr r base off =>
    obtain ⟨hop, hr, hbase, hoff⟩ := fields_reg_reg_off6 0x6#4 r base (off.setWidth 6)
    exact (WordFormat.ldr hop).decodeWord_eq.trans (by rw [hr, hbase, hoff, sext_setWidth (by decide) (by decide) h])
  | str r base off =>
    obtain ⟨hop, hr, hbase, hoff⟩ := fields_reg_reg_off6 0x7#4 r base (off.setWidth 6)
    exact (WordFormat.str hop).decodeWord_eq.trans (by rw [hr, hbase, hoff, sext_setWidth (by decide) (by decide) h])
  | rti low =>
    obtain ⟨hop, hlow⟩ := layout_low12 0x8#4 low
    exact (WordFormat.rti hop).decodeWord_eq.trans (congrArg Instr.rti hlow)
  | not dr sr1 =>
    obtain ⟨hop, hdr, hsr1, -⟩ := fields_reg_reg_off6 0x9#4 dr sr1 0#6
    exact (WordFormat.not hop).decodeWord_eq.trans (congrArg₂ Instr.not hdr hsr1)
  | ldi r off =>
    obtain ⟨hop, hr, hoff⟩ := fields_reg_off9 0xA#4 r h
    exact (WordFormat.ldi hop).decodeWord_eq.trans (congrArg₂ Instr.ldi hr hoff)
  | sti r off =>
    obtain ⟨hop, hr, hoff⟩ := fields_reg_off9 0xB#4 r h
    exact (WordFormat.sti hop).decodeWord_eq.trans (congrArg₂ Instr.sti hr hoff)
  | jmp base =>
    obtain ⟨hop, -, hbase, -⟩ := layout_reg_reg_off6 0xC#4 0#3 base.toBits 0#6
    have hjmp : decodeJmp base = .jmp base := decodeJmp_of_ne (of_decide_eq_true h)
    exact (WordFormat.jmp hop).decodeWord_eq.trans ((congrArg decodeJmp (ofBits_of_field hbase)).trans hjmp)
  | ret => rfl
  | res low =>
    obtain ⟨hop, hlow⟩ := layout_low12 0xD#4 low
    exact (WordFormat.res hop).decodeWord_eq.trans (congrArg Instr.res hlow)
  | lea r off =>
    obtain ⟨hop, hr, hoff⟩ := fields_reg_off9 0xE#4 r h
    exact (WordFormat.lea hop).decodeWord_eq.trans (congrArg₂ Instr.lea hr hoff)
  | trapGetc => rfl
  | trapOut => rfl
  | trapPuts => rfl
  | trapIn => rfl
  | trapPutsp => rfl
  | trapHalt => rfl
  | trapUndefinedVector v =>
    obtain ⟨hop, hvec⟩ := layout_vector 0xF#4 v
    have hv : definedVector v = false := by simpa only [Instr.wellFormed, Bool.not_eq_true'] using h
    exact (WordFormat.trap hop).decodeWord_eq.trans ((congrArg decodeTrap hvec).trans (decodeTrap_of_undefined hv))

/-- Settles O3, from what the word of each well-formed instruction decodes to. -/
theorem decodeOfEncodeIsTheInstruction : Obligations.DecodeOfEncodeIsTheInstruction := by
  intro i hi
  have hd := decodeWord_encode hi
  exact ⟨hd, decode_of_ne_rejected hd, fun v hv => decode_of_rejected (hd.trans hv)⟩

/-! ### Encoding a decoded word (R72) -/

section
variable (w : Word)

/-! The fields of a word, joined, are the word: one lemma for each layout of R65. -/

theorem join_fields_reg_off9 :
    w.extractLsb' 12 4 ++ w.extractLsb' 9 3 ++ w.extractLsb' 0 9 = w := by
  simp (disch := decide) only [BitVec.extractLsb'_append_extractLsb'_eq_extractLsb']
  exact whole_field w

theorem join_fields_reg_reg_off6 :
    w.extractLsb' 12 4 ++ w.extractLsb' 9 3 ++ w.extractLsb' 6 3 ++ w.extractLsb' 0 6 = w := by
  simp (disch := decide) only [BitVec.extractLsb'_append_extractLsb'_eq_extractLsb']
  exact whole_field w

theorem join_fields_reg_reg_imm5 :
    w.extractLsb' 12 4 ++ w.extractLsb' 9 3 ++ w.extractLsb' 6 3 ++ w.extractLsb' 5 1 ++ w.extractLsb' 0 5 = w := by
  simp (disch := decide) only [BitVec.extractLsb'_append_extractLsb'_eq_extractLsb']
  exact whole_field w

theorem join_fields_reg_reg_reg :
    w.extractLsb' 12 4 ++ w.extractLsb' 9 3 ++ w.extractLsb' 6 3 ++ w.extractLsb' 5 1 ++ w.extractLsb' 3 2 ++
      w.extractLsb' 0 3 = w := by
  simp (disch := decide) only [BitVec.extractLsb'_append_extractLsb'_eq_extractLsb']
  exact whole_field w

theorem join_fields_base :
    w.extractLsb' 12 4 ++ w.extractLsb' 11 1 ++ w.extractLsb' 9 2 ++ w.extractLsb' 6 3 ++ w.extractLsb' 0 6 = w := by
  simp (disch := decide) only [BitVec.extractLsb'_append_extractLsb'_eq_extractLsb']
  exact whole_field w

theorem join_fields_off11 :
    w.extractLsb' 12 4 ++ w.extractLsb' 11 1 ++ w.extractLsb' 0 11 = w := by
  simp (disch := decide) only [BitVec.extractLsb'_append_extractLsb'_eq_extractLsb']
  exact whole_field w

theorem join_fields_low12 :
    w.extractLsb' 12 4 ++ w.extractLsb' 0 12 = w := by
  simp (disch := decide) only [BitVec.extractLsb'_append_extractLsb'_eq_extractLsb']
  exact whole_field w

theorem join_fields_vector :
    w.extractLsb' 12 4 ++ w.extractLsb' 8 4 ++ w.extractLsb' 0 8 = w := by
  simp (disch := decide) only [BitVec.extractLsb'_append_extractLsb'_eq_extractLsb']
  exact whole_field w

end

section
variable {op : BitVec 4} {w : Word} (h : opcodeOf w = op)
include h

/-! A word's fields, written out as the encoder writes them, are the word with its don't-care bits 0. -/

theorem encode_fields_mask_off9 : op ++ fieldMask w ++ (fieldPCoffset9 w).setWidth 9 = w := by
  rw [← h, fieldPCoffset9, setWidth_sext _ (by decide)]
  exact join_fields_reg_off9 w

theorem encode_fields_reg_off9 : op ++ (fieldDR w).toBits ++ (fieldPCoffset9 w).setWidth 9 = w := by
  rw [fieldDR, Reg.toBits_ofBits]
  exact encode_fields_mask_off9 h

theorem encode_fields_reg_reg_off6 :
    op ++ (fieldDR w).toBits ++ (fieldSR1 w).toBits ++ (fieldOffset6 w).setWidth 6 = w := by
  rw [← h, fieldDR, fieldSR1, Reg.toBits_ofBits, Reg.toBits_ofBits, fieldOffset6, setWidth_sext _ (by decide)]
  exact join_fields_reg_reg_off6 w

theorem encode_fields_reg_reg_imm5 (hm : immediateMode w = true) :
    op ++ (fieldDR w).toBits ++ (fieldSR1 w).toBits ++ 1#1 ++ (fieldImm5 w).setWidth 5 = w := by
  have hbit : w.extractLsb' 5 1 = 1#1 := (bit_field w 5).trans (congrArg BitVec.ofBool hm)
  rw [← h, ← hbit, fieldDR, fieldSR1, Reg.toBits_ofBits, Reg.toBits_ofBits, fieldImm5, setWidth_sext _ (by decide)]
  exact join_fields_reg_reg_imm5 w

theorem encode_fields_reg_reg_reg (hm : immediateMode w = false) :
    op ++ (fieldDR w).toBits ++ (fieldSR1 w).toBits ++ 0#1 ++ 0#2 ++ (fieldSR2 w).toBits = w &&& 0xFFE7#16 := by
  have hbit : w.extractLsb' 5 1 = 0#1 := (bit_field w 5).trans (congrArg BitVec.ofBool hm)
  rw [← join_fields_reg_reg_reg (w &&& 0xFFE7#16)]
  simp (disch := decide) only [field_kept, field_cleared, fieldDR, fieldSR1, fieldSR2, Reg.toBits_ofBits, ← h, opcodeOf,
    hbit]

theorem encode_fields_base (hl : longForm w = false) :
    op ++ 0#1 ++ 0#2 ++ (fieldSR1 w).toBits ++ 0#6 = w &&& 0xF9C0#16 := by
  have hbit : w.extractLsb' 11 1 = 0#1 := (bit_field w 11).trans (congrArg BitVec.ofBool hl)
  rw [← join_fields_base (w &&& 0xF9C0#16)]
  simp (disch := decide) only [field_kept, field_cleared, fieldSR1, Reg.toBits_ofBits, ← h, opcodeOf, hbit]

theorem encode_fields_off11 (hl : longForm w = true) : op ++ 1#1 ++ (fieldPCoffset11 w).setWidth 11 = w := by
  have hbit : w.extractLsb' 11 1 = 1#1 := (bit_field w 11).trans (congrArg BitVec.ofBool hl)
  rw [← h, ← hbit, fieldPCoffset11, setWidth_sext _ (by decide)]
  exact join_fields_off11 w

theorem encode_fields_reg_reg : op ++ (fieldDR w).toBits ++ (fieldSR1 w).toBits ++ 0#6 = w &&& 0xFFC0#16 := by
  rw [← join_fields_reg_reg_off6 (w &&& 0xFFC0#16)]
  simp (disch := decide) only [field_kept, field_cleared, fieldDR, fieldSR1, Reg.toBits_ofBits, ← h, opcodeOf]

theorem encode_fields_jmp_base : op ++ 0#3 ++ (fieldSR1 w).toBits ++ 0#6 = w &&& 0xF1C0#16 := by
  rw [← join_fields_reg_reg_off6 (w &&& 0xF1C0#16)]
  simp (disch := decide) only [field_kept, field_cleared, fieldSR1, Reg.toBits_ofBits, ← h, opcodeOf]

theorem encode_fields_low12 : op ++ w.extractLsb' 0 12 = w := h ▸ join_fields_low12 w

theorem encode_fields_vector : op ++ 0#4 ++ fieldVector w = w &&& 0xF0FF#16 := by
  rw [← join_fields_vector (w &&& 0xF0FF#16)]
  simp (disch := decide) only [field_kept, field_cleared, fieldVector, ← h, opcodeOf]

end

/-- A word without don't-care bits is kept whole. -/
theorem masked_of_full {w : Word} (h : careMask w = 0xFFFF#16) : w &&& careMask w = w := by
  rw [h]
  exact BitVec.and_allOnes

/-- Encoding what a word belongs to gives the word back with its don't-care bits 0 (R67, R72). -/
theorem encode_decodeWord (w : Word) : encode (decodeWord w) = w &&& careMask w := by
  have f := wordFormat_decodeWord w
  generalize decodeWord w = i at f
  cases f with
  | br h => exact (encode_fields_mask_off9 h).trans (masked_of_full (by simp [careMask, h])).symm
  | addReg h hm =>
    rw [show careMask w = 0xFFE7#16 by simp [careMask, h, hm]]
    exact encode_fields_reg_reg_reg h hm
  | addImm h hm => exact (encode_fields_reg_reg_imm5 h hm).trans (masked_of_full (by simp [careMask, h, hm])).symm
  | ld h => exact (encode_fields_reg_off9 h).trans (masked_of_full (by simp [careMask, h])).symm
  | st h => exact (encode_fields_reg_off9 h).trans (masked_of_full (by simp [careMask, h])).symm
  | jsrr h hl =>
    rw [show careMask w = 0xF9C0#16 by simp [careMask, h, hl]]
    exact encode_fields_base h hl
  | jsr h hl => exact (encode_fields_off11 h hl).trans (masked_of_full (by simp [careMask, h, hl])).symm
  | andReg h hm =>
    rw [show careMask w = 0xFFE7#16 by simp [careMask, h, hm]]
    exact encode_fields_reg_reg_reg h hm
  | andImm h hm => exact (encode_fields_reg_reg_imm5 h hm).trans (masked_of_full (by simp [careMask, h, hm])).symm
  | ldr h => exact (encode_fields_reg_reg_off6 h).trans (masked_of_full (by simp [careMask, h])).symm
  | str h => exact (encode_fields_reg_reg_off6 h).trans (masked_of_full (by simp [careMask, h])).symm
  | rti h => exact (encode_fields_low12 h).trans (masked_of_full (by simp [careMask, h])).symm
  | not h =>
    rw [show careMask w = 0xFFC0#16 by simp [careMask, h]]
    exact encode_fields_reg_reg h
  | ldi h => exact (encode_fields_reg_off9 h).trans (masked_of_full (by simp [careMask, h])).symm
  | sti h => exact (encode_fields_reg_off9 h).trans (masked_of_full (by simp [careMask, h])).symm
  | jmp h =>
    rw [show careMask w = 0xF1C0#16 by simp [careMask, h], encode_decodeJmp]
    exact encode_fields_jmp_base h
  | res h => exact (encode_fields_low12 h).trans (masked_of_full (by simp [careMask, h])).symm
  | lea h => exact (encode_fields_reg_off9 h).trans (masked_of_full (by simp [careMask, h])).symm
  | trap h =>
    rw [show careMask w = 0xF0FF#16 by simp [careMask, h], encode_decodeTrap]
    exact encode_fields_vector h

/-! ### Well-formed answers (R63, R68) -/

/-- Settles O7, by the word's format. -/
theorem decodedInstructionsAreWellFormed : Obligations.DecodedInstructionsAreWellFormed := by
  intro w
  have f := wordFormat_decodeWord w
  generalize decodeWord w = i at f
  cases f with
  | br _ => exact fitsSigned_sext _ (by decide)
  | addReg _ _ => rfl
  | addImm _ _ => exact fitsSigned_sext _ (by decide)
  | ld _ => exact fitsSigned_sext _ (by decide)
  | st _ => exact fitsSigned_sext _ (by decide)
  | jsrr _ _ => rfl
  | jsr _ _ => exact fitsSigned_sext _ (by decide)
  | andReg _ _ => rfl
  | andImm _ _ => exact fitsSigned_sext _ (by decide)
  | ldr _ => exact fitsSigned_sext _ (by decide)
  | str _ => exact fitsSigned_sext _ (by decide)
  | rti _ => rfl
  | not _ => rfl
  | ldi _ => exact fitsSigned_sext _ (by decide)
  | sti _ => exact fitsSigned_sext _ (by decide)
  | jmp _ => exact wellFormed_decodeJmp _
  | res _ => rfl
  | lea _ => exact fitsSigned_sext _ (by decide)
  | trap _ => exact wellFormed_decodeTrap _

/-- Settles O4, by encoding what the word decodes to; careMask keeps every bit of a reserved word, so that the two
hypotheses on the opcode are not needed. -/
theorem reencodingPreservesOperandFields : Obligations.ReencodingPreservesOperandFields := by
  intro w i _ _ h
  have hi : decodeWord w = i := decodeWord_of_decode_ok h
  have hwf : i.wellFormed = true := hi ▸ decodedInstructionsAreWellFormed w
  have hword : encode i = w &&& careMask w := hi ▸ encode_decodeWord w
  refine ⟨?_, hword, by rw [hword, and_eq_self_iff_and_not_eq_zero]⟩
  exact decode_of_ne_rejected (decodeWord_encode hwf) (ne_rejected_of_decode_ok h)

/-- Settles O6: the decoder's error is the rejection of a vector. -/
theorem onlyUndefinedVectorsFailToDecode : Obligations.OnlyUndefinedVectorsFailToDecode := by
  intro w e
  rw [decode_eq_error_iff]
  constructor
  · rintro ⟨v, hv, rfl⟩
    obtain ⟨hop, hdef, rfl⟩ := decodeWord_eq_rejected_iff.mp hv
    exact ⟨hop, (definedVector_eq_false_iff _).mp hdef, rfl⟩
  · rintro ⟨hop, hrange, rfl⟩
    exact ⟨_, decodeWord_eq_rejected_iff.mpr ⟨hop, (definedVector_eq_false_iff _).mpr hrange, rfl⟩, rfl⟩

/-! ### Don't-care bits (R67) -/

theorem opcodeOf_careMask (w : Word) : opcodeOf (careMask w) = 0xF#4 := by
  unfold careMask
  split
  case h_1 | h_2 | h_3 => split <;> rfl
  all_goals rfl

/-- The masks of ADD and AND keep the mode bit, whatever it is. -/
theorem immediateMode_ite_mask (b : Bool) : immediateMode (if b then 0xFFFF#16 else 0xFFE7#16) = true := by
  cases b <;> rfl

/-- The masks of JSR and JSRR keep the form bit, whatever it is. -/
theorem longForm_ite_mask (b : Bool) : longForm (if b then 0xFFFF#16 else 0xF9C0#16) = true := by
  cases b <;> rfl

/-- Words that agree on the bits the decoder reads of the one have the same such bits: the opcode and the mode bit that
select them are among them. -/
theorem careMask_congr {w x : Word} (h : w &&& careMask w = x &&& careMask w) : careMask x = careMask w := by
  have hop : opcodeOf x = opcodeOf w :=
    (opcodeOf_of_row h (opcodeOf_careMask w) (field_kept (opcodeOf_careMask w))).symm
  revert h
  unfold careMask
  rw [hop]
  split
  case h_1 | h_3 =>
    intro h
    have hm : immediateMode w = immediateMode x := bit_of_masked h (immediateMode_ite_mask _)
    rw [hm]
  case h_2 =>
    intro h
    have hl : longForm w = longForm x := bit_of_masked h (longForm_ite_mask _)
    rw [hl]
  all_goals exact fun _ => rfl

/-- A word decodes like its bits that are no don't-care bits. -/
theorem decodeWord_masked (w : Word) : decodeWord (w &&& careMask w) = decodeWord w := by
  rw [← encode_decodeWord, decodeWord_encode (decodedInstructionsAreWellFormed w)]

theorem decodeWord_congr {w x : Word} (h : w &&& careMask w = x &&& careMask w) : decodeWord x = decodeWord w := by
  calc decodeWord x = decodeWord (x &&& careMask x) := (decodeWord_masked x).symm
    _ = decodeWord (w &&& careMask w) := by rw [careMask_congr h, h]
    _ = decodeWord w := decodeWord_masked w

theorem decode_congr {w x : Word} (h : decodeWord x = decodeWord w) : decode x = decode w := by
  rw [decode, decode, h]

/-! ### Every word by its format (R65) -/

/-- JMP's words with a base field other than 7 name a base other than R7. -/
theorem fieldSR1_ne_r7 {w : Word} (h : w &&& 0x01C0#16 ≠ 0x01C0#16) : fieldSR1 w ≠ .r7 := by
  intro hr
  have hbits : w.extractLsb' 6 3 = 7#3 := by rw [← Reg.toBits_ofBits (w.extractLsb' 6 3)]; exact congrArg Reg.toBits hr
  apply h
  rw [← join_fields_reg_reg_off6 (w &&& 0x01C0#16)]
  simp (disch := decide) only [field_kept, field_cleared, hbits]
  rfl

/-- A TRAP word by its vector (R68). -/
theorem decode_of_vector {w : Word} {i : Instr} (v : Byte) (h : w &&& 0xF0FF#16 = 0xF#4 ++ 0#4 ++ v)
    (hi : decodeTrap v = i) (hne : ∀ u, i ≠ .trapUndefinedVector u) : decode w = .ok i := by
  obtain ⟨hop, hv⟩ := layout_vector 0xF#4 v
  have hvec : fieldVector w = v := field_of_row h rfl hv
  have hw : decodeWord w = decodeTrap (fieldVector w) := (WordFormat.trap (opcodeOf_of_row h rfl hop)).decodeWord_eq
  exact decode_of_ne_rejected (by rw [hw, hvec, hi]) hne

theorem decode_jmp_of_ne {w : Word} (h : w &&& 0xF000#16 = 0xC000#16) (hb : fieldSR1 w ≠ .r7) :
    decode w = .ok (.jmp (fieldSR1 w)) :=
  decode_of_ne_rejected ((WordFormat.jmp (opcodeOf_of_row h rfl rfl)).decodeWord_eq.trans (decodeJmp_of_ne hb)) nofun

/-- JMP's words with BaseR = 7 decode to RET (R74). -/
theorem decode_ret {w : Word} (h : w &&& 0xF1C0#16 = 0xC1C0#16) : decode w = .ok .ret := by
  have hbits : w.extractLsb' 6 3 = 7#3 := field_of_row h rfl rfl
  have hjmp : decodeJmp (fieldSR1 w) = .ret := by rw [fieldSR1, hbits]; rfl
  exact decode_of_ne_rejected ((WordFormat.jmp (opcodeOf_of_row h rfl rfl)).decodeWord_eq.trans hjmp) nofun

/-- Settles O5, one format a line. -/
theorem everyWordDecodesByItsFormat : Obligations.EveryWordDecodesByItsFormat := by
  refine ⟨Reg.toBits_ofBits, rfl, rfl, fun w => ?_⟩
  exact ⟨fun h => (WordFormat.br (opcodeOf_of_row h rfl rfl)).decode_eq nofun,
    fun h => (WordFormat.addReg (opcodeOf_of_row h rfl rfl) (bit_of_row h rfl rfl)).decode_eq nofun,
    fun h => (WordFormat.addImm (opcodeOf_of_row h rfl rfl) (bit_of_row h rfl rfl)).decode_eq nofun,
    fun h => (WordFormat.ld (opcodeOf_of_row h rfl rfl)).decode_eq nofun,
    fun h => (WordFormat.st (opcodeOf_of_row h rfl rfl)).decode_eq nofun,
    fun h => (WordFormat.jsrr (opcodeOf_of_row h rfl rfl) (bit_of_row h rfl rfl)).decode_eq nofun,
    fun h => (WordFormat.jsr (opcodeOf_of_row h rfl rfl) (bit_of_row h rfl rfl)).decode_eq nofun,
    fun h => (WordFormat.andReg (opcodeOf_of_row h rfl rfl) (bit_of_row h rfl rfl)).decode_eq nofun,
    fun h => (WordFormat.andImm (opcodeOf_of_row h rfl rfl) (bit_of_row h rfl rfl)).decode_eq nofun,
    fun h => (WordFormat.ldr (opcodeOf_of_row h rfl rfl)).decode_eq nofun,
    fun h => (WordFormat.str (opcodeOf_of_row h rfl rfl)).decode_eq nofun,
    fun h => (WordFormat.rti (opcodeOf_of_row h rfl rfl)).decode_eq nofun,
    fun h => (WordFormat.not (opcodeOf_of_row h rfl rfl)).decode_eq nofun,
    fun h => (WordFormat.ldi (opcodeOf_of_row h rfl rfl)).decode_eq nofun,
    fun h => (WordFormat.sti (opcodeOf_of_row h rfl rfl)).decode_eq nofun,
    fun h hb => decode_jmp_of_ne h (fieldSR1_ne_r7 hb),
    fun h => decode_ret h,
    fun h => (WordFormat.res (opcodeOf_of_row h rfl rfl)).decode_eq nofun,
    fun h => (WordFormat.lea (opcodeOf_of_row h rfl rfl)).decode_eq nofun,
    fun h => decode_of_vector 0x20#8 h rfl nofun,
    fun h => decode_of_vector 0x21#8 h rfl nofun,
    fun h => decode_of_vector 0x22#8 h rfl nofun,
    fun h => decode_of_vector 0x23#8 h rfl nofun,
    fun h => decode_of_vector 0x24#8 h rfl nofun,
    fun h => decode_of_vector 0x25#8 h rfl nofun⟩

/-! ### Sample words -/

/-- Settles O1, by running the decoder and the encoder on the words written out. -/
theorem sampleWordsDecode : Obligations.SampleWordsDecode := by
  unfold Obligations.SampleWordsDecode
  and_intros
  all_goals rfl

end Sys2Proof

namespace Sys2Proof.Machine

/-! ### The reserved words (R160, R161) -/

/-- RTI as decoded from a word records that word. -/
theorem exec_rti_low {w : Word} (h : opcodeOf w = 0x8#4) (s : State) :
    ∃ t, exec (.rti (w.extractLsb' 0 12)) s = .next t ∧ abortOnly (.reservedOpcode w) s t := by
  have hs : exec (.rti (w.extractLsb' 0 12)) s = raiseAbort (.reservedOpcode (0x8#4 ++ w.extractLsb' 0 12)) s := rfl
  rw [hs, encode_fields_low12 h]
  exact raiseAbort_abortOnly _ s

/-- RES as decoded from a word records that word. -/
theorem exec_res_low {w : Word} (h : opcodeOf w = 0xD#4) (s : State) :
    ∃ t, exec (.res (w.extractLsb' 0 12)) s = .next t ∧ abortOnly (.reservedOpcode w) s t := by
  have hs : exec (.res (w.extractLsb' 0 12)) s = raiseAbort (.reservedOpcode (0xD#4 ++ w.extractLsb' 0 12)) s := rfl
  rw [hs, encode_fields_low12 h]
  exact raiseAbort_abortOnly _ s

/-- Settles O8: a word and its cared-for bits decode alike, and a decoded reserved word records the word it came from. -/
theorem dontCareBitsDoNotChangeTheInstruction : Obligations.DontCareBitsDoNotChangeTheInstruction := by
  refine ⟨fun w x h => decode_congr (decodeWord_congr h), fun w x hw h => ?_⟩
  have hx : opcodeOf x = opcodeOf w := (opcodeOf_of_row h rfl (field_kept rfl)).symm
  rcases hw with hw | hw
  · exact ⟨_, _, (WordFormat.rti hw).decode_eq nofun,
      (WordFormat.rti (hx.trans hw)).decode_eq nofun, rfl,
      fun s => ⟨exec_rti_low hw s, exec_rti_low (hx.trans hw) s⟩⟩
  · exact ⟨_, _, (WordFormat.res hw).decode_eq nofun,
      (WordFormat.res (hx.trans hw)).decode_eq nofun, rfl,
      fun s => ⟨exec_res_low hw s, exec_res_low (hx.trans hw) s⟩⟩

end Sys2Proof.Machine
end

section
/-! PROOFS. The family of 40_cycle.md: the fetch and the decoded instruction (R90, R92, R94), the ends of a run (R91, R93, R95),
a fetch whose poll does not go on (R92, R97), the steps that wait for the host (R97), and the placed word (log entry 7). -/

namespace Sys2Proof.Machine

/-! ### After the end of a run (R31, R96) -/

theorem step_of_halted {s : State} (h : s.status = .halted) : step s = .fault .halted := by
  obtain ⟨-, -, hstep, -, -⟩ := runningMachinesStepAndEndedRunsDoNot s
  exact hstep h

theorem step_of_limitReached {s : State} (h : s.status = .limitReached) : step s = .fault .limitReached := by
  obtain ⟨-, -, -, hstep, -⟩ := runningMachinesStepAndEndedRunsDoNot s
  exact hstep h

theorem step_of_aborted {s : State} {e : RunError} (h : s.status = .aborted e) : step s = .fault (.aborted e) := by
  obtain ⟨-, -, -, -, hstep⟩ := runningMachinesStepAndEndedRunsDoNot s
  exact hstep e h

/-! ### The fetch and the decoded instruction (R90, R92, R94) -/

section
variable {s u : State} {i : Instr}

/-- The fetch at KBSR takes the word that the poll left there (R47, R92). -/
theorem fetch_kbsr_of_ok (hpc : s.pc = Config.kbsr) (h : keyboardPoll s = .ok u) :
    fetch s = .ok (u.cell Config.kbsr, u.setPC (Config.kbsr + 1#16)) := by
  have hu : u.pc = Config.kbsr := (keyboardPoll_ok h).pc.trans hpc
  rw [fetch, hpc, memRead_kbsr_of_ok h]
  dsimp only
  rw [hu]

theorem fetch_kbsr_of_error {x : Stop} (hpc : s.pc = Config.kbsr) (h : keyboardPoll s = .error x) :
    fetch s = .error x := by
  rw [fetch, hpc, memRead_kbsr_of_error h]

theorem step_of_fetch_decode {w : Word} (hs : s.ready) (hmax : s.pc ≠ Config.maxAddress) (hf : fetch s = .ok (w, u))
    (hd : decode w = .ok i) : step s = exec i u := by
  rw [step_of_fetch hs hmax hf, runWord_of_ok hd]

/-- Away from the limit and from KBSR the step executes the stored word, with `PC` incremented. -/
theorem step_of_cell_decode (hs : s.ready) (hmax : s.pc ≠ Config.maxAddress) (hkbsr : s.pc ≠ Config.kbsr)
    (hd : decode (s.cell s.pc) = .ok i) : step s = exec i (s.setPC (s.pc + 1#16)) :=
  step_of_fetch_decode hs hmax (fetch_of_ne hkbsr) hd

end

/-- Settles O44: the three clauses are the fetch in general, away from KBSR and at KBSR. -/
theorem stepRunsTheDecodedInstruction : Obligations.StepRunsTheDecodedInstruction :=
  fun _ hs hmax => ⟨fun _ _ _ hf hd => step_of_fetch_decode hs hmax hf hd,
    fun _ hkbsr hd => step_of_cell_decode hs hmax hkbsr hd,
    fun _ _ hpc hp hd => step_of_fetch_decode hs hmax (fetch_kbsr_of_ok hpc hp) hd⟩

/-! ### The ends of a run (R91, R93, R95) -/

theorem exec_trapHalt_of_flushOk {s : State} (h : flushOk s) :
    exec .trapHalt s = .next { s.afterFlush with status := .halted } :=
  orStop_ok (hostFlush_of_ok h)

/-- Settles O38: the step is HALT's own, and a halted run has no step. -/
theorem haltEndsTheRunWithoutAFetch : Obligations.HaltEndsTheRunWithoutAFetch := by
  intro s hs hmax hkbsr hd hf
  refine ⟨_, (step_of_cell_decode hs hmax hkbsr hd).trans (exec_trapHalt_of_flushOk hf), rfl, rfl, ⟨fun _ => rfl, rfl⟩,
    fun _ => rfl, rfl, step_of_halted rfl⟩

/-- Settles O41: the step is the abort in the state after the fetch. -/
theorem decodeFailureAbortsAfterTheIncrement : Obligations.DecodeFailureAbortsAfterTheIncrement := by
  intro s u w e hs hmax hf hd
  obtain ⟨v, -, hv⟩ := decode_eq_error_iff.mp hd
  obtain ⟨t, ht, hstatus, htrap, hpc, hframe⟩ := raiseAbort_abortOnly e u
  obtain ⟨hfetchPC, -, -⟩ := onlyControlTransfersMoveThePC
  have hstep : step s = .next t := by rw [step_of_fetch hs hmax hf, runWord_of_error hd, ht]
  exact ⟨t, v, hstep, hv, hpc.trans (hfetchPC s u w hf), ⟨hstatus, htrap, hpc, hframe⟩, step_of_aborted hstatus⟩

/-- Settles O46, from what the step at the limit is. -/
theorem pcLimitEndsTheRun : Obligations.PcLimitEndsTheRun := by
  intro s hs hpc
  have htrap : s.trap = none := hs.2
  exact ⟨_, step_at_limit hs hpc, rfl, rfl, htrap, rfl, ⟨fun _ => rfl, rfl⟩, fun _ => rfl, ⟨rfl, rfl, rfl⟩,
    step_of_limitReached rfl⟩

/-- Settles O47: the step stops where the poll does, before the increment. -/
theorem failedFetchPollLeavesThePC : Obligations.FailedFetchPollLeavesThePC := by
  intro s x hs hpc hp
  have hmax : s.pc ≠ Config.maxAddress := by rw [hpc]; decide
  have hstep : step s = stopWith x s := step_of_fetch_error hs hmax (fetch_kbsr_of_error hpc hp)
  exact ⟨hstep ▸ stopWith_stops x s, (keyboardPoll_error hp).imp_right And.left⟩

/-! ### Waiting for the host (R97) -/

theorem readStep_of_eof {s : State} (h : s.byteAt 0 = .eof) : readStep s = raiseAbort (.ioError .eof) s := by
  rw [readStep, hostReadByte, h]

theorem readStep_of_fail {s : State} (h : s.byteAt 0 = .fail) : readStep s = raiseAbort (.ioError .read) s := by
  rw [readStep, hostReadByte, h]

/-- Consuming a byte and taking it into `R0` changes exactly what `byteTaken` says. -/
theorem takeByte_consume_byteTaken (b : Byte) (s : State) : byteTaken b s (takeByte b (s.consume 1)) := by
  obtain ⟨hr0, hregs, hcond, hpc, hmem, hstatus, htrap, hpos, hout, hhost, hparams⟩ := takeByte_fields b (s.consume 1)
  refine ⟨by rw [hr0, zext16_toNat], hregs, fun hp => ?_, fun hp => ?_, hpos, hhost, hpc, State.cell_of_mem_eq hmem, hout,
    hstatus, htrap, hparams⟩
  · rw [hcond, State.consume_params, hp]; rfl
  · rw [hcond, State.consume_params, hp, hr0]; exact condOf_flagsOf _

/-- The read of KBSR by LD waits with its poll (R97). -/
theorem exec_ld_of_poll_waiting {s : State} {dr : Reg} {off : Word} (ha : pcRelative off s = Config.kbsr)
    (h : s.pollSignal = .waiting) : exec (.ld dr off) s = .fault .waiting := by
  have hread : memRead (pcRelative off s) s = .error .wait := by
    rw [ha]
    exact memRead_kbsr_of_error (keyboardPoll_of_hostPoll_waiting (hostPoll_of_waiting h))
  exact orStop_error hread

/-- Settles O49: IN's waiting read and GETC are the blocking read, by the stream's answer; LD's read is a poll. -/
theorem waitingReadStaysUntilAByteArrives : Obligations.WaitingReadStaysUntilAByteArrives := by
  refine ⟨fun s hs ht => ?_, fun s hs hmax hkbsr hd hw => ?_, fun s dr off ha h => exec_ld_of_poll_waiting ha h⟩
  · have hstep : step s = readStep s := step_of_trap hs ht
    rw [hstep]
    exact ⟨readStep_of_waiting, fun b hb => ⟨_, readStep_of_byte hb, takeByte_consume_byteTaken b s⟩,
      fun h => readStep_of_eof h ▸ raiseAbort_abortOnly _ s, fun h => readStep_of_fail h ▸ raiseAbort_abortOnly _ s⟩
  · rw [step_of_cell_decode hs hmax hkbsr hd]
    exact readStep_of_waiting (s := s.setPC (s.pc + 1#16)) hw

/-! ### The placed word (log entry 7) -/

theorem fetchAddress_ne_maxAddress (s : State) : fetchAddress s ≠ Config.maxAddress := by
  unfold fetchAddress
  split
  · decide
  · next h => exact fun e => h (.inl e)

theorem fetchAddress_ne_kbsr (s : State) : fetchAddress s ≠ Config.kbsr := by
  unfold fetchAddress
  split
  · decide
  · next h => exact fun e => h (.inr e)

theorem fetchAddress_of_ne {s : State} (hmax : s.pc ≠ Config.maxAddress) (hkbsr : s.pc ≠ Config.kbsr) :
    fetchAddress s = s.pc :=
  if_neg (not_or.mpr ⟨hmax, hkbsr⟩)

theorem tableWord_toNat (w : Word) : tableWord 16 w.toNat = w := by
  rw [tableWord, Nat.mod_eq_of_lt w.isLt, BitVec.ofNat_toNat, BitVec.setWidth_eq]

/-- The machine between instructions of a run, with `PC` where a word can be placed. -/
def State.atFetchAddress (s : State) : State := { s with pc := fetchAddress s, status := .running, trap := none }

/-- Placing a word is a store at the `PC` of that machine. -/
theorem withFetchWord_eq (s : State) (w : Word) :
    s.withFetchWord 16 w.toNat = s.atFetchAddress.memWrite s.atFetchAddress.pc w := by
  rw [State.withFetchWord, tableWord_toNat]
  rfl

/-- Settles O51: the step after the store at `PC` executes the stored word. -/
theorem placedWordIsExecutedNext : Obligations.PlacedWordIsExecutedNext := by
  intro s w
  rw [withFetchWord_eq]
  refine ⟨_, step_memWrite_pc (s := s.atFetchAddress) ⟨rfl, rfl⟩ (fetchAddress_ne_maxAddress s) (fetchAddress_ne_kbsr s) w,
    rfl, rfl, rfl, fun hmax hkbsr => ?_, ⟨fun _ => rfl, rfl⟩, ⟨rfl, rfl, rfl⟩, rfl, fun b hb => ?_⟩
  · exact congrArg (· + 1#16) (fetchAddress_of_ne hmax hkbsr)
  · exact s.atFetchAddress.cell_memWrite_of_ne w hb

end Sys2Proof.Machine
end

section
/-! PROOFS. The family of 41_operate.md: ADD, AND and NOT (R100-R104). Each of the five instructions ends with one result
write, whose effect `writeResult_resultOnly` states. -/

namespace Sys2Proof.Machine

section
variable (dr sr1 sr2 : Reg) (imm : Word) (s : State)

theorem exec_addReg_eq : exec (.addReg dr sr1 sr2) s = .next (writeResult dr (s.reg sr1 + s.reg sr2) s) := rfl

theorem exec_addImm_eq : exec (.addImm dr sr1 imm) s = .next (writeResult dr (s.reg sr1 + imm) s) := rfl

theorem exec_andReg_eq : exec (.andReg dr sr1 sr2) s = .next (writeResult dr (s.reg sr1 &&& s.reg sr2) s) := rfl

theorem exec_andImm_eq : exec (.andImm dr sr1 imm) s = .next (writeResult dr (s.reg sr1 &&& imm) s) := rfl

theorem exec_not_eq : exec (.not dr sr1) s = .next (writeResult dr (~~~ s.reg sr1) s) := rfl

end

/-- A written sum is the sum of the numbers modulo 2^16 (R10). -/
theorem writeResult_add_resultOnly (dr : Reg) (a b : Word) (s : State) :
    resultOnly dr (BitVec.ofNat 16 (a.toNat + b.toNat)) s (writeResult dr (a + b) s) := by
  rw [← BitVec.add_def]
  exact writeResult_resultOnly dr (a + b) s

/-- Settles O19: both modes write the sum of their operands. -/
theorem addWritesTheWrappingSum : Obligations.AddWritesTheWrappingSum := by
  intro dr sr1 sr2 imm s
  exact ⟨⟨_, exec_addReg_eq dr sr1 sr2 s, writeResult_add_resultOnly dr (s.reg sr1) (s.reg sr2) s⟩,
    ⟨_, exec_addImm_eq dr sr1 imm s, writeResult_add_resultOnly dr (s.reg sr1) imm s⟩⟩

/-- Settles O20: the written word, and its bits one by one. -/
theorem andNotWriteTheBitwiseResult : Obligations.AndNotWriteTheBitwiseResult := by
  intro dr sr1 sr2 imm s
  refine ⟨⟨_, _, exec_andReg_eq dr sr1 sr2 s, writeResult_resultOnly dr _ s, fun i _ => ?_⟩,
    ⟨_, _, exec_andImm_eq dr sr1 imm s, writeResult_resultOnly dr _ s, fun i _ => ?_⟩,
    ⟨_, _, exec_not_eq dr sr1 s, writeResult_resultOnly dr _ s, fun i hi => ?_⟩⟩
  · exact BitVec.getLsbD_and
  · exact BitVec.getLsbD_and
  · rw [BitVec.getLsbD_not, decide_eq_true hi, Bool.true_and]

end Sys2Proof.Machine
end

section
/-! PROOFS. The family of 42_control.md: BR (R110), JMP and RET (R111, R112), JSR and JSRR (R113-R115). Each instruction ends
with one write of `PC`, after the link or without it, and a BR that is not taken with none; what these two writes leave is said
once each. -/

namespace Sys2Proof.Machine

/-! ### The two writes of `PC` -/

theorem setPC_pcOnly (a : Word) (s : State) : pcOnly a s (s.setPC a) :=
  ⟨rfl, ⟨fun _ => rfl, rfl⟩, fun _ => rfl, ⟨rfl, rfl, rfl⟩, ⟨rfl, rfl, rfl⟩⟩

/-- `t` is `s` but for a subroutine call: `PC` holds `a`, and `R7` the `PC` that `s` had (R113). -/
def linkOnly (a : Word) (s t : State) : Prop :=
  t.pc = a ∧ t.reg .r7 = s.pc ∧ (∀ r, r ≠ .r7 → t.reg r = s.reg r) ∧ t.cond = s.cond ∧
  sameMemory s t ∧ sameIO s t ∧ sameControl s t

theorem link_reg_r7 (s : State) : (link s).reg .r7 = s.pc := s.reg_setReg_same .r7 s.pc

theorem link_reg_of_ne (s : State) {r : Reg} (h : r ≠ .r7) : (link s).reg r = s.reg r := s.reg_setReg_of_ne s.pc h

theorem link_setPC_linkOnly (a : Word) (s : State) : linkOnly a s ((link s).setPC a) :=
  ⟨rfl, link_reg_r7 s, fun _ h => link_reg_of_ne s h, rfl, fun _ => rfl, ⟨rfl, rfl, rfl⟩, ⟨rfl, rfl, rfl⟩⟩

/-- A PC-relative target is the sum of the numbers modulo 2^16 (R10). -/
theorem pcRelative_eq_ofNat (off : Word) (s : State) : pcRelative off s = BitVec.ofNat 16 (s.pc.toNat + off.toNat) :=
  BitVec.add_def ..

/-! ### BR (R110) -/

theorem getLsbD_mask_and (mask : BitVec 3) (c : Word) {i : Nat} (h : i < 16) :
    (mask.setWidth 16 &&& c).getLsbD i = (mask.getLsbD i && c.getLsbD i) := by
  rw [BitVec.getLsbD_and, BitVec.getLsbD_setWidth, decide_eq_true h, Bool.true_and]

/-- A branch mask matches when it names, at one of its three bits, a flag that is set (R66). -/
theorem maskMatches_iff (mask : BitVec 3) (s : State) :
    maskMatches mask s = true ↔ ∃ i, i < 3 ∧ mask.getLsbD i = true ∧ s.cond.getLsbD i = true := by
  rw [maskMatches, bne_iff_ne]
  constructor
  · intro hne
    by_contra hno
    refine hne (BitVec.eq_of_getLsbD_eq fun i hi => ?_)
    rw [getLsbD_mask_and mask s.cond hi, BitVec.getLsbD_zero, Bool.and_eq_false_imp]
    exact fun hmask => Bool.eq_false_iff.mpr fun hcond => hno ⟨i, BitVec.lt_of_getLsbD hmask, hmask, hcond⟩
  · rintro ⟨i, hi, hmask, hcond⟩ hzero
    have hbit := getLsbD_mask_and mask s.cond (Nat.lt_trans hi (by decide))
    rw [hzero, hmask, hcond, BitVec.getLsbD_zero] at hbit
    exact Bool.false_ne_true hbit

section
variable {mask : BitVec 3} {s : State}

theorem exec_br_taken (off : Word) (h : maskMatches mask s = true) :
    exec (.br mask off) s = .next (s.setPC (pcRelative off s)) :=
  congrArg Host.Outcome.next (if_pos h)

theorem exec_br_not_taken (off : Word) (h : maskMatches mask s = false) : exec (.br mask off) s = .next s :=
  congrArg Host.Outcome.next (if_neg (Bool.eq_false_iff.mp h))

end

/-- Settles O26: the branch follows `maskMatches`, and the clauses are its two values. -/
theorem branchIsTakenOnMaskMatch : Obligations.BranchIsTakenOnMaskMatch := by
  intro mask off s
  refine ⟨fun hset => ?_, fun hclear => ?_, fun hzero => ?_⟩
  · rw [← pcRelative_eq_ofNat]
    exact ⟨_, exec_br_taken off ((maskMatches_iff mask s).mpr hset), setPC_pcOnly _ s⟩
  · refine exec_br_not_taken off (Bool.eq_false_iff.mpr fun hm => ?_)
    obtain ⟨i, hi, hmask, hcond⟩ := (maskMatches_iff mask s).mp hm
    exact Bool.false_ne_true ((hclear i hi hmask).symm.trans hcond)
  · exact exec_br_not_taken off (maskMatches_of_cond_zero mask hzero)

/-! ### JMP and RET (R111, R112) -/

theorem exec_jmp_eq (base : Reg) (s : State) : exec (.jmp base) s = .next (s.setPC (s.reg base)) := rfl

theorem exec_ret_eq (s : State) : exec .ret s = .next (s.setPC (s.reg .r7)) := rfl

/-- Settles O27: both write `PC` alone, and RET's base is `R7`. -/
theorem jumpsGoToTheRegister : Obligations.JumpsGoToTheRegister := by
  intro base s
  exact ⟨⟨_, exec_jmp_eq base s, setPC_pcOnly _ s⟩, ⟨_, exec_ret_eq s, setPC_pcOnly _ s⟩,
    (exec_ret_eq s).trans (exec_jmp_eq .r7 s).symm⟩

/-! ### JSR and JSRR (R114, R115) -/

/-- The target of JSRR: the base register, but the new link when the base is `R7` and is read after the link (D17). -/
def jsrrTarget (base : Reg) (s : State) : Word :=
  if base = .r7 ∧ s.params.jsrrReadBeforeLink = false then s.pc else s.reg base

theorem exec_jsr_eq (off : Word) (s : State) : exec (.jsr off) s = .next ((link s).setPC (pcRelative off s)) := rfl

theorem exec_jsrr_of_read_before {s : State} (base : Reg) (hp : s.params.jsrrReadBeforeLink = true) :
    exec (.jsrr base) s = .next ((link s).setPC (s.reg base)) :=
  congrArg Host.Outcome.next (if_pos hp)

theorem exec_jsrr_of_read_after {s : State} (base : Reg) (hp : s.params.jsrrReadBeforeLink = false) :
    exec (.jsrr base) s = .next ((link s).setPC ((link s).reg base)) :=
  congrArg Host.Outcome.next (if_neg (Bool.eq_false_iff.mp hp))

theorem exec_jsrr_eq (base : Reg) (s : State) : exec (.jsrr base) s = .next ((link s).setPC (jsrrTarget base s)) := by
  unfold jsrrTarget
  cases hp : s.params.jsrrReadBeforeLink with
  | true => rw [exec_jsrr_of_read_before base hp, if_neg (fun h => Bool.noConfusion h.2)]
  | false =>
    rw [exec_jsrr_of_read_after base hp]
    by_cases hb : base = .r7
    · rw [if_pos ⟨hb, rfl⟩, hb, link_reg_r7]
    · rw [if_neg (fun h => hb h.1), link_reg_of_ne s hb]

/-- Settles O28: both link and then write `PC`, each with its own target. -/
theorem subroutineCallsLinkAndJump : Obligations.SubroutineCallsLinkAndJump := by
  intro base off s
  rw [← pcRelative_eq_ofNat]
  exact ⟨⟨_, exec_jsr_eq off s, link_setPC_linkOnly _ s⟩, ⟨_, exec_jsrr_eq base s, link_setPC_linkOnly _ s⟩⟩

end Sys2Proof.Machine
end

section
/-! PROOFS. The family of 43_load_store.md: LEA (R123), LD, LDR and LDI (R120-R122), ST, STR and STI (R124-R126). Every memory
read among them goes on with the word and the polled state, or stops with its poll; that is said once, and each load ends
with `loadResult` and each store with one `memWrite`. -/

namespace Sys2Proof.Machine

/-- A base+offset address is the sum of the numbers modulo 2^16 (R10). -/
theorem baseOffset_eq_ofNat (base : Reg) (off : Word) (s : State) :
    baseOffset base off s = BitVec.ofNat 16 ((s.reg base).toNat + off.toNat) :=
  BitVec.add_def ..

/-! ### A read and what comes after it (R41, R47, R97) -/

section
variable {a : Word} {s u : State} {k : Word × State → Result}

theorem orStop_memRead_of_ne (ha : a ≠ Config.kbsr) : orStop s (memRead a s) k = k (s.cell a, s) :=
  orStop_ok (memRead_of_ne s ha)

theorem orStop_memRead_of_poll_ok (ha : a = Config.kbsr) (hp : keyboardPoll s = .ok u) :
    orStop s (memRead a s) k = k (u.cell Config.kbsr, u) := by
  rw [ha]
  exact orStop_ok (memRead_kbsr_of_ok hp)

/-- A poll that does not go on stops the instruction in the state before it. -/
theorem orStop_memRead_stops {x : Stop} (ha : a = Config.kbsr) (hp : keyboardPoll s = .error x) :
    stops x s (orStop s (memRead a s) k) := by
  rw [ha, orStop_error (memRead_kbsr_of_error hp)]
  exact stopWith_stops x s

end

/-! ### LEA (R123) -/

theorem exec_lea_eq (dr : Reg) (off : Word) (s : State) :
    exec (.lea dr off) s = .next (writeResult dr (pcRelative off s) s) := rfl

/-- Settles O21: LEA is one result write, of the PC-relative address. -/
theorem leaWritesTheAddress : Obligations.LeaWritesTheAddress := by
  intro dr off s
  rw [← pcRelative_eq_ofNat]
  exact ⟨_, exec_lea_eq dr off s, writeResult_resultOnly dr (pcRelative off s) s⟩

/-! ### LD, LDR and LDI (R120-R122) -/

/-- The end of every load does what `loadsFrom` says, by the answer of its read. -/
theorem loadResult_loadsFrom (dr : Reg) (ea : Word) (s : State) : loadsFrom dr ea s (loadResult dr ea s) := by
  refine ⟨fun hne => ?_, fun hea u hp => ?_, fun hea x hp => ?_⟩
  · exact ⟨_, orStop_memRead_of_ne hne, writeResult_resultOnly dr (s.cell ea) s⟩
  · subst hea
    exact ⟨_, orStop_memRead_of_poll_ok rfl hp, writeResult_resultOnly dr (u.cell Config.kbsr) u⟩
  · exact orStop_memRead_stops hea hp

theorem exec_ld_eq (dr : Reg) (off : Word) (s : State) : exec (.ld dr off) s = loadResult dr (pcRelative off s) s := rfl

theorem exec_ldr_eq (dr base : Reg) (off : Word) (s : State) :
    exec (.ldr dr base off) s = loadResult dr (baseOffset base off s) s := rfl

/-- Settles O22: both are a load from their own effective address. -/
theorem ldLdrLoadTheWord : Obligations.LdLdrLoadTheWord := by
  intro dr base off s
  rw [← pcRelative_eq_ofNat, ← baseOffset_eq_ofNat, exec_ld_eq, exec_ldr_eq]
  exact ⟨loadResult_loadsFrom dr _ s, loadResult_loadsFrom dr _ s⟩

section
variable (dr : Reg) {off : Word} {s u : State}

theorem exec_ldi_of_ne (ha : pcRelative off s ≠ Config.kbsr) :
    exec (.ldi dr off) s = loadResult dr (s.cell (pcRelative off s)) s :=
  orStop_memRead_of_ne ha

theorem exec_ldi_of_poll_ok (ha : pcRelative off s = Config.kbsr) (hp : keyboardPoll s = .ok u) :
    exec (.ldi dr off) s = loadResult dr (u.cell Config.kbsr) u :=
  orStop_memRead_of_poll_ok ha hp

theorem exec_ldi_stops {x : Stop} (ha : pcRelative off s = Config.kbsr) (hp : keyboardPoll s = .error x) :
    stops x s (exec (.ldi dr off) s) :=
  orStop_memRead_stops ha hp

end

/-- Settles O23: after the pointer read, LDI is a load from the word it gave, in the state it left. -/
theorem ldiLoadsThroughThePointer : Obligations.LdiLoadsThroughThePointer := by
  intro dr off s
  refine ⟨fun hne => ?_, fun ha u hp => ?_, fun ha x hp => exec_ldi_stops dr ha hp⟩
  · rw [exec_ldi_of_ne dr hne]
    exact loadResult_loadsFrom dr _ s
  · rw [exec_ldi_of_poll_ok dr ha hp]
    exact loadResult_loadsFrom dr _ u

/-! ### ST, STR and STI (R124-R126) -/

theorem exec_st_eq (sr : Reg) (off : Word) (s : State) :
    exec (.st sr off) s = .next (s.memWrite (pcRelative off s) (s.reg sr)) := rfl

theorem exec_str_eq (sr base : Reg) (off : Word) (s : State) :
    exec (.str sr base off) s = .next (s.memWrite (baseOffset base off s) (s.reg sr)) := rfl

/-- Settles O24: both are one store, at their own effective address. -/
theorem stStrStoreOneWord : Obligations.StStrStoreOneWord := by
  intro sr base off s
  rw [← pcRelative_eq_ofNat, ← baseOffset_eq_ofNat]
  exact ⟨⟨_, exec_st_eq sr off s, s.memWrite_storeOnly _ _⟩, ⟨_, exec_str_eq sr base off s, s.memWrite_storeOnly _ _⟩⟩

section
variable (sr : Reg) {off : Word} {s u : State}

theorem exec_sti_of_ne (ha : pcRelative off s ≠ Config.kbsr) :
    exec (.sti sr off) s = .next (s.memWrite (s.cell (pcRelative off s)) (s.reg sr)) :=
  orStop_memRead_of_ne ha

/-- The register is read after the poll, which leaves it as it was (R44). -/
theorem exec_sti_of_poll_ok (ha : pcRelative off s = Config.kbsr) (hp : keyboardPoll s = .ok u) :
    exec (.sti sr off) s = .next (u.memWrite (u.cell Config.kbsr) (s.reg sr)) := by
  rw [← (keyboardPoll_ok hp).reg sr]
  exact orStop_memRead_of_poll_ok ha hp

theorem exec_sti_stops {x : Stop} (ha : pcRelative off s = Config.kbsr) (hp : keyboardPoll s = .error x) :
    stops x s (exec (.sti sr off) s) :=
  orStop_memRead_stops ha hp

end

/-- Settles O25: after the pointer read, STI is one store at the word it gave, in the state it left. -/
theorem stiStoresThroughThePointer : Obligations.StiStoresThroughThePointer := by
  intro sr off s
  refine ⟨fun hne => ?_, fun ha u hp => ?_, fun ha x hp => exec_sti_stops sr ha hp⟩
  · exact ⟨_, exec_sti_of_ne sr hne, s.memWrite_storeOnly _ _⟩
  · exact ⟨_, exec_sti_of_poll_ok sr ha hp, u.memWrite_storeOnly _ _⟩

end Sys2Proof.Machine
end

section
/-! PROOFS. The family of 44_trap.md: the input routines GETC and IN (R141, R144), OUT (R142), HALT (R146), the undefined vector
(R147), and the string routines PUTS and PUTSP (R143, R145, R148). What the two string routines have in common is the structure
`StringRoutine`, and the statements that both make are proved of it once. -/

namespace Sys2Proof.Machine

/-! ### A failed output ends the run (R174, D22) -/

section
variable {s : State} {k : State → Result}

theorem orStop_flush_fails (h : ¬ flushOk s) :
    ∃ t, orStop s (hostFlush s) k = .next t ∧ abortOnly (.ioError .flush) s t := by
  rw [orStop_error (hostFlush_of_fail h)]
  exact raiseAbort_abortOnly _ s

theorem orStop_write_fails {b : Byte} (h : ¬ writeOk s) :
    ∃ t, orStop s (hostWrite b s) k = .next t ∧ abortOnly (.ioError .write) s t := by
  rw [orStop_error (hostWrite_of_fail h b)]
  exact raiseAbort_abortOnly _ s

end

/-! ### GETC (R141) -/

theorem exec_trapGetc_eq (s : State) : exec .trapGetc s = readStep s := rfl

/-- Settles O29: GETC is the blocking read, by the stream's answer. -/
theorem getcReadsOneByte : Obligations.GetcReadsOneByte := by
  intro s
  rw [exec_trapGetc_eq]
  refine ⟨fun b hb => ⟨_, readStep_of_byte hb, takeByte_consume_byteTaken b s⟩, fun h => ?_, fun h => ?_,
    readStep_of_waiting⟩
  · rw [readStep_of_eof h]; exact raiseAbort_abortOnly _ s
  · rw [readStep_of_fail h]; exact raiseAbort_abortOnly _ s

/-! ### IN (R144) -/

theorem bytesOf_append (es fs : List OutEvent) : bytesOf (es ++ fs) = bytesOf es ++ bytesOf fs := by
  induction es with
  | nil => rfl
  | cons e es ih =>
    cases e with
    | write b => exact congrArg (b :: ·) ih
    | flush => exact ih

/-- A log that ends with a flush is observable as a whole (R34). -/
theorem upToLastFlush_append_flush (log : List OutEvent) : upToLastFlush (log ++ [.flush]) = log ++ [.flush] := by
  simp [upToLastFlush]

theorem bytesOf_upToLastFlush_append_flush (log : List OutEvent) :
    bytesOf (upToLastFlush (log ++ [.flush])) = bytesOf log := by
  rw [upToLastFlush_append_flush, bytesOf_append]
  exact List.append_nil _

/-- The blocking read writes no output, whether it takes a byte or ends the run. -/
theorem readStep_output {s t : State} (h : readStep s = .next t) : t.output = s.output := by
  rcases readStep_next h with ⟨b, -, rfl⟩ | ⟨c, -, rfl⟩
  · obtain ⟨-, -, -, -, -, -, -, -, hout, -⟩ := takeByte_fields b (s.consume 1)
    exact hout
  · rfl

section
variable {s : State}

theorem exec_trapIn_of_waiting (hf : flushOk s) (h : s.byteAt 0 = .waiting) :
    exec .trapIn s = .next { s.afterFlush with trap := some .reading } := by
  show execTrapIn s = _
  rw [execTrapIn, orStop_ok (hostFlush_of_ok hf), State.afterFlush_byteAt, h]

/-- With an answer there, IN is GETC after the flush. -/
theorem exec_trapIn_of_answer (hf : flushOk s) (h : s.byteAt 0 ≠ .waiting) :
    exec .trapIn s = exec .trapGetc s.afterFlush := by
  show execTrapIn s = readStep s.afterFlush
  rw [execTrapIn, orStop_ok (hostFlush_of_ok hf), State.afterFlush_byteAt]
  cases hb : s.byteAt 0 with
  | waiting => exact absurd hb h
  | byte b => rfl
  | eof => rfl
  | fail => rfl

/-- After a flush that succeeds, whatever IN then meets, the log ends with that flush. -/
theorem exec_trapIn_output {t : State} (hf : flushOk s) (h : exec .trapIn s = .next t) :
    t.output = s.output ++ [.flush] := by
  by_cases hw : s.byteAt 0 = .waiting
  · rw [exec_trapIn_of_waiting hf hw] at h
    rw [← Host.Outcome.next.inj h]
    rfl
  · rw [exec_trapIn_of_answer hf hw] at h
    exact readStep_output h

end

/-- Settles O30: after the flush, IN waits or is GETC. -/
theorem inFlushesThenReads : Obligations.InFlushesThenReads := by
  intro s
  refine ⟨fun hf => ?_, fun b hf hb => ?_, orStop_flush_fails⟩
  · refine ⟨s.afterFlush, s.afterFlush_outputOnly, rfl, rfl, exec_trapIn_of_answer hf, exec_trapIn_of_waiting hf,
      fun t ht => ?_⟩
    rw [exec_trapIn_output hf ht]
    exact ⟨rfl, bytesOf_upToLastFlush_append_flush s.output⟩
  · have hanswer : s.byteAt 0 ≠ .waiting := by rw [hb]; nofun
    exact ⟨s.afterFlush, _, s.afterFlush_outputOnly, rfl, (exec_trapIn_of_answer hf hanswer).trans (readStep_of_byte hb),
      takeByte_consume_byteTaken b s.afterFlush⟩

/-! ### OUT (R142) -/

theorem lo8_toNat (w : Word) : (lo8 w).toNat = w.toNat % 256 := by
  rw [lo8, BitVec.extractLsb'_toNat, Nat.shiftRight_zero]

theorem exec_trapOut_of_writeOk {s : State} (h : writeOk s) :
    exec .trapOut s = .next (s.afterWrite (lo8 (s.reg .r0))) :=
  orStop_ok (hostWrite_of_ok h _)

/-- Settles O31: OUT is one write to the host. -/
theorem outWritesTheLowByte : Obligations.OutWritesTheLowByte :=
  fun s => ⟨fun h => ⟨_, _, exec_trapOut_of_writeOk h, lo8_toNat _, s.afterWrite_outputOnly _, rfl, rfl⟩,
    orStop_write_fails⟩

/-! ### HALT (R146) -/

/-- Settles O37: HALT is the flush and then the status. -/
theorem haltFlushesAndHalts : Obligations.HaltFlushesAndHalts :=
  fun s => ⟨fun h => ⟨_, exec_trapHalt_of_flushOk h, rfl, rfl, s.afterFlush_outputOnly⟩, orStop_flush_fails⟩

/-! ### The undefined vectors (R147) -/

/-- Settles O40: the row is the abort. -/
theorem undefinedVectorAborts : Obligations.UndefinedVectorAborts :=
  fun v s => raiseAbort_abortOnly (.unknownTrapRoutine v) s

/-! ### Several writes in a row (R13) -/

/-- The state after writes that all succeed. -/
def State.afterWrites (s : State) (bs : List Byte) : State :=
  { s with output := s.output ++ bs.map .write, host := { s.host with writes := s.host.writes.drop bs.length } }

/-- The host's next `n` answers to a write are `Ok`. -/
def WritesOk (n : Nat) (s : State) : Prop := ∀ x ∈ s.host.writes.take n, x = .ok

section
variable (s : State) (bs cs : List Byte) (b : Byte)

theorem State.afterWrite_eq_afterWrites : s.afterWrite b = s.afterWrites [b] := by
  simp [State.afterWrite, State.afterWrites]

theorem State.afterWrites_nil : s.afterWrites [] = s := by
  simp [State.afterWrites]

theorem State.afterWrites_append : s.afterWrites (bs ++ cs) = (s.afterWrites bs).afterWrites cs := by
  simp [State.afterWrites]

theorem State.afterWrites_outputOnly : outputOnly (bs.map .write) s (s.afterWrites bs) :=
  ⟨rfl, rfl, ⟨fun _ => rfl, rfl⟩, fun _ => rfl, rfl, rfl, rfl⟩

/-- Writes and then a flush change exactly what `outputOnly` says. -/
theorem State.afterWrites_afterFlush_outputOnly :
    outputOnly (bs.map .write ++ [.flush]) s (s.afterWrites bs).afterFlush :=
  ⟨List.append_assoc .., rfl, ⟨fun _ => rfl, rfl⟩, fun _ => rfl, rfl, rfl, rfl⟩

/-- One succeeding write is what `writeOk` says. -/
theorem writesOk_one_iff : WritesOk 1 s ↔ writeOk s := by
  unfold WritesOk writeOk
  cases s.host.writes <;> simp

/-- Later answers are those that the first writes leave. -/
theorem writesOk_add_iff (n : Nat) :
    WritesOk (bs.length + n) s ↔ WritesOk bs.length s ∧ WritesOk n (s.afterWrites bs) := by
  simp only [WritesOk, List.take_add, List.forall_mem_append, State.afterWrites]

theorem writesOk_two_iff : WritesOk 2 s ↔ writeOk s ∧ writeOk (s.afterWrite b) := by
  rw [State.afterWrite_eq_afterWrites, ← writesOk_one_iff, ← writesOk_one_iff]
  exact writesOk_add_iff s [b] 1

end

/-! ### The string routines (R143, R145, R148) -/

/-- The state with another progress of the trap unit. -/
def State.withTrap (s : State) (tp : Option TrapProgress) : State := { s with trap := tp }

/-- What PUTS and PUTSP share. `p a` is the progress of a routine whose next string word is at `a`, and `bytes skip cs` are the
bytes written for the words `cs`, under `PUTSP_SKIP_ZERO_HIGH = skip`. -/
structure StringRoutine (p : Word → TrapProgress) (bytes : Bool → List Word → List Byte) : Prop where
  bytes_nil : ∀ skip, bytes skip [] = []
  bytes_cons : ∀ skip c cs, bytes skip (c :: cs) = bytes skip [c] ++ bytes skip cs
  /-- Executing the instruction makes the routine's first micro-step (log entry 20). -/
  first : ∀ a s, exec (p a).instr s = resumeTrap (p (s.reg .r0)) s
  /-- A read that does not go on stops the routine. -/
  read : ∀ {a x s}, memRead a s = .error x → resumeTrap (p a) s = stopWith x s
  /-- The zero word ends the string. -/
  zero : ∀ {a s u}, memRead a s = .ok (0x0000#16, u) → resumeTrap (p a) s = finishString u
  /-- Another word has its bytes written, if the host takes them. -/
  word : ∀ {a c s u}, memRead a s = .ok (c, u) → c ≠ 0x0000#16 →
    WritesOk (bytes u.params.putspSkipZeroHigh [c]).length u →
    resumeTrap (p a) s = .next ((u.afterWrites (bytes u.params.putspSkipZeroHigh [c])).withTrap (some (p (a + 1#16))))

theorem finishString_of_flushOk {s : State} (h : flushOk s) : finishString s = .next (s.afterFlush.withTrap none) :=
  orStop_ok (hostFlush_of_ok h)

theorem finishString_of_flush_fails {s : State} (h : ¬ flushOk s) :
    ∃ t, finishString s = .next t ∧ abortOnly (.ioError .flush) s t :=
  orStop_flush_fails h

/-- The next address is the sum of the numbers modulo 2^16 (R10, D25). -/
theorem nextAddress_eq_ofNat (a : Word) : a + 1#16 = BitVec.ofNat 16 (a.toNat + 1) := BitVec.add_def ..

theorem after_succ_of_step {s t : State} (n : Nat) (h : step s = .next t) : after (n + 1) s = after n t := by
  rw [after, h]

/-- The memory of `s` holds, from `a` on, the string of the words `cs` with its zero word, and none of it at KBSR. -/
def HoldsString (s : State) : Word → List Word → Prop
  | a, [] => a ≠ Config.kbsr ∧ s.cell a = 0x0000#16
  | a, c :: cs => a ≠ Config.kbsr ∧ s.cell a = c ∧ c ≠ 0x0000#16 ∧ HoldsString s (a + 1#16) cs

/-- The words one by one, by their distance from the string's address. -/
theorem holdsString_of_cells {s : State} {cs : List Word} {a : Word}
    (hkbsr : ∀ k, k ≤ cs.length → BitVec.ofNat 16 (a.toNat + k) ≠ 0xFE00#16)
    (hcells : ∀ k, k < cs.length → s.cell (BitVec.ofNat 16 (a.toNat + k)) = cs.getD k 0#16)
    (hne : ∀ c, c ∈ cs → c ≠ 0x0000#16)
    (hzero : s.cell (BitVec.ofNat 16 (a.toNat + cs.length)) = 0x0000#16) : HoldsString s a cs := by
  have ha : BitVec.ofNat 16 (a.toNat + 0) = a := BitVec.ofNat_toNat ..
  induction cs generalizing a with
  | nil => exact ⟨ha ▸ hkbsr 0 (Nat.le_refl 0), ha ▸ hzero⟩
  | cons c cs ih =>
    have hnext : ∀ k, BitVec.ofNat 16 ((a + 1#16).toNat + k) = BitVec.ofNat 16 (a.toNat + (k + 1)) := by
      intro k
      apply BitVec.eq_of_toNat_eq
      simp only [BitVec.toNat_ofNat, BitVec.toNat_add]
      omega
    refine ⟨ha ▸ hkbsr 0 (Nat.zero_le _), ha ▸ hcells 0 (Nat.zero_lt_succ _), hne c List.mem_cons_self, ih ?_ ?_ ?_ ?_ ?_⟩
    · exact fun k hk => hnext k ▸ hkbsr (k + 1) (Nat.succ_le_succ hk)
    · exact fun k hk => hnext k ▸ hcells (k + 1) (Nat.succ_lt_succ hk)
    · exact fun d hd => hne d (List.mem_cons_of_mem c hd)
    · exact hnext cs.length ▸ hzero
    · exact BitVec.ofNat_toNat ..

/-- Only the memory matters. -/
theorem HoldsString.of_mem_eq {s t : State} (hm : t.mem = s.mem) {cs : List Word} {a : Word} (h : HoldsString s a cs) :
    HoldsString t a cs := by
  induction cs generalizing a with
  | nil => exact ⟨h.1, (State.cell_of_mem_eq hm a).trans h.2⟩
  | cons c cs ih =>
    obtain ⟨hkbsr, hcell, hne, hrest⟩ := h
    exact ⟨hkbsr, (State.cell_of_mem_eq hm a).trans hcell, hne, ih hrest⟩

namespace StringRoutine
variable {p : Word → TrapProgress} {bytes : Bool → List Word → List Byte} (R : StringRoutine p bytes)
include R

/-- Executed from `R0` or stepped from the trap unit's progress, the answer is the micro-step's. -/
theorem answer {s : State} {a : Word} {r : Result}
    (h : (exec (p a).instr s = r ∧ a = s.reg .r0) ∨ (s.status = .running ∧ s.trap = some (p a) ∧ step s = r)) :
    resumeTrap (p a) s = r := by
  rcases h with ⟨hr, rfl⟩ | ⟨hs, ht, hr⟩
  · rw [← R.first (s.reg .r0) s, hr]
  · rw [← step_of_trap hs ht, hr]

section
variable {s u : State} {a c : Word}

theorem read_stops {x : Stop} (h : memRead a s = .error x) : stops x s (resumeTrap (p a) s) := by
  rw [R.read h]
  exact stopWith_stops x s

theorem zero_flushes (h : memRead a s = .ok (c, u)) (hc : c = 0x0000#16) (hf : flushOk u) :
    ∃ t, resumeTrap (p a) s = .next t ∧ outputOnly [.flush] u t ∧ t.trap = none ∧ t.status = s.status := by
  subst hc
  exact ⟨_, (R.zero h).trans (finishString_of_flushOk hf), u.afterFlush_outputOnly, rfl, (memRead_ok h).2.status⟩

theorem zero_flush_fails (h : memRead a s = .ok (c, u)) (hc : c = 0x0000#16) (hf : ¬ flushOk u) :
    ∃ t, resumeTrap (p a) s = .next t ∧ abortOnly (.ioError .flush) u t := by
  subst hc
  rw [R.zero h]
  exact finishString_of_flush_fails hf

/-- A word's bytes, under the parameter as it was before the read. -/
theorem word_writes (h : memRead a s = .ok (c, u)) (hc : c ≠ 0x0000#16)
    (hw : WritesOk (bytes s.params.putspSkipZeroHigh [c]).length u) :
    ∃ t, resumeTrap (p a) s = .next t ∧ outputOnly ((bytes s.params.putspSkipZeroHigh [c]).map .write) u t ∧
      t.trap = some (p (BitVec.ofNat 16 (a.toNat + 1))) ∧ t.status = s.status := by
  have hu : Polled s u := (memRead_ok h).2
  rw [← hu.params] at hw ⊢
  rw [← nextAddress_eq_ofNat]
  exact ⟨_, R.word h hc hw, u.afterWrites_outputOnly _, rfl, hu.status⟩

end

/-- From a string that memory holds, away from KBSR and with a host that takes its bytes, the micro-steps write the whole string
and flush: one for each word and one for the zero word. -/
theorem runs {cs : List Word} {s : State} {a : Word} (hs : s.status = .running) (hm : HoldsString s a cs)
    (hw : WritesOk (bytes s.params.putspSkipZeroHigh cs).length s) (hf : flushOk s) :
    ∃ u, resumeTrap (p a) s = .next u ∧ after cs.length u =
      some ((s.afterWrites (bytes s.params.putspSkipZeroHigh cs)).afterFlush.withTrap none) := by
  induction cs generalizing s a with
  | nil =>
    obtain ⟨hkbsr, hcell⟩ := hm
    have hread := memRead_of_ne s hkbsr
    rw [hcell] at hread
    rw [R.bytes_nil, State.afterWrites_nil]
    exact ⟨_, (R.zero hread).trans (finishString_of_flushOk hf), rfl⟩
  | cons c cs ih =>
    obtain ⟨hkbsr, hcell, hne, hrest⟩ := hm
    have hread := memRead_of_ne s hkbsr
    rw [hcell] at hread
    rw [R.bytes_cons, List.length_append, writesOk_add_iff] at hw
    obtain ⟨hword, hwrest⟩ := hw
    rw [R.bytes_cons, State.afterWrites_append]
    let t := (s.afterWrites (bytes s.params.putspSkipZeroHigh [c])).withTrap (some (p (a + 1#16)))
    have hmt : HoldsString t (a + 1#16) cs := HoldsString.of_mem_eq (s := s) (t := t) rfl hrest
    obtain ⟨u, hmicro, hafter⟩ := ih (s := t) hs hmt hwrest hf
    have hstep : step t = .next u := (step_of_trap (s := t) hs rfl).trans hmicro
    exact ⟨t, R.word hread hne hword, (after_succ_of_step cs.length hstep).trans hafter⟩

/-- The run of `runs`, as the statements about whole strings put it. -/
theorem writes_string {cs : List Word} {s : State} {a : Word} {r : Result} (hs : s.status = .running)
    (h : (exec (p a).instr s = r ∧ a = s.reg .r0) ∨ (s.trap = some (p a) ∧ step s = r)) (hm : HoldsString s a cs)
    (hw : WritesOk (bytes s.params.putspSkipZeroHigh cs).length s) (hf : flushOk s) :
    ∃ u t, r = .next u ∧ after cs.length u = some t ∧
      outputOnly ((bytes s.params.putspSkipZeroHigh cs).map .write ++ [.flush]) s t ∧
      t.trap = none ∧ t.status = .running := by
  obtain ⟨u, hstep, hafter⟩ := R.runs hs hm hw hf
  have hr : resumeTrap (p a) s = r := R.answer (h.imp_right fun hp => ⟨hs, hp⟩)
  exact ⟨u, _, hr.symm.trans hstep, hafter, s.afterWrites_afterFlush_outputOnly _, rfl, hs⟩

end StringRoutine

/-! ### PUTS (R143) -/

/-- The bytes that PUTS writes for a string (R143): the low byte of each word. -/
def putsBytes (cs : List Word) : List Byte := cs.map fun c => BitVec.ofNat 8 c.toNat

theorem lo8_eq_ofNat (w : Word) : lo8 w = BitVec.ofNat 8 w.toNat := by
  apply BitVec.eq_of_toNat_eq
  rw [lo8_toNat, BitVec.toNat_ofNat]

section
variable {a c : Word} {s u : State}

/-- A micro-step of PUTS at a word other than zero is one write. -/
theorem putsStep_of_word (h : memRead a s = .ok (c, u)) (hc : c ≠ 0x0000#16) :
    putsStep a s = orStop u (hostWrite (lo8 c) u) fun t => .next { t with trap := some (.puts (a + 1#16)) } :=
  (orStop_ok h).trans (if_neg hc)

theorem putsStep_of_writeOk (h : memRead a s = .ok (c, u)) (hc : c ≠ 0x0000#16) (hw : writeOk u) :
    putsStep a s = .next ((u.afterWrite (lo8 c)).withTrap (some (.puts (a + 1#16)))) :=
  (putsStep_of_word h hc).trans (orStop_ok (hostWrite_of_ok hw _))

end

theorem puts_stringRoutine : StringRoutine .puts fun _ => putsBytes where
  bytes_nil _ := rfl
  bytes_cons _ _ _ := rfl
  first _ _ := rfl
  read h := orStop_error h
  zero h := (orStop_ok h).trans (if_pos rfl)
  word {_ c _ u} h hc hw := by
    rw [show putsBytes [c] = [lo8 c] by rw [lo8_eq_ofNat]; rfl] at hw ⊢
    rw [← State.afterWrite_eq_afterWrites]
    exact putsStep_of_writeOk h hc ((writesOk_one_iff u).mp hw)

/-- Settles O32, by the word that the micro-step reads. -/
theorem putsTakesOneWordPerMicroStep : Obligations.PutsTakesOneWordPerMicroStep := by
  intro s a r h
  obtain rfl : putsStep a s = r := puts_stringRoutine.answer h
  refine ⟨fun c u hread => ⟨puts_stringRoutine.zero_flushes hread, puts_stringRoutine.zero_flush_fails hread,
    fun hc hw => ?_, fun hc hw => ?_⟩, fun x => puts_stringRoutine.read_stops⟩
  · obtain ⟨t, ht, hout, htrap, hstatus⟩ := puts_stringRoutine.word_writes hread hc ((writesOk_one_iff u).mpr hw)
    exact ⟨t, BitVec.ofNat 8 c.toNat, ht, BitVec.toNat_ofNat .., hout, htrap, hstatus⟩
  · rw [putsStep_of_word hread hc]
    exact orStop_write_fails hw

/-- Settles O35, by the run of a string routine. -/
theorem putsWritesTheWholeString : Obligations.PutsWritesTheWholeString := by
  intro cs s a r hs h hkbsr hcells hne hzero hw hf
  have hwrites : WritesOk (putsBytes cs).length s := by rw [putsBytes, List.length_map]; exact hw
  obtain ⟨u, t, hr, hafter, hout, hend⟩ :=
    puts_stringRoutine.writes_string hs h (holdsString_of_cells hkbsr hcells hne hzero) hwrites hf
  rw [putsBytes, List.map_map] at hout
  exact ⟨u, t, hr, hafter, hout, hend⟩

/-! ### PUTSP (R145) -/

theorem hi8_toNat (w : Word) : (hi8 w).toNat = w.toNat / 256 := by
  rw [hi8, BitVec.extractLsb'_toNat, Nat.shiftRight_eq_div_pow]
  have := w.isLt
  omega

theorem hi8_eq_ofNat (w : Word) : hi8 w = BitVec.ofNat 8 (w.toNat / 256) := by
  rw [← hi8_toNat, BitVec.ofNat_toNat, BitVec.setWidth_eq]

theorem hi8_eq_zero_iff (w : Word) : hi8 w = 0#8 ↔ w.toNat < 256 := by
  rw [BitVec.toNat_eq, hi8_toNat]
  simp

theorem skipsHigh_iff (c : Word) (s : State) :
    skipsHigh c s = true ↔ s.params.putspSkipZeroHigh = true ∧ c.toNat < 256 := by
  rw [skipsHigh, Bool.and_eq_true, beq_iff_eq, hi8_eq_zero_iff]

theorem putspBytes_cons (skip : Bool) (c : Word) (cs : List Word) :
    putspBytes skip (c :: cs) = putspBytes skip [c] ++ putspBytes skip cs := by
  simp [putspBytes]

/-- The bytes of one word: both, but for a high byte that is left out. -/
theorem putspBytes_singleton (c : Word) (s : State) :
    putspBytes s.params.putspSkipZeroHigh [c] = if skipsHigh c s = true then [lo8 c] else [lo8 c, hi8 c] := by
  rw [lo8_eq_ofNat, hi8_eq_ofNat]
  simp only [skipsHigh_iff]
  exact List.append_nil _

section
variable {a c : Word} {s u : State}

/-- A micro-step of PUTSP at a word other than zero writes the low byte, and then the high byte or nothing. -/
theorem putspStep_of_word (h : memRead a s = .ok (c, u)) (hc : c ≠ 0x0000#16) :
    putspStep a s = orStop u (hostWrite (lo8 c) u) fun t =>
      orStop t (if skipsHigh c t then .ok t else hostWrite (hi8 c) t) fun v =>
        .next { v with trap := some (.putsp (a + 1#16)) } :=
  (orStop_ok h).trans (if_neg hc)

theorem putspStep_of_skip (h : memRead a s = .ok (c, u)) (hc : c ≠ 0x0000#16) (hw : writeOk u)
    (hk : skipsHigh c u = true) :
    putspStep a s = .next ((u.afterWrite (lo8 c)).withTrap (some (.putsp (a + 1#16)))) := by
  rw [putspStep_of_word h hc, orStop_ok (hostWrite_of_ok hw _)]
  exact orStop_ok (if_pos hk)

/-- With the low byte written and the high byte not left out, the micro-step goes on with the write of the high byte. -/
theorem putspStep_of_low (h : memRead a s = .ok (c, u)) (hc : c ≠ 0x0000#16) (hw : writeOk u)
    (hk : ¬ skipsHigh c u = true) :
    putspStep a s = orStop (u.afterWrite (lo8 c)) (hostWrite (hi8 c) (u.afterWrite (lo8 c))) fun v =>
      .next { v with trap := some (.putsp (a + 1#16)) } := by
  have hk' : ¬ skipsHigh c (u.afterWrite (lo8 c)) = true := hk
  rw [putspStep_of_word h hc, orStop_ok (hostWrite_of_ok hw _), if_neg hk']

/-- A micro-step of PUTSP writes the word's bytes, if the host takes them. -/
theorem putspStep_of_writesOk (h : memRead a s = .ok (c, u)) (hc : c ≠ 0x0000#16)
    (hw : WritesOk (putspBytes u.params.putspSkipZeroHigh [c]).length u) :
    putspStep a s =
      .next ((u.afterWrites (putspBytes u.params.putspSkipZeroHigh [c])).withTrap (some (.putsp (a + 1#16)))) := by
  rw [putspBytes_singleton] at hw ⊢
  by_cases hk : skipsHigh c u = true
  · rw [if_pos hk] at hw ⊢
    rw [← State.afterWrite_eq_afterWrites]
    exact putspStep_of_skip h hc ((writesOk_one_iff u).mp hw) hk
  · rw [if_neg hk] at hw ⊢
    obtain ⟨hlow, hhigh⟩ := (writesOk_two_iff u (lo8 c)).mp hw
    rw [putspStep_of_low h hc hlow hk, orStop_ok (hostWrite_of_ok hhigh _), State.afterWrite_eq_afterWrites,
      State.afterWrite_eq_afterWrites, ← State.afterWrites_append]
    rfl

end

theorem putsp_stringRoutine : StringRoutine .putsp putspBytes where
  bytes_nil _ := rfl
  bytes_cons := putspBytes_cons
  first _ _ := rfl
  read h := orStop_error h
  zero h := (orStop_ok h).trans (if_pos rfl)
  word := putspStep_of_writesOk

/-- Settles O33, by the word that the micro-step reads and whether its high byte is left out. -/
theorem putspTakesOneWordPerMicroStep : Obligations.PutspTakesOneWordPerMicroStep := by
  intro s a r h
  obtain rfl : putspStep a s = r := putsp_stringRoutine.answer h
  refine ⟨fun c u hread => ⟨putsp_stringRoutine.zero_flushes hread, putsp_stringRoutine.zero_flush_fails hread,
    fun hc hw hhigh => putsp_stringRoutine.word_writes hread hc ?_⟩, fun x => putsp_stringRoutine.read_stops⟩
  rw [← (memRead_ok hread).2.params, ← skipsHigh_iff] at hhigh
  rw [← (memRead_ok hread).2.params, putspBytes_singleton]
  by_cases hk : skipsHigh c u = true
  · rw [if_pos hk]
    exact (writesOk_one_iff u).mpr hw
  · rw [if_neg hk]
    exact (writesOk_two_iff u (lo8 c)).mpr ⟨hw, hhigh.resolve_left hk⟩

/-- Settles O34, by the byte whose write fails. -/
theorem putspKeepsTheBytesBeforeAFailedWrite : Obligations.PutspKeepsTheBytesBeforeAFailedWrite := by
  intro s u a c r h hread hc
  obtain rfl : putspStep a s = r := putsp_stringRoutine.answer h
  refine ⟨fun hw => ?_, fun hw hfail hboth => ?_⟩
  · rw [putspStep_of_word hread hc]
    exact orStop_write_fails hw
  · have hk : ¬ skipsHigh c u = true := by
      rw [skipsHigh_iff, (memRead_ok hread).2.params]
      rintro ⟨hskip, hlt⟩
      rcases hboth with hskip' | hge
      · exact Bool.false_ne_true (hskip'.symm.trans hskip)
      · omega
    rw [putspStep_of_low hread hc hw hk, orStop_error (hostWrite_of_fail (s := u.afterWrite (lo8 c)) hfail _)]
    exact ⟨_, lo8 c, rfl, lo8_toNat c, rfl, rfl, u.afterWrite_outputOnly _⟩

/-- Settles O36, by the run of a string routine. -/
theorem putspWritesTheWholeString : Obligations.PutspWritesTheWholeString :=
  fun _ _ _ _ hs h hkbsr hcells hne hzero hw hf =>
    putsp_stringRoutine.writes_string hs h (holdsString_of_cells hkbsr hcells hne hzero) hw hf

end Sys2Proof.Machine
end

section
/-! PROOFS. The family of 45_reserved.md: RTI and RES end the run with the whole word recorded (R160, R161). -/

namespace Sys2Proof.Machine

/-- The word of a reserved opcode, as a number. -/
theorem toNat_opcode_append_low12 (op : BitVec 4) (low : BitVec 12) :
    (op ++ low).toNat = op.toNat * 0x1000 + low.toNat := by
  rw [BitVec.toNat_append, ← Nat.shiftLeft_add_eq_or_of_lt low.isLt, Nat.shiftLeft_eq]

/-- Settles O39: the word recorded is the opcode above the instruction's low bits, which is the word it was decoded from. -/
theorem reservedOpcodesAbort : Obligations.ReservedOpcodesAbort := by
  refine ⟨fun low s => ⟨?_, ?_⟩, fun w s hw => ?_⟩
  · obtain ⟨t, ht, habort⟩ := raiseAbort_abortOnly (.reservedOpcode (0x8#4 ++ low)) s
    exact ⟨t, _, ht, toNat_opcode_append_low12 0x8#4 low, habort⟩
  · obtain ⟨t, ht, habort⟩ := raiseAbort_abortOnly (.reservedOpcode (0xD#4 ++ low)) s
    exact ⟨t, _, ht, toNat_opcode_append_low12 0xD#4 low, habort⟩
  · rcases hw with hrti | hres
    · obtain ⟨t, ht, habort⟩ := exec_rti_low hrti s
      exact ⟨_, t, (WordFormat.rti hrti).decode_eq nofun, ht, habort⟩
    · obtain ⟨t, ht, habort⟩ := exec_res_low hres s
      exact ⟨_, t, (WordFormat.res hres).decode_eq nofun, ht, habort⟩

end Sys2Proof.Machine
end

section
/-! PROOFS. The family of 60_exceptions.md: the error that no run ends with (R172), and what the step that ends a run with an
error leaves (R174, R175). -/

namespace Sys2Proof.Machine

/-! ### The unreachable error (R172) -/

/-- Settles O42: the decoder's errors are rejected vectors, and a step's errors are the reachable ones. -/
theorem unknownInstructionNeverArises : Obligations.UnknownInstructionNeverArises := by
  refine ⟨fun w raw hd => ?_, fun s t raw h he => ?_⟩
  · obtain ⟨v, -, hv⟩ := decode_eq_error_iff.mp hd
    cases hv
  · obtain ⟨hs, hmoved⟩ := step_moved h
    obtain ⟨-, herror⟩ := hmoved.ends_of_running hs
    have hreach : reachableError (.unknownInstruction raw) = true := herror _ he
    cases hreach

/-! ### What an error leaves (R174, R175) -/

/-- `t` is what an error leaves of `s`: no register, no flag and not `PC` is written, the trap unit is idle, and no memory word
but the two keyboard cells has changed. -/
structure ErrorLeaves (s t : State) : Prop extends Quiet s t where
  trap : t.trap = none
  cells : ∀ a, a ≠ Config.kbsr → a ≠ Config.kbdr → t.cell a = s.cell a

/-- Raising an error changes the run status and the trap unit alone (R174). -/
theorem errorLeaves_raised (e : RunError) (s : State) : ErrorLeaves s { s with status := .aborted e, trap := none } :=
  ⟨(Quiet.refl s).withControl _ _, rfl, fun _ _ _ => rfl⟩

section
variable {i : Instr} {e : RunError} {s t : State}

/-- Of what an instruction can do in a running machine, only the abort leaves an error. -/
theorem InstrEffect.quiet_of_aborted (h : InstrEffect i s t) (hs : s.status = .running) (he : t.status = .aborted e) :
    Quiet s t ∧ t.trap = none := by
  have hne : t.status ≠ s.status := by rw [he, hs]; nofun
  cases h with
  | result _ _ _ _ hu => exact absurd hu hne
  | transfer _ _ hu =>
    rcases hu with rfl | ⟨-, rfl⟩
    · exact absurd rfl hne
    · exact absurd rfl hne
  | @byte u b _ w _ =>
    obtain ⟨-, -, -, -, -, hstatus, -⟩ := takeByte_fields b (u.consume 1)
    exact absurd (hstatus.trans w.status) hne
  | abort q _ _ ht => exact ⟨q, ht⟩
  | quiet _ _ _ hst =>
    rcases hst with hst | ⟨-, hhalted, -⟩
    · exact absurd hst hne
    · rw [hhalted] at he; cases he

/-- An instruction with a store address does not end the run: the pointer read of STI, which alone could, went on (R124-R126). -/
theorem exec_status_of_storeAddress {a : Word} (ha : storeAddress i s = some a) (h : exec i s = .next t) :
    t.status = s.status := by
  cases i with
  | st _ _ => rw [← Host.Outcome.next.inj h]; rfl
  | str _ _ _ => rw [← Host.Outcome.next.inj h]; rfl
  | sti _ _ =>
    rcases orStop_next h with ⟨⟨v, u⟩, hr, hk⟩ | ⟨_, hr, -⟩
    · rw [← Host.Outcome.next.inj hk]
      exact (memRead_ok hr).2.status
    · rw [storeAddress, hr] at ha; cases ha
  | _ => cases ha

/-- An instruction that ends the run has stored nothing (R174). -/
theorem exec_errorLeaves (h : exec i s = .next t) (hs : s.status = .running) (he : t.status = .aborted e) :
    ErrorLeaves s t := by
  obtain ⟨hquiet, htrap⟩ := (exec_effect h).quiet_of_aborted hs he
  refine ⟨hquiet, htrap, fun a hkbsr hkbdr => exec_keepsCell (fun ha => ?_) (.inl ⟨hkbsr, hkbdr⟩) t h⟩
  have hstatus := exec_status_of_storeAddress ha h
  rw [he, hs] at hstatus
  cases hstatus

/-- A later micro-step never stores, so neither does one that ends the run (R148, R174). -/
theorem resumeTrap_errorLeaves {p : TrapProgress} (h : resumeTrap p s = .next t) (hs : s.status = .running)
    (he : t.status = .aborted e) : ErrorLeaves s t := by
  obtain ⟨hquiet, htrap⟩ := (resumeTrap_effect h).quiet_of_aborted hs he
  exact ⟨hquiet, htrap, fun _ hkbsr hkbdr => resumeTrap_keepsCell (.inl ⟨hkbsr, hkbdr⟩) t h⟩

/-- A step that ends the run with an error raised it in the state before a fetch or in the one after it (R92, R174, D14). -/
theorem step_errorLeaves (h : step s = .next t) (he : t.status = .aborted e) :
    ∃ u a, Polled s u ∧ (a = s.pc ∨ a = s.pc + 1#16) ∧ ErrorLeaves (u.setPC a) t := by
  obtain ⟨hs, hcase⟩ := step_cases h
  rcases hcase with ⟨p, -, hr⟩ | ⟨-, -, rfl⟩ | ⟨-, -, -, rfl⟩ | ⟨-, -, w, u, hm, hx⟩
  · exact ⟨s, s.pc, .refl s, .inl rfl, resumeTrap_errorLeaves hr hs he⟩
  · cases he
  · exact ⟨s, s.pc, .refl s, .inl rfl, errorLeaves_raised _ s⟩
  · have hpolled : Polled s u := (memRead_ok hm).2
    exact ⟨u, s.pc + 1#16, hpolled, .inr rfl, exec_errorLeaves hx (hpolled.status.trans hs) he⟩

end

/-- Settles O43: the fetch, if there was one, changed nothing but `PC` and the keyboard, and the error nothing more. -/
theorem errorsArePrecise : Obligations.ErrorsArePrecise := by
  intro s t e h he
  obtain ⟨u, a, hfetch, hpc, hleft⟩ := step_errorLeaves h he
  obtain ⟨-, hmoved⟩ := step_moved h
  refine ⟨⟨fun r => (hleft.reg r).trans (hfetch.reg r), hleft.cond.trans hfetch.cond⟩, ?_, hleft.trap,
    fun b hkbsr hkbdr => (hleft.cells b hkbsr hkbdr).trans (hfetch.cells b hkbsr hkbdr), hmoved.output, step_of_aborted he⟩
  rw [hleft.pc]
  exact hpc

end Sys2Proof.Machine
end

section
/-! PROOFS. The family of 70_reset_and_hazards.md: the image and the loader (R190-R195). What `wordsOf` and `load` answer is said
once each; the two statements then follow from `boot`, which is `load` with the rest of the machine as created. -/

namespace Sys2Proof.Machine

/-! ### The words of an image (R193, R194) -/

section
variable {bytes : List Byte} {ws : List Word}

/-- Only a byte left over keeps a byte sequence from being words. -/
theorem length_odd_of_wordsOf_eq_none (h : wordsOf bytes = none) : bytes.length % 2 = 1 := by
  induction bytes using wordsOf.induct with
  | case1 => cases h
  | case2 => rfl
  | case3 b0 b1 rest ih =>
    have hrest := ih (Option.map_eq_none_iff.mp h)
    simp only [List.length_cons]
    omega

/-- A word is two bytes. -/
theorem length_of_wordsOf_eq_some (h : wordsOf bytes = some ws) : bytes.length = 2 * ws.length := by
  induction bytes using wordsOf.induct generalizing ws with
  | case1 => cases h; rfl
  | case2 => cases h
  | case3 b0 b1 rest ih =>
    obtain ⟨vs, hvs, rfl⟩ := Option.map_eq_some_iff.mp h
    have hrest := ih hvs
    simp only [List.length_cons]
    omega

/-- Word `k` is made of bytes `2k` and `2k + 1`, the high byte first. -/
theorem wordsOf_getD_toNat (h : wordsOf bytes = some ws) (k : Nat) (hk : k < ws.length) :
    (ws.getD k 0#16).toNat = 256 * (bytes.getD (2 * k) 0#8).toNat + (bytes.getD (2 * k + 1) 0#8).toNat := by
  induction bytes using wordsOf.induct generalizing ws k with
  | case1 => cases h; cases hk
  | case2 => cases h
  | case3 b0 b1 rest ih =>
    obtain ⟨vs, hvs, rfl⟩ := Option.map_eq_some_iff.mp h
    cases k with
    | zero => exact wordOfBytes_toNat b0 b1
    | succ k => exact ih hvs k (Nat.lt_of_succ_lt_succ hk)

end

/-! ### What a load answers (R194, R195) -/

/-- The image's fault that a load reports as `e` (R194, R195, D19; log entry 21 for the order). -/
def LoadFault (src : ImageSource) : LoadError → Prop
  | .io => src.readFails = true
  | .short => src.readFails = false ∧ src.bytes.length < 2
  | .odd => src.readFails = false ∧ 2 ≤ src.bytes.length ∧ src.bytes.length % 2 = 1
  | .overflow => src.readFails = false ∧ 2 ≤ src.bytes.length ∧ src.bytes.length % 2 = 0 ∧
      65536 < 256 * (src.bytes.getD 0 0#8).toNat + (src.bytes.getD 1 0#8).toNat + (src.bytes.length - 2) / 2

/-- The loader tells words that fit from words past 0xFFFF, and places those that fit. -/
theorem load_of_wordsOf {rest : List Byte} {ws : List Word} (h : wordsOf rest = some ws) (b0 b1 : Byte) (m : Memory) :
    load { bytes := b0 :: b1 :: rest } m =
      if 65536 < 256 * b0.toNat + b1.toNat + ws.length then .error .overflow
      else .ok (placeWords m (256 * b0.toNat + b1.toNat) ws) := by
  simp only [load, h, wordOfBytes_toNat, Config.memorySize, Bool.false_eq_true, if_false]

/-- A byte left over is an odd image, wherever its origin is (R195). -/
theorem load_of_wordsOf_eq_none {rest : List Byte} (h : wordsOf rest = none) (b0 b1 : Byte) (m : Memory) :
    load { bytes := b0 :: b1 :: rest } m = .error .odd := by
  simp only [load, h, Bool.false_eq_true, if_false]

/-- A load fails with the image's fault, or the image has none. -/
theorem load_cases (src : ImageSource) (m : Memory) :
    (∃ e, load src m = .error e ∧ LoadFault src e) ∨ ∃ n, load src m = .ok n ∧ ∀ e, ¬ LoadFault src e := by
  obtain ⟨bytes, readFails⟩ := src
  cases readFails with
  | true => exact .inl ⟨.io, rfl, rfl⟩
  | false =>
    match bytes with
    | [] => exact .inl ⟨.short, rfl, rfl, Nat.zero_lt_two⟩
    | [_] => exact .inl ⟨.short, rfl, rfl, Nat.one_lt_two⟩
    | b0 :: b1 :: rest =>
      have htwo : 2 ≤ (b0 :: b1 :: rest).length := Nat.le_add_left 2 rest.length
      have hparity : (b0 :: b1 :: rest).length % 2 = rest.length % 2 := Nat.add_mod_right rest.length 2
      cases hws : wordsOf rest with
      | none =>
        have hodd : rest.length % 2 = 1 := length_odd_of_wordsOf_eq_none hws
        exact .inl ⟨.odd, load_of_wordsOf_eq_none hws b0 b1 m, rfl, htwo, hparity.trans hodd⟩
      | some ws =>
        have hrest : rest.length = 2 * ws.length := length_of_wordsOf_eq_some hws
        have heven : (b0 :: b1 :: rest).length % 2 = 0 := by omega
        have hcount : ((b0 :: b1 :: rest).length - 2) / 2 = ws.length := by simp [hrest]
        rw [load_of_wordsOf hws]
        split
        next hover =>
          rw [← hcount] at hover
          exact .inl ⟨.overflow, rfl, rfl, htwo, heven, hover⟩
        next hfits =>
          refine .inr ⟨_, rfl, fun e he => ?_⟩
          cases e with
          | io => cases he
          | short => exact absurd he.2 (Nat.not_lt.mpr htwo)
          | odd =>
            obtain ⟨-, -, hodd⟩ := he
            exact absurd (heven.symm.trans hodd) Nat.zero_ne_one
          | overflow =>
            obtain ⟨-, -, -, hover⟩ := he
            rw [hcount] at hover
            exact hfits hover

/-- An image has at most one fault that a load reports: two of them differ in the read, in having an origin, in the parity of
the bytes, or in the end of the words. -/
theorem LoadFault.unique {src : ImageSource} {e f : LoadError} (he : LoadFault src e) (hf : LoadFault src f) : e = f := by
  cases e <;> cases f
  case io.io | short.short | odd.odd | overflow.overflow => rfl
  all_goals grind [LoadFault]

theorem load_eq_error_iff (src : ImageSource) (m : Memory) (e : LoadError) :
    load src m = .error e ↔ LoadFault src e := by
  rcases load_cases src m with ⟨f, hload, hf⟩ | ⟨n, hload, hnone⟩
  · rw [hload]
    exact ⟨fun h => Except.error.inj h ▸ hf, fun he => congrArg _ (hf.unique he)⟩
  · rw [hload]
    exact ⟨nofun, fun he => absurd he (hnone e)⟩

/-! ### Creation and load together (R190, R191) -/

/-- The load gives a created machine its memory, and no more (R191). -/
theorem boot_eq_map_load (p : Config.Params) (m : Memory) (h : HostScript) (src : ImageSource) :
    boot p m h src = (load src m).map (State.create p · h) := by
  rw [boot, State.loadImage, State.create]
  cases load src m <;> rfl

/-- Settles O11: the words are read back as the bytes give them, from what the loader places. -/
theorem loaderPlacesTheImageWords : Obligations.LoaderPlacesTheImageWords := by
  intro p m h b0 b1 rest n hlen hfits
  cases hws : wordsOf rest with
  | none =>
    have hodd := length_odd_of_wordsOf_eq_none hws
    omega
  | some ws =>
    obtain rfl : ws.length = n := by
      have hrest := length_of_wordsOf_eq_some hws
      omega
    refine ⟨State.create p (placeWords m (256 * b0.toNat + b1.toNat) ws) h, ?_, fun k hk => ?_,
      fun a ha => placeWords_read_of_outside ws m _ a ha, fun hm => placeWords_wf ws m _ hm hfits, rfl⟩
    · rw [boot_eq_map_load, load_of_wordsOf hws, if_neg (Nat.not_lt.mpr hfits)]
      rfl
    · exact (congrArg BitVec.toNat (placeWords_read ws m _ k hk)).trans (wordsOf_getD_toNat hws k hk)

/-- Settles O12: a load's errors are the image's faults, and `boot` maps the load's answer. -/
theorem loadFailsExactlyOnBadImages : Obligations.LoadFailsExactlyOnBadImages := by
  intro src m len origin
  refine ⟨load_eq_error_iff src m .io, load_eq_error_iff src m .short, load_eq_error_iff src m .odd,
    load_eq_error_iff src m .overflow, fun p h => ?_⟩
  rw [boot_eq_map_load]
  cases load src m with
  | error e => simp [Except.map]
  | ok n => simp [Except.map, eq_comm]

end Sys2Proof.Machine
end
